-- ==== Sys2Proof/Word.lean ====
section
/-! DEFINITION. The machine words of streaming_FFT64 and the small data types built from them. -/

namespace Sys2Proof

/-- One 64-bit beat of the ports `cmd` and `rsp` (20_memory.md R30, R32). -/
abbrev Beat := BitVec 64

/-- An IEEE 754 binary64 value as its 64 bits (30_encoding.md R42): sign in bit 63, exponent in bits
[62:52], fraction in bits [51:0] (20_memory.md R32). -/
abbrev F64 := BitVec 64

/-- A 32-bit command word (30_encoding.md R46). -/
abbrev CmdWord := BitVec 32

/-- The eight 2-bit symbols of one Active Grid in 16 bits, slot 0 in bits [15:14] (30_encoding.md R45). -/
abbrev Frame := BitVec 16

/-- A symbol `(bit0, bit1)` as the number `2 * bit0 + bit1` (30_encoding.md R43): `bit0` is bit 1 of the
number and `bit1` its bit 0. -/
abbrev Symbol := BitVec 2

/-- Index of a register in the file the command names: `W`, `G` or `S` (30_encoding.md R46, R47). -/
abbrev Reg := Fin 4

/-- Index of an active slot (30_encoding.md R46, 00_scope.md R5). -/
abbrev Slot := Fin 8

/-- A control and status register number, the 4-bit `idx` field (10_state.md R19). -/
abbrev Csr := BitVec 4

/-- A Sample: a complex number in double precision (30_encoding.md R42). -/
structure Sample where
  re : F64
  im : F64
deriving DecidableEq, Repr, Inhabited

/-- Every NaN of binary64 and nothing else: a sign and a nonzero fraction, here `frac + 1`. A result the
spec leaves open among the NaNs (41_transform.md R65) is a value of this type. -/
structure NaN64 where
  negative : Bool
  frac : Fin 4503599627370495
deriving DecidableEq, Repr, Inhabited

/-- Every finite binary64 value and nothing else: the exponent field is below 0x7FF. A draw of the noise
source (44_noise_adder.md R95 (a)) is a value of this type. -/
structure Finite64 where
  negative : Bool
  exponent : Fin 2047
  frac : BitVec 52
deriving DecidableEq, Repr, Inhabited

/-- The binary64 operations that can give a NaN (41_transform.md R65, 00_scope.md R8). -/
inductive FOp where
  | add | sub | mul | div
deriving DecidableEq, Repr

end Sys2Proof
end

