-- ==== Sys2Proof/Syntax.lean ====
section
/-! DEFINITION. The 18 commands of 30_encoding.md R56 with their operands, and the packets of the two ports. -/

namespace Sys2Proof

/-- A command packet: a command beat and its payload beats (30_encoding.md R50). The end mark of the port
(20_memory.md R31) is the end of the list. A packet is never empty: the command beat is always there. -/
structure CmdPacket where
  head : Beat
  payload : List Beat
deriving DecidableEq, Repr

/-- A response packet: a header beat and its data beats (30_encoding.md R53). -/
structure RspPacket where
  header : Beat
  data : List Beat
deriving DecidableEq, Repr

/-- One constructor per row of the opcode map (30_encoding.md R56). `d` is the field `rd`, `s` the field `rs`,
`k` the slot index `idx[2:0]`, `csr` the field `idx`; `x` and `value` are the payload. Each operand's type
holds exactly the values its field can carry, so every value of this type is a command. -/
inductive Instr where
  | fft (d s : Reg)
  | ifft (d s : Reg)
  | mod (d : Reg) (k : Slot) (sym : Symbol)
  | modv (d s : Reg)
  | dem (d s : Reg) (k : Slot)
  | demv (d s : Reg)
  | proj (d s : Reg)
  | extr (d s : Reg)
  | noise (d s : Reg)
  | wclr (d : Reg)
  | wpush (d : Reg) (x : Sample)
  | wout (s : Reg)
  | gwr (d : Reg) (k : Slot) (x : Sample)
  | grd (s : Reg) (k : Slot)
  | sld (d : Reg) (imm16 : Frame)
  | srd (s : Reg)
  | crd (csr : Csr)
  | cwr (csr : Csr) (value : BitVec 64)
deriving DecidableEq, Repr

end Sys2Proof
end

