-- ==== Sys2Proof/WellFormed.lean ====
section
/-! DEFINITION. Which command packets are well formed, read field by field from the rules (30_encoding.md R46,
R49, R51, R52). The decoder (Decode.lean) follows the opcode map of R56 by mask and match instead: that the
two agree is a statement. Every value of `Instr` is well formed, because its operand types are exact. -/

namespace Sys2Proof

/-- The payload beats a command word asks for, if it is legal: its opcode is assigned and every field, and
every bit of a field, that the command does not use is zero (30_encoding.md R49, R51, R58). -/
def requiredPayload (opcode : BitVec 8) (rd rs : BitVec 2) (idx : BitVec 4) (imm16 : BitVec 16) : Option Nat :=
  match opcode.toNat with
  | 0x10 | 0x11 | 0x21 | 0x23 | 0x30 | 0x31 | 0x40 => if idx = 0 ∧ imm16 = 0 then some 0 else none
  | 0x20 => if rs = 0 ∧ idx.toNat < 8 ∧ imm16.toNat < 4 then some 0 else none
  | 0x22 => if idx.toNat < 8 ∧ imm16 = 0 then some 0 else none
  | 0x50 => if rs = 0 ∧ idx = 0 ∧ imm16 = 0 then some 0 else none
  | 0x51 => if rs = 0 ∧ idx = 0 ∧ imm16 = 0 then some 2 else none
  | 0x52 | 0x56 => if rd = 0 ∧ idx = 0 ∧ imm16 = 0 then some 0 else none
  | 0x53 => if rs = 0 ∧ idx.toNat < 8 ∧ imm16 = 0 then some 2 else none
  | 0x54 => if rd = 0 ∧ idx.toNat < 8 ∧ imm16 = 0 then some 0 else none
  | 0x55 => if rs = 0 ∧ idx = 0 then some 0 else none
  | 0x60 => if rd = 0 ∧ rs = 0 ∧ imm16 = 0 then some 0 else none
  | 0x61 => if rd = 0 ∧ rs = 0 ∧ imm16 = 0 then some 1 else none
  | _ => none

/-- A well-formed packet: bits [63:32] of the command beat are zero (30_encoding.md R52), the command word is
legal (R49, R58), and the payload has as many beats as the opcode asks for (R51). -/
def CmdPacket.wellFormed (p : CmdPacket) : Bool :=
  p.head.extractLsb' 32 32 == 0 &&
    requiredPayload (p.head.extractLsb' 24 8) (p.head.extractLsb' 22 2) (p.head.extractLsb' 20 2)
      (p.head.extractLsb' 16 4) (p.head.extractLsb' 0 16) == some p.payload.length

end Sys2Proof
end

