-- ==== Sys2Proof/Decode.lean ====
section
/-! DEFINITION. The decoder and the encoder, both from the opcode map of 30_encoding.md R56. -/

namespace Sys2Proof

/-! ### The command word (30_encoding.md R46) -/

/-- `opcode`, bits 31:24. -/
def opcodeOf (w : CmdWord) : BitVec 8 := w.extractLsb' 24 8

/-- `rd`, bits 23:22, as a register index. -/
def rdOf (w : CmdWord) : Reg := Fin.ofNat 4 (w.extractLsb' 22 2).toNat

/-- `rs`, bits 21:20, as a register index. -/
def rsOf (w : CmdWord) : Reg := Fin.ofNat 4 (w.extractLsb' 20 2).toNat

/-- `idx`, bits 19:16, as a CSR number (30_encoding.md R48). -/
def csrOf (w : CmdWord) : Csr := w.extractLsb' 16 4

/-- `idx[2:0]`, bits 18:16, as a slot index (30_encoding.md R48). -/
def slotOf (w : CmdWord) : Slot := Fin.ofNat 8 (w.extractLsb' 16 3).toNat

/-- `imm16`, bits 15:0. -/
def immOf (w : CmdWord) : Frame := w.extractLsb' 0 16

/-- `imm16[1:0]`, the symbol of `MOD` (30_encoding.md R48). -/
def symOf (w : CmdWord) : Symbol := w.extractLsb' 0 2

/-- The command word of its five fields (30_encoding.md R46). -/
def packWord (opcode : BitVec 8) (rd rs : BitVec 2) (idx : BitVec 4) (imm16 : BitVec 16) : CmdWord :=
  opcode ++ rd ++ rs ++ idx ++ imm16

/-! ### The opcode map (30_encoding.md R56) -/

/-- One row of the opcode map: `match`, `mask`, the payload beat count `P`, and the command that a word of
the row with that payload is. -/
structure Row where
  pattern : CmdWord
  mask : CmdWord
  payload : Nat
  build : CmdWord → List Beat → Instr

/-- A word selects the row for which `(w & mask) == match` (30_encoding.md R56). -/
def Row.selects (r : Row) (w : CmdWord) : Bool := w &&& r.mask == r.pattern

/-- The Sample that two payload beats carry, the real component first (20_memory.md R33). -/
def payloadSample (b : List Beat) : Sample := ⟨b.getD 0 0, b.getD 1 0⟩

/-- The 18 rows, in the order of 30_encoding.md R56. -/
def opcodeMap : List Row := [
  ⟨0x10000000, 0xFF0FFFFF, 0, fun w _ => .fft (rdOf w) (rsOf w)⟩,
  ⟨0x11000000, 0xFF0FFFFF, 0, fun w _ => .ifft (rdOf w) (rsOf w)⟩,
  ⟨0x20000000, 0xFF38FFFC, 0, fun w _ => .mod (rdOf w) (slotOf w) (symOf w)⟩,
  ⟨0x21000000, 0xFF0FFFFF, 0, fun w _ => .modv (rdOf w) (rsOf w)⟩,
  ⟨0x22000000, 0xFF08FFFF, 0, fun w _ => .dem (rdOf w) (rsOf w) (slotOf w)⟩,
  ⟨0x23000000, 0xFF0FFFFF, 0, fun w _ => .demv (rdOf w) (rsOf w)⟩,
  ⟨0x30000000, 0xFF0FFFFF, 0, fun w _ => .proj (rdOf w) (rsOf w)⟩,
  ⟨0x31000000, 0xFF0FFFFF, 0, fun w _ => .extr (rdOf w) (rsOf w)⟩,
  ⟨0x40000000, 0xFF0FFFFF, 0, fun w _ => .noise (rdOf w) (rsOf w)⟩,
  ⟨0x50000000, 0xFF3FFFFF, 0, fun w _ => .wclr (rdOf w)⟩,
  ⟨0x51000000, 0xFF3FFFFF, 2, fun w b => .wpush (rdOf w) (payloadSample b)⟩,
  ⟨0x52000000, 0xFFCFFFFF, 0, fun w _ => .wout (rsOf w)⟩,
  ⟨0x53000000, 0xFF38FFFF, 2, fun w b => .gwr (rdOf w) (slotOf w) (payloadSample b)⟩,
  ⟨0x54000000, 0xFFC8FFFF, 0, fun w _ => .grd (rsOf w) (slotOf w)⟩,
  ⟨0x55000000, 0xFF3F0000, 0, fun w _ => .sld (rdOf w) (immOf w)⟩,
  ⟨0x56000000, 0xFFCFFFFF, 0, fun w _ => .srd (rsOf w)⟩,
  ⟨0x60000000, 0xFFF0FFFF, 0, fun w _ => .crd (csrOf w)⟩,
  ⟨0x61000000, 0xFFF0FFFF, 1, fun w b => .cwr (csrOf w) (b.getD 0 0)⟩]

/-- The row a command word selects, if there is one. The rows are disjoint, so the first is the only one. -/
def findRow (w : CmdWord) : Option Row := opcodeMap.find? fun r => r.selects w

/-! ### Decoding a packet (30_encoding.md R57) -/

/-- Why a packet is no command, in the order the checks are made (30_encoding.md R57, 60_exceptions.md R142).
Each of them is the fault `IllegalCommand`. -/
inductive DecodeError where
  /-- Bits [63:32] of the command beat are not zero (R57 (1)). -/
  | upperBits
  /-- No row of the opcode map matches: an unassigned opcode or a nonzero unused bit (R57 (2)). -/
  | noRow
  /-- The number of payload beats is not the row's `P` (R57 (3)). -/
  | payloadCount
deriving DecidableEq, Repr

/-- The one verdict on a packet. -/
inductive Verdict where
  | command (i : Instr)
  | illegal (why : DecodeError)
deriving DecidableEq, Repr

/-- Bits [31:0] of the command beat: the command word (30_encoding.md R50). -/
def CmdPacket.word (p : CmdPacket) : CmdWord := p.head.extractLsb' 0 32

/-- Decoding is total: every packet gets exactly one verdict (30_encoding.md R57). -/
def decodePacket (p : CmdPacket) : Verdict :=
  if p.head.extractLsb' 32 32 ≠ 0 then .illegal .upperBits
  else match findRow p.word with
    | none => .illegal .noRow
    | some r =>
      if p.payload.length ≠ r.payload then .illegal .payloadCount
      else .command (r.build p.word p.payload)

/-! ### Encoding -/

/-- A register index in its 2-bit field. -/
def regField (r : Reg) : BitVec 2 := BitVec.ofNat 2 r.val

/-- A slot index in the 4-bit `idx` field: `idx[3]` is 0 (30_encoding.md R46). -/
def slotField (k : Slot) : BitVec 4 := BitVec.ofNat 4 k.val

/-- The command word of a command: its opcode, its operands in their fields, zero in every bit it does not use
(30_encoding.md R46, R49, R56). -/
def encodeWord : Instr → CmdWord
  | .fft d s => packWord 0x10 (regField d) (regField s) 0 0
  | .ifft d s => packWord 0x11 (regField d) (regField s) 0 0
  | .mod d k sym => packWord 0x20 (regField d) 0 (slotField k) (sym.setWidth 16)
  | .modv d s => packWord 0x21 (regField d) (regField s) 0 0
  | .dem d s k => packWord 0x22 (regField d) (regField s) (slotField k) 0
  | .demv d s => packWord 0x23 (regField d) (regField s) 0 0
  | .proj d s => packWord 0x30 (regField d) (regField s) 0 0
  | .extr d s => packWord 0x31 (regField d) (regField s) 0 0
  | .noise d s => packWord 0x40 (regField d) (regField s) 0 0
  | .wclr d => packWord 0x50 (regField d) 0 0 0
  | .wpush d _ => packWord 0x51 (regField d) 0 0 0
  | .wout s => packWord 0x52 0 (regField s) 0 0
  | .gwr d k _ => packWord 0x53 (regField d) 0 (slotField k) 0
  | .grd s k => packWord 0x54 0 (regField s) (slotField k) 0
  | .sld d imm16 => packWord 0x55 (regField d) 0 0 imm16
  | .srd s => packWord 0x56 0 (regField s) 0 0
  | .crd csr => packWord 0x60 0 0 csr 0
  | .cwr csr _ => packWord 0x61 0 0 csr 0

/-- The payload beats of a command: a Sample is two beats, real then imaginary (30_encoding.md R50, R51). -/
def encodePayload : Instr → List Beat
  | .wpush _ x => [x.re, x.im]
  | .gwr _ _ x => [x.re, x.im]
  | .cwr _ value => [value]
  | .fft _ _ | .ifft _ _ | .mod _ _ _ | .modv _ _ | .dem _ _ _ | .demv _ _ | .proj _ _ | .extr _ _ | .noise _ _ | .wclr _
  | .wout _ | .grd _ _ | .sld _ _ | .srd _ | .crd _ => []

/-- The packet of a command: the word zero-extended to a beat, then the payload (30_encoding.md R50, R52). -/
def encode (i : Instr) : CmdPacket := ⟨(encodeWord i).setWidth 64, encodePayload i⟩

/-! ### The host's numbering of an instruction's bits -/

/-- The packet whose beats, the first lowest, are the bits of `w` below `nbits`: bits 63:0 are the command beat
and each further 64 bits a payload beat. The port marks a packet's end and the number cannot, so the packet has
as many payload beats as its command word's row asks for (30_encoding.md R51; log entry 7). -/
def packetOfBits (nbits w : Nat) : CmdPacket :=
  let bits := w % 2 ^ nbits
  let head : Beat := BitVec.ofNat 64 bits
  let beats := match findRow (head.extractLsb' 0 32) with
    | some r => r.payload
    | none => 0
  ⟨head, (List.range beats).map fun j => BitVec.ofNat 64 (bits >>> (64 * (j + 1)))⟩

/-- The command the decoder reads from an instruction whose bits are `w` (log entry 7). -/
def decodeTableWord (nbits w : Nat) : Option Instr :=
  match decodePacket (packetOfBits nbits w) with
  | .command i => some i
  | .illegal _ => none

end Sys2Proof
end

