-- ==== Sys2Proof/Config.lean ====
section
/-! DEFINITION. What is fixed for the machine (00_scope.md R5, R6), and the values the spec leaves open:
opaque constants, of which nothing can be proved but their types. The parameters that hold numbers a test
could show wrong stand beside their unit: `twiddleRom` (Machine/Transform.lean), `qpskAmp`
(Machine/Modem.lean), `gridOffset` (Machine/Operands.lean). -/

namespace Sys2Proof.Config

/-- `FFT_SIZE`: Samples of a Waveform (00_scope.md R5). -/
abbrev fftSize : Nat := 64

/-- `NUM_ACTIVE`: active slots of an Active Grid (00_scope.md R5). -/
abbrev numActive : Nat := 8

/-- `SPACING`: bins between consecutive active slots (00_scope.md R5). -/
abbrev spacing : Nat := fftSize / numActive

/-- `WCAP`: largest length of a waveform register (00_scope.md R6). -/
abbrev wcap : Nat := fftSize

/-- FREE VALUE (DESIGN CHOICE of form, log entry 1; 44_noise_adder.md R94, R95; 93 U4). The value that the
noise source gives at one position of its stream, for a variance that is not zero. It is finite
(R95 (a)) and nothing else is known of it (R95 (c)). -/
opaque noiseDraw : (variance : F64) → (position : Nat) → Finite64

/-- FREE VALUE (DESIGN CHOICE of form, log entry 2; 41_transform.md R65, 47 R176; 93 U7). The NaN that an
operation gives on operands that make it give one: which NaN is not specified. It is a function of the
operation and its operands, so that the transform is deterministic bit for bit (41_transform.md R76). -/
opaque nanResult : FOp → F64 → F64 → NaN64

end Sys2Proof.Config
end

