-- ==== Sys2Proof/Machine/Flags.lean ====
section
/-! DEFINITION. The only flags of the block: the three sticky fault bits of `ERR` (10_state.md R18, R21). No command
sets a carry, zero, sign or overflow flag, and floating-point operations keep none (60_exceptions.md R151). -/

namespace Sys2Proof.Machine

/-- The three synchronous faults (60_exceptions.md R140). -/
inductive Cause where
  /-- A waveform operand did not have 64 Samples, or a push was made onto a full register (60_exceptions.md R141). -/
  | invalidLength
  /-- The packet was not a legal command, or named a CSR it may not use (60_exceptions.md R142). -/
  | illegalCommand
  /-- `NOISE` found `NVAR` unusable (60_exceptions.md R143). -/
  | invalidParameter
deriving DecidableEq, Repr

/-- The cause code (60_exceptions.md R140). -/
def causeCode : Cause → BitVec 8
  | .invalidLength => 1
  | .illegalCommand => 2
  | .invalidParameter => 3

/-- The cause code of a command that completed (60_exceptions.md R140). -/
def completed : BitVec 8 := 0

/-- Bit `c - 1` of `ERR` is the bit of cause `c` (10_state.md R21). -/
def errBit (c : Cause) : BitVec 64 := 1#64 <<< ((causeCode c).toNat - 1)

/-- `ERR` with the bit of a cause set: it stays set if it was set, and no other bit changes (10_state.md R21). -/
def errWith (err : BitVec 64) (c : Cause) : BitVec 64 := err ||| errBit c

end Sys2Proof.Machine
end

