-- ==== Sys2Proof/Machine/Float64.lean ====
section
/-! DEFINITION. IEEE 754 binary64 arithmetic as the block does it (41_transform.md R65, 47 R176): every
operation is computed exactly on integers and rounded once, to nearest, ties to even.

Every finite binary64 value is a whole number of UNITS of 2^-1074, the smallest subnormal. An operation makes
its exact result a fraction of units, and `fRound` is the one place where a fraction becomes a binary64. -/

namespace Sys2Proof.Machine

/-! ### Fields and classes (20_memory.md R32, 47 R178) -/

/-- Bit 63, the sign. -/
def fSign (x : F64) : Bool := x.getLsbD 63

/-- Bits [62:52], the exponent field. -/
def fExp (x : F64) : Nat := (x.extractLsb' 52 11).toNat

/-- Bits [51:0], the fraction field. -/
def fFrac (x : F64) : Nat := (x.extractLsb' 0 52).toNat

/-- A NaN: exponent field 0x7FF and a nonzero fraction (47 R178). -/
def fIsNaN (x : F64) : Bool := fExp x == 0x7FF && fFrac x != 0

/-- An infinity of either sign: exponent field 0x7FF and fraction 0 (47 R178). -/
def fIsInf (x : F64) : Bool := fExp x == 0x7FF && fFrac x == 0

/-- A zero of either sign: exponent field 0 and fraction 0 (47 R178). -/
def fIsZero (x : F64) : Bool := fExp x == 0 && fFrac x == 0

/-- A finite value: a zero, a subnormal or a normal. -/
def fIsFinite (x : F64) : Bool := fExp x != 0x7FF

/-- The magnitude of a finite value in units of 2^-1074: a subnormal is its fraction, a normal value of exponent
field `e` is `(2^52 + fraction) * 2^(e - 1)`. -/
def fUnits (x : F64) : Nat :=
  if fExp x = 0 then fFrac x else (2 ^ 52 + fFrac x) * 2 ^ (fExp x - 1)

/-- A finite value in units, with its sign. -/
def fInt (x : F64) : Int := if fSign x then -(fUnits x : Int) else fUnits x

/-- 2^1074: the units of the value 1. -/
def unitsOfOne : Nat := 1 <<< 1074

/-- The bits of +infinity. -/
def fInfBits : Nat := 0x7FF * 2 ^ 52

/-- A sign and the 63 bits below it. -/
def fOfBits (negative : Bool) (magnitude : Nat) : F64 := BitVec.ofNat 64 (if negative then 2 ^ 63 + magnitude else magnitude)

/-- An infinity. -/
def fInf (negative : Bool) : F64 := fOfBits negative fInfBits

/-- A zero. -/
def fZero (negative : Bool) : F64 := fOfBits negative 0

/-- The bits of a NaN. -/
def nanBits (n : NaN64) : F64 := fOfBits n.negative (fInfBits + n.frac.val + 1)

/-- The bits of a finite value. -/
def finiteBits (v : Finite64) : F64 := fOfBits v.negative (v.exponent.val * 2 ^ 52 + v.frac.toNat)

/-- The NaN an operation gives: a free value (41_transform.md R65, log entry 2). -/
def freeNaN (op : FOp) (x y : F64) : F64 := nanBits (Config.nanResult op x y)

/-! ### Rounding (41_transform.md R65) -/

/-- The binary64 nearest to `p / q` units, ties to even, with the given sign. `shift` is the binade: its values are
the multiples of `2 ^ shift` units. Below 2^53 units `shift` is 0, which is gradual underflow; a magnitude that
reaches the exponent field 0x7FF is an infinity. A rounding up to the next binade carries into the exponent
field by itself. -/
def fRound (negative : Bool) (p q : Nat) : F64 :=
  let shift := Nat.log2 (p / q) - 52
  let step := q * 2 ^ shift
  let low := p / step
  let rest := p % step
  let nearest := if step < 2 * rest ∨ (2 * rest = step ∧ low % 2 = 1) then low + 1 else low
  let magnitude := shift * 2 ^ 52 + nearest
  fOfBits negative (if fInfBits ≤ magnitude then fInfBits else magnitude)

/-! ### Operations (00_scope.md R8) -/

/-- Flips the sign bit, of a NaN too (47 R176). -/
def fneg (x : F64) : F64 := x ^^^ 0x8000000000000000

/-- The sum of `x` and `y`, with `nan` where the result is a NaN. An exact sum of zero is negative only when both
operands are (IEEE 754; log entry 3). -/
def fAddOr (nan x y : F64) : F64 :=
  if fIsNaN x || fIsNaN y then nan
  else if fIsInf x then (if fIsInf y && fSign x != fSign y then nan else x)
  else if fIsInf y then y
  else
    let z := fInt x + fInt y
    if z = 0 then fZero (fSign x && fSign y) else fRound (decide (z < 0)) z.natAbs 1

/-- `fadd`. -/
def fadd (x y : F64) : F64 := fAddOr (freeNaN .add x y) x y

/-- `fsub`: the sum with the negated second operand. -/
def fsub (x y : F64) : F64 := fAddOr (freeNaN .sub x y) x (fneg y)

/-- `fmul`: `0 * inf` is invalid and gives a NaN. -/
def fmul (x y : F64) : F64 :=
  let negative := fSign x != fSign y
  if fIsNaN x || fIsNaN y then freeNaN .mul x y
  else if fIsInf x || fIsInf y then
    (if fIsZero x || fIsZero y then freeNaN .mul x y else fInf negative)
  else fRound negative (fUnits x * fUnits y) unitsOfOne

/-- `fdiv`. The block divides by the constant 64.0 only (47 R176); the other cases are those of IEEE 754 (log
entry 11). -/
def fdiv (x y : F64) : F64 :=
  let negative := fSign x != fSign y
  if fIsNaN x || fIsNaN y then freeNaN .div x y
  else if fIsInf x then (if fIsInf y then freeNaN .div x y else fInf negative)
  else if fIsInf y then fZero negative
  else if fIsZero y then (if fIsZero x then freeNaN .div x y else fInf negative)
  else fRound negative (fUnits x * unitsOfOne) (fUnits y)

/-- `x <_f 0`: false for both zeros and for every NaN (00_scope.md R8, 42_qpsk_modem.md R84). -/
def fLtZero (x : F64) : Bool := fSign x && !fIsNaN x && !fIsZero x

/-! ### Numeric equality (00_scope.md R9) -/

/-- Equality as the spec's vectors use it: the two zeros are equal, and any NaN matches a NaN. -/
def fSame (x y : F64) : Bool := (fIsNaN x && fIsNaN y) || (fIsZero x && fIsZero y) || x == y

/-- Numeric equality of Samples, component by component (00_scope.md R9). -/
def sampleSame (a b : Sample) : Bool := fSame a.re b.re && fSame a.im b.im

/-- "The zero Sample" is (+0.0, +0.0) (00_scope.md R9). -/
def zeroSample : Sample := ⟨0, 0⟩

/-! ### Complex operations (41_transform.md R67) -/

/-- Complex sum: one rounding per component. -/
def cadd (p q : Sample) : Sample := ⟨fadd p.re q.re, fadd p.im q.im⟩

/-- Complex difference: one rounding per component. -/
def csub (p q : Sample) : Sample := ⟨fsub p.re q.re, fsub p.im q.im⟩

/-- Complex product, the four-multiplication form with six roundings. -/
def cmul (p q : Sample) : Sample :=
  ⟨fsub (fmul p.re q.re) (fmul p.im q.im), fadd (fmul p.re q.im) (fmul p.im q.re)⟩

/-- Conjugate: exact. -/
def conj (p : Sample) : Sample := ⟨p.re, fneg p.im⟩

/-- The binary64 value 64.0. -/
def sixtyFour : F64 := 0x4050000000000000

/-- Division of both components by 64.0. -/
def cdiv64 (p : Sample) : Sample := ⟨fdiv p.re sixtyFour, fdiv p.im sixtyFour⟩

end Sys2Proof.Machine
end

