-- ==== Sys2Proof/Machine/Operands.lean ====
section
/-! DEFINITION. The operand forms of the commands: symbols in a frame (30_encoding.md R45), slots in the full grid
(30_encoding.md R44, 43_grid_mapper.md R86), Samples as beats (20_memory.md R33). Immediates are used as they
stand (30_encoding.md R48). -/

namespace Sys2Proof.Machine

/-- The eight slot indices in order. -/
def allSlots : List Slot := [0, 1, 2, 3, 4, 5, 6, 7]

/-- The place of slot `k`'s symbol in a frame: its low bit is bit `14 - 2k` (30_encoding.md R45). -/
def symShift (k : Slot) : Nat := 14 - 2 * k.val

/-- `sym(v, k) = v[15-2k : 14-2k]` (30_encoding.md R45, 00_scope.md R8). -/
def sym (v : Frame) (k : Slot) : Symbol := v.extractLsb' (symShift k) 2

/-- The frame with slot `k`'s two bits replaced; the other 14 bits keep their values (42_qpsk_modem.md R81). -/
def setSym (v : Frame) (k : Slot) (y : Symbol) : Frame :=
  (v &&& ~~~(3#16 <<< symShift k)) ||| (y.setWidth 16 <<< symShift k)

/-- The frame of eight symbols, each put into its slot, from a frame of zeros (30_encoding.md R45, 42_qpsk_modem.md R82). -/
def packFrame (y : Slot → Symbol) : Frame := allSlots.foldl (fun v k => setSym v k (y k)) 0

/-- `GRID_OFFSET`, the full-grid bin of slot 0, at its default (43_grid_mapper.md R86, log entry 10). -/
def gridOffset : Nat := 0

/-- `pos(k) = GRID_OFFSET + SPACING * k` (43_grid_mapper.md R86). -/
def gridPos (k : Slot) : Nat := gridOffset + Config.spacing * k.val

/-- A Sample as two beats, the real component first (20_memory.md R33). -/
def sampleBeats (x : Sample) : List Beat := [x.re, x.im]

/-- A sequence of Samples as beats, in index order (20_memory.md R33). -/
def waveBeats (x : List Sample) : List Beat := x.flatMap sampleBeats

end Sys2Proof.Machine
end

