-- ==== Sys2Proof/Machine/State.lean ====
section
/-! DEFINITION. The whole architectural state of the block (10_state.md R10), its reset value (R27), and the
reasons for which a step of the model can stop. -/

namespace Sys2Proof.Machine

/-- The state of one block. -/
structure State where
  /-- `W[0..3]`: each the sequence of its Samples; `W[r].len` is the length of the list (10_state.md R11, R12). -/
  w : Vector (List Sample) 4
  /-- `G[0..3]`: each exactly eight Samples (10_state.md R13). -/
  g : Vector (Vector Sample 8) 4
  /-- `S[0..3]` (10_state.md R14). -/
  s : Vector Frame 4
  /-- `NVAR`, CSR 0 (10_state.md R20). -/
  nvar : BitVec 64
  /-- `ERR`, CSR 1 (10_state.md R21). -/
  err : BitVec 64
  /-- `ECMD`, CSR 2 (10_state.md R22). -/
  ecmd : BitVec 64
  /-- THE MODEL'S OWN: the position in the stream of free draws that stands for the hidden state of the noise
  source (10_state.md R10, R25; 44_noise_adder.md R94; log entry 1). No program can read it or write it. -/
  noisePos : Nat
  /-- Port `cmd`: the whole packets that the host has offered and the block has not executed, the oldest first
  (10_state.md R17, 20_memory.md R30, R31; log entry 4). -/
  cmd : List CmdPacket
  /-- Port `rsp`: the response packets that the block has sent and the host has not taken, the oldest first
  (20_memory.md R30, 30_encoding.md R55; log entry 4). -/
  rsp : List RspPacket
deriving DecidableEq, Repr

/-- Why the machine stops with a fault: never. "No fault stops the block" (60_exceptions.md R149); the three faults
of the block (R140) are effects, and the command that raises one answers a next state. So this type has no
constructor (log entry 13). Safe: nothing is cut off. -/
inductive Fault where
deriving DecidableEq, Repr

/-- Why a step has no meaning. -/
inductive Refusal where
  /-- Raised only by an arm of `exec` that has no meaning yet; no arm is such an arm now. Safe. -/
  | notModelled (mnemonic : String)
deriving DecidableEq, Repr

/-- The outcome of one command. -/
abbrev Result := Host.Outcome State Fault Refusal

/-- The state after reset (10_state.md R27, 70_reset_and_hazards.md R158): every waveform register empty, every slot
the zero Sample, every frame and CSR zero. The ports are empty (70_reset_and_hazards.md R160). `noisePos` is the
model's own: its 0 is a DESIGN CHOICE (log entry 1). -/
def State.reset : State where
  w := #v[[], [], [], []]
  g := Vector.replicate 4 (Vector.replicate 8 ⟨0, 0⟩)
  s := Vector.replicate 4 0
  nvar := 0
  err := 0
  ecmd := 0
  noisePos := 0
  cmd := []
  rsp := []

end Sys2Proof.Machine
end

