-- ==== Sys2Proof/Machine/Ops.lean ====
section
/-! DEFINITION. The named operations on the state: the register files, the control registers, the response port,
raising a fault, the length check, and what the host can do to the block. Every read and write of a register
goes through these. -/

namespace Sys2Proof.Machine

/-! ### The register files (10_state.md R11 to R16) -/

/-- `W[r]`. -/
def State.wave (st : State) (r : Reg) : List Sample := st.w[r]

/-- `W[r] <- x`: contents and length together (00_scope.md R8). -/
def State.setWave (st : State) (r : Reg) (x : List Sample) : State := { st with w := st.w.set r x }

/-- `G[r]`. -/
def State.grid (st : State) (r : Reg) : Vector Sample 8 := st.g[r]

/-- `G[r][0..7] <- x`. -/
def State.setGrid (st : State) (r : Reg) (x : Vector Sample 8) : State := { st with g := st.g.set r x }

/-- `G[r][k]`. -/
def State.slot (st : State) (r : Reg) (k : Slot) : Sample := (st.grid r)[k]

/-- `G[r][k] <- x`: the other seven slots are unchanged. -/
def State.setSlot (st : State) (r : Reg) (k : Slot) (x : Sample) : State := st.setGrid r ((st.grid r).set k x)

/-- `S[r]`. -/
def State.frame (st : State) (r : Reg) : Frame := st.s[r]

/-- `S[r] <- v`. -/
def State.setFrame (st : State) (r : Reg) (v : Frame) : State := { st with s := st.s.set r v }

/-! ### The control and status registers (10_state.md R19) -/

/-- `CSR[n]`: 0 is `NVAR`, 1 is `ERR`, 2 is `ECMD`; 3 to 15 are unassigned. -/
def State.csr (st : State) (n : Csr) : Option (BitVec 64) :=
  match n.toNat with
  | 0 => some st.nvar
  | 1 => some st.err
  | 2 => some st.ecmd
  | _ => none

/-- `NVAR <- v`: any pattern is stored (10_state.md R20). -/
def State.setNvar (st : State) (v : BitVec 64) : State := { st with nvar := v }

/-- The noise source after `n` draws (10_state.md R25; the model's own field, log entry 1). -/
def State.advanceNoise (st : State) (n : Nat) : State := { st with noisePos := st.noisePos + n }

/-! ### Responses (30_encoding.md R53, R54) -/

/-- The header beat: `cause` in bits 7:0, `count` in bits 15:8, zero above. -/
def rspHeader (cause : BitVec 8) (count : Nat) : Beat := (BitVec.ofNat 8 count ++ cause).setWidth 64

/-- The response packet of a cause and its data beats. -/
def response (cause : BitVec 8) (data : List Beat) : RspPacket := ⟨rspHeader cause data.length, data⟩

/-- Send one response packet, after every earlier one (30_encoding.md R55). -/
def State.send (st : State) (p : RspPacket) : State := { st with rsp := st.rsp ++ [p] }

/-- `respond(0, data)`: the command completes. -/
def State.complete (st : State) (data : List Beat) : State := st.send (response completed data)

/-! ### Faults (60_exceptions.md R146) -/

/-- `raise F`, the one fault entry of the block: the sticky bit of the cause is set in `ERR`, `ECMD` takes the
command word, the response carries the cause and no data, and nothing else changes. There is nothing to save and
nowhere to go: no saved pc, no mode, no vector (60_exceptions.md R146). There is no return from a fault and nothing
to restore: the block takes the next packet (60_exceptions.md R148). -/
def State.raise (st : State) (c : Cause) (word : CmdWord) : State :=
  { st with err := errWith st.err c, ecmd := word.setWidth 64 }.send (response (causeCode c) [])

/-- A command that consumes the Waveform `W[src]`: it raises `InvalidLength` unless the register holds exactly 64
Samples, before anything is written (60_exceptions.md R141), and goes on with them otherwise. -/
def withWaveform (st : State) (src : Reg) (word : CmdWord) (go : List Sample → Result) : Result :=
  if (st.wave src).length = Config.fftSize then go (st.wave src) else .next (st.raise .invalidLength word)

/-! ### The command port (20_memory.md R30, R36) -/

/-- The block takes the head packet: the rest stays in order. -/
def State.takePacket (st : State) (rest : List CmdPacket) : State := { st with cmd := rest }

/-- A packet that is no command raises `IllegalCommand`; its payload is discarded (30_encoding.md R51, R57). -/
def State.reject (st : State) (p : CmdPacket) : State := st.raise .illegalCommand p.word

/-! ### What the host does to the block (20_memory.md R30, 70_reset_and_hazards.md R158) -/

/-- The host puts one more packet on `cmd`. -/
def State.offer (st : State) (p : CmdPacket) : State := { st with cmd := st.cmd ++ [p] }

/-- The host takes the oldest response from `rsp`, if there is one. -/
def State.takeResponse (st : State) : Option RspPacket × State :=
  match st.rsp with
  | [] => (none, st)
  | p :: rest => (some p, { st with rsp := rest })

/-- The host asserts `rst`: the reset state, whatever the block was doing; packets not yet executed and responses
not yet taken are discarded (70_reset_and_hazards.md R158, R160). The model's own position in the stream of free draws
is no state of the block and goes on, so that a draw after reset is as free as any (10_state.md R27; log entry 15). -/
def State.assertReset (st : State) : State := { State.reset with noisePos := st.noisePos }

end Sys2Proof.Machine
end

