-- ==== Sys2Proof/Machine/DataMovement.lean ====
section
/-! DEFINITION. Data movement: `WCLR`, `WPUSH`, `WOUT`, `GWR`, `GRD`, `SLD`, `SRD` (45_data_movement.md). Samples move
bit for bit (R98). -/

namespace Sys2Proof.Machine

/-- `WCLR Wd` (45_data_movement.md R99). -/
def execWclr (d : Reg) (st : State) : Result := .next ((st.setWave d []).complete [])

/-- `WPUSH Wd <- x` (45_data_movement.md R100): a push onto a register that holds 64 Samples is refused. -/
def execWpush (d : Reg) (x : Sample) (st : State) : Result :=
  if (st.wave d).length = Config.wcap then .next (st.raise .invalidLength (encodeWord (.wpush d x)))
  else .next ((st.setWave d (st.wave d ++ [x])).complete [])

/-- `WOUT Ws` (45_data_movement.md R101): every Sample of the register, whatever its length. -/
def execWout (s : Reg) (st : State) : Result := .next (st.complete (waveBeats (st.wave s)))

/-- `GWR Gd, k <- x` (45_data_movement.md R102). -/
def execGwr (d : Reg) (k : Slot) (x : Sample) (st : State) : Result := .next ((st.setSlot d k x).complete [])

/-- `GRD Gs, k` (45_data_movement.md R103). -/
def execGrd (s : Reg) (k : Slot) (st : State) : Result := .next (st.complete (sampleBeats (st.slot s k)))

/-- `SLD Sd, imm16` (45_data_movement.md R104). -/
def execSld (d : Reg) (imm16 : Frame) (st : State) : Result := .next ((st.setFrame d imm16).complete [])

/-- `SRD Ss` (45_data_movement.md R105): the frame zero-extended to a beat. -/
def execSrd (s : Reg) (st : State) : Result := .next (st.complete [(st.frame s).setWidth 64])

end Sys2Proof.Machine
end

