-- ==== Sys2Proof/Machine/GridMapper.lean ====
section
/-! DEFINITION. The subcarrier grid mapper: `PROJ`, `EXTR` (43_grid_mapper.md). -/

namespace Sys2Proof.Machine

/-- `projectToGrid`: each slot's Sample at its position in 64 zero Samples, bit for bit (43_grid_mapper.md R87). -/
def projectToGrid (x : Vector Sample 8) : List Sample :=
  allSlots.foldl (fun y k => y.set (gridPos k) x[k]) (List.replicate Config.fftSize zeroSample)

/-- `extractFromGrid`: the eight spaced positions; the other positions are not read (43_grid_mapper.md R88). The
default is never taken on a Waveform: every position is below 64. -/
def extractFromGrid (x : List Sample) : Vector Sample 8 := Vector.ofFn fun k : Slot => x.getD (gridPos k) zeroSample

/-- `PROJ Wd, Gs` (43_grid_mapper.md R87). -/
def execProj (d s : Reg) (st : State) : Result :=
  .next ((st.setWave d (projectToGrid (st.grid s))).complete [])

/-- `EXTR Gd, Ws` (43_grid_mapper.md R88). -/
def execExtr (d s : Reg) (st : State) : Result :=
  withWaveform st s (encodeWord (.extr d s)) fun x => .next ((st.setGrid d (extractFromGrid x)).complete [])

end Sys2Proof.Machine
end

