-- ==== Sys2Proof/Machine/Modem.lean ====
section
/-! DEFINITION. The QPSK mapper and demapper: `MOD`, `MODV`, `DEM`, `DEMV` (42_qpsk_modem.md). -/

namespace Sys2Proof.Machine

/-- `QPSK_AMP`, the binary64 nearest to 1/√2, at its default (42_qpsk_modem.md R77, log entry 10). -/
def qpskAmp : F64 := 0x3FE6A09E667F3BCD

/-- `-QPSK_AMP` (42_qpsk_modem.md R77). -/
def qpskNegAmp : F64 := 0xBFE6A09E667F3BCD

/-- One axis of a constellation point: a bit of 1 means negative (42_qpsk_modem.md R77). -/
def qpskAxis (bit : Bool) : F64 := if bit then qpskNegAmp else qpskAmp

/-- `modulate(bit0, bit1)`: `bit0`, bit 1 of the symbol's number, decides the real axis, `bit1` the imaginary one
(42_qpsk_modem.md R77, 30_encoding.md R43). No arithmetic is done. -/
def modulate (v : Symbol) : Sample := ⟨qpskAxis (v.getLsbD 1), qpskAxis (v.getLsbD 0)⟩

/-- `demodulate(sample)`: a bit is 1 exactly when its axis is strictly negative (42_qpsk_modem.md R78, R84). -/
def demodulate (x : Sample) : Symbol := BitVec.ofBool (fLtZero x.re) ++ BitVec.ofBool (fLtZero x.im)

/-- `MOD Gd, k, sym` (42_qpsk_modem.md R79). -/
def execMod (d : Reg) (k : Slot) (v : Symbol) (st : State) : Result :=
  .next ((st.setSlot d k (modulate v)).complete [])

/-- `MODV Gd, Ss` (42_qpsk_modem.md R80): eight independent lanes. -/
def execModv (d s : Reg) (st : State) : Result :=
  .next ((st.setGrid d (Vector.ofFn fun k : Slot => modulate (sym (st.frame s) k))).complete [])

/-- `DEM Sd, Gs, k` (42_qpsk_modem.md R81): two bits of `S[d]`; the other 14 keep their values. -/
def execDem (d s : Reg) (k : Slot) (st : State) : Result :=
  .next ((st.setFrame d (setSym (st.frame d) k (demodulate (st.slot s k)))).complete [])

/-- `DEMV Sd, Gs` (42_qpsk_modem.md R82): all 16 bits of `S[d]`. -/
def execDemv (d s : Reg) (st : State) : Result :=
  .next ((st.setFrame d (packFrame fun k => demodulate (st.slot s k))).complete [])

end Sys2Proof.Machine
end

