-- ==== Sys2Proof/Machine/Noise.lean ====
section
/-! DEFINITION. The Gaussian noise adder: `NOISE` (44_noise_adder.md). -/

namespace Sys2Proof.Machine

/-- `NVAR` is usable when it is a zero of either sign or a positive finite number (44_noise_adder.md R92, 47 R178). -/
def nvarUsable (v : F64) : Bool := fIsZero v || (!fIsNaN v && !fIsInf v && !fSign v)

/-- `draw()` at one position of the noise source: exactly +0.0 when the variance is a zero, and otherwise a free
finite value (44_noise_adder.md R94, R95; log entry 1). -/
def draw (variance : F64) (position : Nat) : F64 :=
  if fIsZero variance then 0 else finiteBits (Config.noiseDraw variance position)

/-- `applyNoise`: one `fadd` of a draw of its own for each component, the real component before the imaginary one,
Sample 0 first (44_noise_adder.md R91, R93). -/
def applyNoise (variance : F64) : (position : Nat) → List Sample → List Sample
  | _, [] => []
  | position, x :: rest =>
    ⟨fadd x.re (draw variance position), fadd x.im (draw variance (position + 1))⟩
      :: applyNoise variance (position + 2) rest

/-- The draws one `NOISE` takes: two for each Sample (44_noise_adder.md R91). -/
def drawsPerNoise : Nat := 2 * Config.fftSize

/-- `NOISE Wd, Ws` (44_noise_adder.md R93): the length is checked first, then `NVAR`; a faulting `NOISE` takes no
draw. -/
def execNoise (d s : Reg) (st : State) : Result :=
  withWaveform st s (encodeWord (.noise d s)) fun x =>
    if nvarUsable st.nvar then
      .next (((st.setWave d (applyNoise st.nvar st.noisePos x)).advanceNoise drawsPerNoise).complete [])
    else .next (st.raise .invalidParameter (encodeWord (.noise d s)))

end Sys2Proof.Machine
end

