-- ==== Sys2Proof/Machine/System.lean ====
section
/-! DEFINITION. System commands: `CRD`, `CWR` (46_system.md). No command is privileged (R110). -/

namespace Sys2Proof.Machine

/-- `CRD csr` (46_system.md R107): a CSR number above 2 raises `IllegalCommand`. -/
def execCrd (csr : Csr) (st : State) : Result :=
  match st.csr csr with
  | some v => .next (st.complete [v])
  | none => .next (st.raise .illegalCommand (encodeWord (.crd csr)))

/-- `CWR csr <- value` (46_system.md R108): every CSR number but 0 raises `IllegalCommand`. -/
def execCwr (csr : Csr) (value : BitVec 64) (st : State) : Result :=
  if csr ≠ 0 then .next (st.raise .illegalCommand (encodeWord (.cwr csr value)))
  else .next ((st.setNvar value).complete [])

end Sys2Proof.Machine
end

