-- ==== Sys2Proof/Machine/Transform.lean ====
section
/-! DEFINITION. The Transform Engine (41_transform.md): twiddle ROM, butterfly, `fft_64`, `ifft_64`. -/

namespace Sys2Proof.Machine

/-! ### The twiddle ROM (41_transform.md R66) -/

/-- `T[0..15]`. -/
def twiddlesLow : List Sample := [
  ⟨0x3FF0000000000000, 0x0000000000000000⟩,
  ⟨0x3FEFD88DA3D12526, 0xBFB917A6BC29B42C⟩,
  ⟨0x3FEF6297CFF75CB0, 0xBFC8F8B83C69A60B⟩,
  ⟨0x3FEE9F4156C62DDA, 0xBFD294062ED59F06⟩,
  ⟨0x3FED906BCF328D46, 0xBFD87DE2A6AEA963⟩,
  ⟨0x3FEC38B2F180BDB1, 0xBFDE2B5D3806F63B⟩,
  ⟨0x3FEA9B66290EA1A3, 0xBFE1C73B39AE68C8⟩,
  ⟨0x3FE8BC806B151741, 0xBFE44CF325091DD6⟩,
  ⟨0x3FE6A09E667F3BCD, 0xBFE6A09E667F3BCD⟩,
  ⟨0x3FE44CF325091DD6, 0xBFE8BC806B151741⟩,
  ⟨0x3FE1C73B39AE68C8, 0xBFEA9B66290EA1A3⟩,
  ⟨0x3FDE2B5D3806F63B, 0xBFEC38B2F180BDB1⟩,
  ⟨0x3FD87DE2A6AEA963, 0xBFED906BCF328D46⟩,
  ⟨0x3FD294062ED59F06, 0xBFEE9F4156C62DDA⟩,
  ⟨0x3FC8F8B83C69A60B, 0xBFEF6297CFF75CB0⟩,
  ⟨0x3FB917A6BC29B42C, 0xBFEFD88DA3D12526⟩]

/-- `T[16..31]`. -/
def twiddlesHigh : List Sample := [
  ⟨0x0000000000000000, 0xBFF0000000000000⟩,
  ⟨0xBFB917A6BC29B42C, 0xBFEFD88DA3D12526⟩,
  ⟨0xBFC8F8B83C69A60B, 0xBFEF6297CFF75CB0⟩,
  ⟨0xBFD294062ED59F06, 0xBFEE9F4156C62DDA⟩,
  ⟨0xBFD87DE2A6AEA963, 0xBFED906BCF328D46⟩,
  ⟨0xBFDE2B5D3806F63B, 0xBFEC38B2F180BDB1⟩,
  ⟨0xBFE1C73B39AE68C8, 0xBFEA9B66290EA1A3⟩,
  ⟨0xBFE44CF325091DD6, 0xBFE8BC806B151741⟩,
  ⟨0xBFE6A09E667F3BCD, 0xBFE6A09E667F3BCD⟩,
  ⟨0xBFE8BC806B151741, 0xBFE44CF325091DD6⟩,
  ⟨0xBFEA9B66290EA1A3, 0xBFE1C73B39AE68C8⟩,
  ⟨0xBFEC38B2F180BDB1, 0xBFDE2B5D3806F63B⟩,
  ⟨0xBFED906BCF328D46, 0xBFD87DE2A6AEA963⟩,
  ⟨0xBFEE9F4156C62DDA, 0xBFD294062ED59F06⟩,
  ⟨0xBFEF6297CFF75CB0, 0xBFC8F8B83C69A60B⟩,
  ⟨0xBFEFD88DA3D12526, 0xBFB917A6BC29B42C⟩]

/-- The read-only table `T[0..31]` (41_transform.md R66; the parameter `TWIDDLE_ROM` at its default, log entry 10). -/
def twiddleRom : List Sample := twiddlesLow ++ twiddlesHigh

/-- `tw(n, k) = T[k * (64/n)]` for `n = 2 ^ level` and `0 <= k < n/2` (41_transform.md R66). -/
def tw (level k : Nat) : Sample := twiddleRom.getD (k * (Config.fftSize / 2 ^ level)) zeroSample

/-! ### The butterfly (41_transform.md R68) -/

/-- `butterfly(e, o, w)`: the product is always computed, whatever the twiddle. -/
def butterfly (e o w : Sample) : Sample × Sample :=
  let t := cmul w o
  (cadd e t, csub e t)

/-! ### The recursion (41_transform.md R69)

It is written over any butterfly, `bf level k e o` being the pair of outputs `k` and `k + n/2` of a step of size
`n = 2 ^ level`, so that the same recursion can be read over exact complex numbers (R64). -/

/-- The subsequence of even indices: `x[0], x[2], …`. -/
def evens {α : Type} : List α → List α
  | [] => []
  | [a] => [a]
  | a :: _ :: rest => a :: evens rest

/-- The subsequence of odd indices: `x[1], x[3], …`. -/
def odds {α : Type} : List α → List α
  | [] => []
  | [_] => []
  | _ :: b :: rest => b :: odds rest

/-- The butterflies of one step, from index `k` on: one for each pair of an even-half and an odd-half value. -/
def butterflies {α : Type} (bf : Nat → α → α → α × α) (k : Nat) : List α → List α → List (α × α)
  | e :: es, o :: os => bf k e o :: butterflies bf (k + 1) es os
  | _, _ => []

/-- One combining step: the first results are outputs `0 .. n/2 - 1`, the second results outputs `n/2 .. n - 1`. -/
def combine {α : Type} (bf : Nat → α → α → α × α) (e o : List α) : List α :=
  (butterflies bf 0 e o).map Prod.fst ++ (butterflies bf 0 e o).map Prod.snd

/-- `fft_n` for `n = 2 ^ level`: `fft_1` is the identity; a larger size splits, recurses and combines. -/
def fftWith {α : Type} (bf : Nat → Nat → α → α → α × α) : Nat → List α → List α
  | 0, x => x
  | level + 1, x => combine (bf (level + 1)) (fftWith bf level (evens x)) (fftWith bf level (odds x))

/-- The block's butterfly at output `k` of a step of size `2 ^ level`. -/
def stepButterfly (level k : Nat) (e o : Sample) : Sample × Sample := butterfly e o (tw level k)

/-- `fft_n` of the block for `n = 2 ^ level`, `level` in 0..6 (41_transform.md R69). -/
def fftN (level : Nat) (x : List Sample) : List Sample := fftWith stepButterfly level x

/-- `fft_64` (41_transform.md R69). -/
def fft64 (x : List Sample) : List Sample := fftN 6 x

/-- `ifft_64`: conjugate, transform, conjugate, divide every Sample by 64, in that order (41_transform.md R70). -/
def ifft64 (x : List Sample) : List Sample := ((fft64 (x.map conj)).map conj).map cdiv64

end Sys2Proof.Machine
end

