-- ==== Sys2Proof/Machine/TransformCmds.lean ====
section
/-! DEFINITION. The commands of the Transform Engine: `FFT`, `IFFT` (41_transform.md R71 to R74). -/

namespace Sys2Proof.Machine

/-- `FFT Wd, Ws` (41_transform.md R71). The source is read whole before the destination is written, so `d = s`
is allowed (R73). -/
def execFft (d s : Reg) (st : State) : Result :=
  withWaveform st s (encodeWord (.fft d s)) fun x => .next ((st.setWave d (fft64 x)).complete [])

/-- `IFFT Wd, Ws` (41_transform.md R72). -/
def execIfft (d s : Reg) (st : State) : Result :=
  withWaveform st s (encodeWord (.ifft d s)) fun x => .next ((st.setWave d (ifft64 x)).complete [])

end Sys2Proof.Machine
end

