-- ==== Sys2Proof/Machine/Dispatch.lean ====
section
/-! DEFINITION. One arm per command: its meaning (30_encoding.md R56). -/

namespace Sys2Proof.Machine

/-- The outcome of one command. -/
def exec (i : Instr) (s : State) : Host.Outcome State Fault Refusal :=
  match i with
  | .fft d src => Sys2Proof.Machine.execFft d src s
  | .ifft d src => Sys2Proof.Machine.execIfft d src s
  | .mod d k v => Sys2Proof.Machine.execMod d k v s
  | .modv d src => Sys2Proof.Machine.execModv d src s
  | .dem d src k => Sys2Proof.Machine.execDem d src k s
  | .demv d src => Sys2Proof.Machine.execDemv d src s
  | .proj d src => Sys2Proof.Machine.execProj d src s
  | .extr d src => Sys2Proof.Machine.execExtr d src s
  | .noise d src => Sys2Proof.Machine.execNoise d src s
  | .wclr d => Sys2Proof.Machine.execWclr d s
  | .wpush d x => Sys2Proof.Machine.execWpush d x s
  | .wout src => Sys2Proof.Machine.execWout src s
  | .gwr d k x => Sys2Proof.Machine.execGwr d k x s
  | .grd src k => Sys2Proof.Machine.execGrd src k s
  | .sld d imm16 => Sys2Proof.Machine.execSld d imm16 s
  | .srd src => Sys2Proof.Machine.execSrd src s
  | .crd csr => Sys2Proof.Machine.execCrd csr s
  | .cwr csr value => Sys2Proof.Machine.execCwr csr value s

end Sys2Proof.Machine
end

