-- ==== Sys2Proof/Machine/Step.lean ====
section
/-! DEFINITION. One step of the block: it takes the head packet of `cmd` and executes it to completion (20_memory.md
R36). -/

namespace Sys2Proof.Machine

/-- One step. A packet that decodes is executed; one that does not is `IllegalCommand` (30_encoding.md R57). With no
packet on `cmd` the block does nothing and keeps all its state (60_exceptions.md R157). -/
def step (s : State) : Host.Outcome State Fault Refusal :=
  match s.cmd with
  | [] => .next s
  | p :: rest =>
    match decodePacket p with
    | .command i => exec i (s.takePacket rest)
    | .illegal _ => .next ((s.takePacket rest).reject p)

/-- The state with the packet of an instruction's bits as the next packet of `cmd`: the host's act of offering it
(log entries 6, 7). -/
def State.withFetchWord (s : State) (nbits w : Nat) : State := { s with cmd := packetOfBits nbits w :: s.cmd }

end Sys2Proof.Machine
end

