-- ==== Sys2Proof/Machine/Assembler.lean ====
section
/-! DEFINITION. The assembler of 30_encoding.md R61 to R63: one line of text to the packets it stands for. It is a
tool of the host, no part of the block; a line is a list of characters. -/

namespace Sys2Proof.Machine

/-! ### Pseudo-instructions (30_encoding.md R62) -/

/-- `WLOAD Wd <- s0, …, s(n-1)`: one `WCLR`, then `n` `WPUSH`. -/
def wload (d : Reg) (x : List Sample) : List CmdPacket := encode (.wclr d) :: x.map fun v => encode (.wpush d v)

/-- `GZERO Gd`: eight `GWR` of the zero Sample. -/
def gzero (d : Reg) : List CmdPacket := allSlots.map fun k => encode (.gwr d k zeroSample)

/-! ### Characters -/

/-- The pieces of a text between the separators `c`; there is always at least one. -/
def splitAtChar (c : Char) : List Char → List (List Char)
  | [] => [[]]
  | a :: rest =>
    if a = c then [] :: splitAtChar c rest
    else match splitAtChar c rest with
      | [] => [[a]]
      | piece :: more => (a :: piece) :: more

/-- A text without its leading spaces. -/
def skipSpaces (t : List Char) : List Char := t.dropWhile fun a => a = ' '

/-- A text without its leading and trailing spaces. -/
def trimSpaces (t : List Char) : List Char := (skipSpaces (skipSpaces t).reverse).reverse

/-- The value of a digit, decimal or hexadecimal. -/
def digitOf (a : Char) : Option Nat :=
  let n := a.toNat
  if 48 ≤ n ∧ n ≤ 57 then some (n - 48)
  else if 65 ≤ n ∧ n ≤ 70 then some (n - 55)
  else if 97 ≤ n ∧ n ≤ 102 then some (n - 87)
  else none

/-- The value of digits in a base, after a value already read. -/
def natFrom (base : Nat) (acc : Nat) : List Char → Option Nat
  | [] => some acc
  | a :: rest =>
    match digitOf a with
    | some v => if v < base then natFrom base (acc * base + v) rest else none
    | none => none

/-- An unsigned number of at least one digit. -/
def parseNat (base : Nat) (t : List Char) : Option Nat := if t.isEmpty then none else natFrom base 0 t

/-- A number below `bound`. -/
def parseBelow (bound base : Nat) (t : List Char) : Option Nat :=
  (parseNat base t).bind fun v => if v < bound then some v else none

/-! ### Operands (30_encoding.md R61) -/

/-- A register of the file `W`, `G` or `S`. -/
def parseReg (file : Char) : List Char → Option Reg
  | a :: rest => if a = file ∧ rest.length = 1 then (parseBelow 4 10 rest).map (Fin.ofNat 4) else none
  | [] => none

/-- A slot index, decimal 0 to 7. -/
def parseSlot (t : List Char) : Option Slot := (parseBelow 8 10 t).map (Fin.ofNat 8)

/-- A symbol: decimal 0 to 3, or `0b` and two bits. -/
def parseSymbol : List Char → Option Symbol
  | ['0', 'b', a, b] => (parseBelow 4 2 [a, b]).map (BitVec.ofNat 2)
  | t => (parseBelow 4 10 t).map (BitVec.ofNat 2)

/-- A frame: `0x` and four hexadecimal digits. -/
def parseFrame : List Char → Option Frame
  | ['0', 'x', a, b, c, d] => (parseNat 16 [a, b, c, d]).map (BitVec.ofNat 16)
  | _ => none

/-- A CSR: its name or a decimal number. -/
def parseCsr : List Char → Option Csr
  | ['N', 'V', 'A', 'R'] => some 0
  | ['E', 'R', 'R'] => some 1
  | ['E', 'C', 'M', 'D'] => some 2
  | t => (parseBelow 16 10 t).map (BitVec.ofNat 4)

/-! ### Binary64 literals (30_encoding.md R63) -/

/-- A signed decimal exponent. -/
def parseExponent : List Char → Option Int
  | '-' :: t => (parseNat 10 t).map fun v => -(v : Int)
  | '+' :: t => (parseNat 10 t).map fun v => (v : Int)
  | t => (parseNat 10 t).map fun v => (v : Int)

/-- The binary64 nearest to `digits * base ^ exponent`. -/
def scaledF64 (negative : Bool) (digits base : Nat) (exponent : Int) : F64 :=
  if exponent < 0 then fRound negative (digits * unitsOfOne) (base ^ exponent.natAbs)
  else fRound negative (digits * base ^ exponent.natAbs * unitsOfOne) 1

/-- Digits with an optional point: their value without the point and the number of digits after it. -/
def parsePointed (base : Nat) (t : List Char) : Option (Nat × Nat) :=
  match splitAtChar '.' t with
  | [a] => (parseNat base a).map fun v => (v, 0)
  | [a, b] => (parseNat base (a ++ b)).map fun v => (v, b.length)
  | _ => none

/-- A magnitude: decimal with an optional `e` exponent, or `0x` hexadecimal with an optional `p` exponent of two. -/
def parseMagnitude (negative : Bool) : List Char → Option F64
  | '0' :: 'x' :: t =>
    match splitAtChar 'p' t with
    | [m] => (parsePointed 16 m).map fun v => scaledF64 negative v.1 2 (-(4 * v.2 : Nat))
    | [m, e] => (parsePointed 16 m).bind fun v => (parseExponent e).map fun x => scaledF64 negative v.1 2 (x - (4 * v.2 : Nat))
    | _ => none
  | t =>
    match splitAtChar 'e' t with
    | [m] => (parsePointed 10 m).map fun v => scaledF64 negative v.1 10 (-(v.2 : Nat))
    | [m, e] => (parsePointed 10 m).bind fun v => (parseExponent e).map fun x => scaledF64 negative v.1 10 (x - (v.2 : Nat))
    | _ => none

/-- A binary64 literal: `bits:0x` and sixteen digits, or a magnitude with an optional minus sign. -/
def parseF64 : List Char → Option F64
  | 'b' :: 'i' :: 't' :: 's' :: ':' :: '0' :: 'x' :: t =>
    if t.length = 16 then (parseNat 16 t).map (BitVec.ofNat 64) else none
  | '-' :: t => parseMagnitude true t
  | t => parseMagnitude false t

/-- A Sample `(re, im)`, with the text before its closing parenthesis. -/
def parseSample (t : List Char) : Option Sample :=
  match skipSpaces t with
  | '(' :: rest =>
    match splitAtChar ',' rest with
    | [a, b] => (parseF64 (trimSpaces a)).bind fun x => (parseF64 (trimSpaces b)).map fun y => ⟨x, y⟩
    | _ => none
  | _ => none

/-- The pieces of a list of Samples, cut at the closing parentheses: the last is empty, and each but the first begins
with a comma. DESIGN CHOICE (log entry 20): a list of no Sample is accepted. -/
def parseSamplePieces (first : Bool) : List (List Char) → Option (List Sample)
  | [] => none
  | [last] => if (skipSpaces last).isEmpty then some [] else none
  | piece :: rest =>
    let body := match first, skipSpaces piece with
      | true, t => some t
      | false, ',' :: t => some t
      | false, _ => none
    body.bind fun t => (parseSample t).bind fun x => (parseSamplePieces false rest).map fun more => x :: more

/-- Samples separated by commas. A list of none is accepted too: 30_encoding.md R62 does not say whether `WLOAD` may have no
Sample, and the line then stands for its `WCLR` alone (DESIGN CHOICE, log entry 20). -/
def parseSamples (t : List Char) : Option (List Sample) := parseSamplePieces true (splitAtChar ')' t)

/-- Exactly one Sample. -/
def parseOneSample (t : List Char) : Option Sample :=
  match parseSamples t with
  | some [x] => some x
  | _ => none

/-! ### Lines -/

/-- A line without its comment, cut at `<-` into the command and its payload. -/
def cutLine : List Char → List Char × Option (List Char)
  | [] => ([], none)
  | ';' :: _ => ([], none)
  | '<' :: '-' :: rest => ([], some (rest.takeWhile fun a => a ≠ ';'))
  | a :: rest => ((a :: (cutLine rest).1), (cutLine rest).2)

/-- Operands `file register, file register`. -/
def twoRegs (f g : Char) (k : Reg → Reg → Instr) : List (List Char) → Option (List CmdPacket)
  | [a, b] => (parseReg f a).bind fun d => (parseReg g b).map fun s => [encode (k d s)]
  | _ => none

/-- One register operand. -/
def oneReg (f : Char) (k : Reg → List CmdPacket) : List (List Char) → Option (List CmdPacket)
  | [a] => (parseReg f a).map k
  | _ => none

/-- Operands `register, slot`. -/
def regSlot (f : Char) (k : Reg → Slot → Instr) : List (List Char) → Option (List CmdPacket)
  | [a, b] => (parseReg f a).bind fun r => (parseSlot b).map fun i => [encode (k r i)]
  | _ => none

/-- Operands of `MOD`. -/
def modOperands : List (List Char) → Option (List CmdPacket)
  | [a, b, c] => (parseReg 'G' a).bind fun d => (parseSlot b).bind fun k => (parseSymbol c).map fun v => [encode (.mod d k v)]
  | _ => none

/-- Operands of `DEM`. -/
def demOperands : List (List Char) → Option (List CmdPacket)
  | [a, b, c] => (parseReg 'S' a).bind fun d => (parseReg 'G' b).bind fun s => (parseSlot c).map fun k => [encode (.dem d s k)]
  | _ => none

/-- Operands of `SLD`. -/
def sldOperands : List (List Char) → Option (List CmdPacket)
  | [a, b] => (parseReg 'S' a).bind fun d => (parseFrame b).map fun v => [encode (.sld d v)]
  | _ => none

/-- Operand of `CRD` and `CWR`. -/
def csrOperand (k : Csr → Instr) : List (List Char) → Option (List CmdPacket)
  | [a] => (parseCsr a).map fun n => [encode (k n)]
  | _ => none

/-- One command without a payload, from its mnemonic and its operands. -/
def parsePlain (mnemonic : String) (ops : List (List Char)) : Option (List CmdPacket) :=
  if mnemonic = "FFT" then twoRegs 'W' 'W' .fft ops
  else if mnemonic = "IFFT" then twoRegs 'W' 'W' .ifft ops
  else if mnemonic = "MOD" then modOperands ops
  else if mnemonic = "MODV" then twoRegs 'G' 'S' .modv ops
  else if mnemonic = "DEM" then demOperands ops
  else if mnemonic = "DEMV" then twoRegs 'S' 'G' .demv ops
  else if mnemonic = "PROJ" then twoRegs 'W' 'G' .proj ops
  else if mnemonic = "EXTR" then twoRegs 'G' 'W' .extr ops
  else if mnemonic = "NOISE" then twoRegs 'W' 'W' .noise ops
  else if mnemonic = "WCLR" then oneReg 'W' (fun d => [encode (.wclr d)]) ops
  else if mnemonic = "WOUT" then oneReg 'W' (fun s => [encode (.wout s)]) ops
  else if mnemonic = "GRD" then regSlot 'G' .grd ops
  else if mnemonic = "SLD" then sldOperands ops
  else if mnemonic = "SRD" then oneReg 'S' (fun s => [encode (.srd s)]) ops
  else if mnemonic = "CRD" then csrOperand .crd ops
  else if mnemonic = "GZERO" then oneReg 'G' gzero ops
  else none

/-- One command with a payload, from its mnemonic, its operands and the text after `<-`. -/
def parseLoaded (mnemonic : String) (ops : List (List Char)) (payload : List Char) : Option (List CmdPacket) :=
  if mnemonic = "WPUSH" then (parseOneSample payload).bind fun x => oneReg 'W' (fun d => [encode (.wpush d x)]) ops
  else if mnemonic = "WLOAD" then (parseSamples payload).bind fun x => oneReg 'W' (fun d => wload d x) ops
  else if mnemonic = "GWR" then (parseOneSample payload).bind fun x => regSlot 'G' (fun d k => .gwr d k x) ops
  else if mnemonic = "CWR" then (parseF64 (trimSpaces payload)).bind fun v => csrOperand (fun n => .cwr n v) ops
  else none

/-- The packets of one line, none where the line is not assembly; a blank or comment line is no packet. -/
def assembleLine (t : List Char) : Option (List CmdPacket) :=
  let (command, payload) := cutLine t
  match trimSpaces command with
  | [] => if payload.isNone then some [] else none
  | body =>
    let mnemonic := body.takeWhile fun a => a ≠ ' '
    let operands := body.dropWhile fun a => a ≠ ' '
    let ops := (splitAtChar ',' operands).map trimSpaces
    match payload with
    | none => parsePlain (String.ofList mnemonic) ops
    | some text => parseLoaded (String.ofList mnemonic) ops text

end Sys2Proof.Machine
end

