-- ==== Sys2Proof/Machine/Station.lean ====
section
/-! DEFINITION. The station software that drives the block (48_host_context.md). It is outside the hardware
(00_scope.md R4): nothing here is state of the block (70_reset_and_hazards.md R163), and no command depends on it
(48_host_context.md R111). It is the agent on the other side of the ports. -/

namespace Sys2Proof.Machine

/-! ### Allocations (48_host_context.md R115 to R123) -/

/-- A user identifier: 2 bits in a frame (48_host_context.md R135). -/
abbrev UserId := Fin 4

/-- A lease of `count` slots from `start` on (48_host_context.md R115). -/
structure Allocation where
  start : Nat
  count : Nat
deriving DecidableEq, Repr

/-- The station's allocation table: the bitmap of used slots, of which slot 0 is never allocated, and the mapping from
user to allocation (48_host_context.md R115, R117). -/
structure Station where
  used : Vector Bool 8
  table : Vector (Option Allocation) 4
deriving DecidableEq, Repr

/-- The all-free state (48_host_context.md R117, 70_reset_and_hazards.md R163). -/
def Station.allFree : Station := ⟨Vector.replicate 8 false, Vector.replicate 4 none⟩

/-- The slots `a .. a+c-1` are all free. -/
def Station.runFree (st : Station) (a c : Nat) : Bool := (List.range c).all fun j => st.used[a + j]? == some false

/-- The lowest start in `1 .. 8-c` of `c` free slots (48_host_context.md R119). -/
def Station.firstRun (st : Station) (c : Nat) : Option Nat := (List.range' 1 (8 - c)).find? fun a => st.runFree a c

/-- The first run found with decreasing length (48_host_context.md R119, R120); none is the sentinel (R121). -/
def Station.search (st : Station) : (c : Nat) → Option Allocation
  | 0 => none
  | c + 1 =>
    match st.firstRun (c + 1) with
    | some a => some ⟨a, c + 1⟩
    | none => st.search c

/-- The slots of a run are marked used or free. -/
def Station.mark (st : Station) (a : Allocation) (b : Bool) : Vector Bool 8 :=
  Vector.ofFn fun i : Fin 8 => if a.start ≤ i.val ∧ i.val < a.start + a.count then b else st.used[i]

/-- The requested count clamped into 1..3 (48_host_context.md R118). -/
def clampCount (requested : Nat) : Nat := max 1 (min requested 3)

/-- `allocate(userId, requestedCount)`: a new run overwrites the user's entry, and the old run's slots stay marked used
(48_host_context.md R118 to R122). -/
def Station.allocate (st : Station) (u : UserId) (requested : Nat) : Option Allocation × Station :=
  match st.search (clampCount requested) with
  | some a => (some a, ⟨st.mark a true, st.table.set u (some a)⟩)
  | none => (none, st)

/-- `deallocate(userId)`: frees exactly the user's run; no effect if there is none (48_host_context.md R123). -/
def Station.deallocate (st : Station) (u : UserId) : Station :=
  match st.table[u] with
  | some a => ⟨st.mark a false, st.table.set u none⟩
  | none => st

/-! ### Payloads (48_host_context.md R116, R139) -/

/-- The payload in the slots of an allocation, the most significant symbol first (48_host_context.md R126). -/
def readPayload (f : Frame) (a : Allocation) : Nat :=
  (List.range a.count).foldl (fun p j => 4 * p + (sym f (Fin.ofNat 8 (a.start + j))).toNat) 0

/-- The symbol of slot `k` when the payload `q` is written into the slots of an allocation; the zero symbol outside
them (48_host_context.md R113, R126). -/
def payloadSymbol (q : Nat) (a : Allocation) (k : Slot) : Symbol :=
  if a.start ≤ k.val ∧ k.val < a.start + a.count then BitVec.ofNat 2 (q / 4 ^ (a.start + a.count - 1 - k.val)) else 0

/-! ### The dispatcher (48_host_context.md R124 to R128) -/

/-- The Response to an AccessRequest (48_host_context.md R125); the sentinel's start field is 0xF (R121). -/
def responseFrame (user : Symbol) (granted : Option Allocation) : Frame :=
  let count := match granted with
    | some a => a.count
    | none => 0
  let start := match granted with
    | some a => a.start % 16
    | none => 15
  packFrame fun k => match k.val with
    | 0 => 2
    | 1 => user
    | 2 => BitVec.ofNat 2 count
    | 3 => BitVec.ofNat 2 (start / 4)
    | 4 => BitVec.ofNat 2 start
    | _ => 0

/-- `fout`, the bit-field formula of 48_host_context.md R139, for any run: code, identifiers and payload, shifted to their places
and joined by or. -/
def fieldFrame (dest sender : Symbol) (q : Nat) (a : Allocation) : Frame :=
  (1 <<< 14) ||| (dest.setWidth 16 <<< 12) ||| (sender.setWidth 16 <<< 10) |||
    (BitVec.ofNat 16 q <<< (16 - 2 * (a.start + a.count)))

/-- The forwarded DataTx frame (48_host_context.md R126): slot 1 is the destination and slot 2 the sender, and where the receiver's
run includes those slots the identifiers overwrite the payload there (70_reset_and_hazards.md R170 (c)). It is `fieldFrame` for
every run from slot 3 on; for the other runs the two rules differ in slots 1 and 2, and R126 stands (90_conflicts.md C4; log entry
16). -/
def dataFrame (dest sender : Symbol) (q : Nat) (a : Allocation) : Frame :=
  packFrame fun k => match k.val with
    | 0 => 1
    | 1 => dest
    | 2 => sender
    | _ => payloadSymbol q a k

/-- The acknowledgement of a Deallocate (48_host_context.md R127). -/
def ackFrame (user : Symbol) : Frame := packFrame fun k => match k.val with
  | 0 => 2
  | 1 => user
  | _ => 0

/-- A user identifier from a frame's field. -/
def userOf (v : Symbol) : UserId := Fin.ofNat 4 v.toNat

/-- What the station does with one inbound frame: the frame it sends, if any, and the table afterwards. Code 2, Response,
is the unrecognised code (48_host_context.md R125 to R128). -/
def Station.dispatch (st : Station) (f : Frame) : Option Frame × Station :=
  match (sym f 0).toNat with
  | 0 =>
    let (granted, after) := st.allocate (userOf (sym f 1)) (sym f 2).toNat
    (some (responseFrame (sym f 1) granted), after)
  | 1 =>
    match st.table[userOf (sym f 2)], st.table[userOf (sym f 1)] with
    | some sender, some receiver =>
      (some (dataFrame (sym f 1) (sym f 2) (readPayload f sender % 4 ^ receiver.count) receiver), st)
    | _, _ => (none, st)
  | 3 => (some (ackFrame (sym f 1)), st.deallocate (userOf (sym f 1)))
  | _ => (none, st)

/-! ### How the host uses the block (48_host_context.md R130 to R132) -/

/-- The receive path: load, transform, extract, decide, read the frame; no noise (48_host_context.md R130). -/
def receivePath (wa wb : Reg) (gc : Reg) (sd : Reg) (x : List Sample) : List CmdPacket :=
  wload wa x ++ [encode (.fft wb wa), encode (.extr gc wb), encode (.demv sd gc), encode (.srd sd)]

/-- The transmit path, with exactly one `NOISE` (48_host_context.md R131). -/
def transmitPath (sa : Reg) (gb : Reg) (wc wd we : Reg) (f : Frame) : List CmdPacket :=
  [encode (.sld sa f), encode (.modv gb sa), encode (.proj wc gb), encode (.ifft wd wc), encode (.noise we wd), encode (.wout we)]

/-- The host sends each packet and takes its response before it sends the next (70_reset_and_hazards.md R169): the
responses in order and the block afterwards. DESIGN CHOICE (log entry 23): it sends every packet of the path even after one has
faulted, so that the later ones still change registers, `ERR` and `ECMD`; what the host does about a fault is left to it
(60_exceptions.md R148). DESIGN CHOICE (log entry 26): it takes both ports to be empty at its start, as after reset, and does not drain
them; from other states the one step may run an earlier packet, and the response taken may be an earlier one. -/
def drive : List CmdPacket → State → List RspPacket × State
  | [], b => ([], b)
  | p :: rest, b =>
    match step (b.offer p) with
    | .next b' =>
      let (r, b'') := b'.takeResponse
      let (more, done) := drive rest b''
      (r.toList ++ more, done)
    | .fault _ => ([], b)
    | .refused _ => ([], b)

/-- The Samples that data beats carry (20_memory.md R33). -/
def beatsToSamples : List Beat → List Sample
  | re :: im :: rest => ⟨re, im⟩ :: beatsToSamples rest
  | _ => []

/-- The data of the last response when every response has cause 0; a host that sees a fault drops the frame
(48_host_context.md R130, 60_exceptions.md R148), which it does once the path has been sent (log entry 23). -/
def finalData (rs : List RspPacket) : Option (List Beat) :=
  if rs.all fun r => r.header.extractLsb' 0 8 == completed then rs.getLast?.map RspPacket.data else none

/-- What one tick of the station leaves: the table, the block, the Waveform it writes, and whether it clears the inbound
buffer, which every tick does, whatever its branch (48_host_context.md R129, 70_reset_and_hazards.md R169). -/
structure TickResult where
  station : Station
  block : State
  outbound : Option (List Sample)
  cleared : Bool
deriving DecidableEq, Repr

/-- One tick of the station (48_host_context.md R132): at most one receive path and at most one transmit path. It always ends by
clearing the inbound buffer (R129); with no inbound Waveform it does nothing else (log entry 24). The ports of the block are taken
to be empty when it begins (log entry 26). -/
def Station.tick (st : Station) (b : State) (inbound : Option (List Sample)) : TickResult :=
  match inbound with
  | none => ⟨st, b, none, true⟩
  | some x =>
    let (rs, b1) := drive (receivePath 0 1 0 0 x) b
    match finalData rs with
    | some (v :: _) =>
      match st.dispatch (v.setWidth 16) with
      | (some reply, st') =>
        let (ts, b2) := drive (transmitPath 1 1 2 3 3 reply) b1
        ⟨st', b2, (finalData ts).map beatsToSamples, true⟩
      | (none, st') => ⟨st', b1, none, true⟩
    | _ => ⟨st, b1, none, true⟩

end Sys2Proof.Machine
end

