-- ==== Sys2Proof/Safety.lean ====
section
/-! DEFINITION. The terms in which claims about the block are stated: what a run may do, the invariant of the state, what
a command leaves unchanged, what it reads and writes, and the spec's test tolerance. -/

namespace Sys2Proof.Machine

/-! ### Responses (30_encoding.md R53) -/

/-- The `cause` field of a response: bits 7:0 of its header. -/
def rspCause (p : RspPacket) : BitVec 8 := p.header.extractLsb' 0 8

/-- The `count` field of a response: bits 15:8 of its header. -/
def rspCount (p : RspPacket) : BitVec 8 := p.header.extractLsb' 8 8

/-- A response as 30_encoding.md R53 describes it: bits 63:16 of the header are 0, the cause is 0 to 3, `count` is the
number of data beats, at most 128, and a response with a cause carries none. -/
abbrev rspWellFormed (p : RspPacket) : Prop :=
  p.header.extractLsb' 16 48 = 0 ∧ (rspCause p).toNat ≤ 3 ∧ (rspCount p).toNat = p.data.length ∧ p.data.length ≤ 128 ∧
    (rspCause p ≠ 0 → p.data = [])

/-! ### The invariant of the state -/

/-- What holds of the state after reset and after every step: no waveform register holds more than 64 Samples
(10_state.md R11), the reserved bits of `ERR` and of `ECMD` are 0 (10_state.md R21, R22), and every response on `rsp` is
well formed (30_encoding.md R53). -/
abbrev State.Inv (s : State) : Prop :=
  (∀ r : Reg, (s.wave r).length ≤ Config.wcap) ∧ s.err.extractLsb' 3 61 = 0 ∧ s.ecmd.extractLsb' 32 32 = 0 ∧
    ∀ p ∈ s.rsp, rspWellFormed p

/-- A step that goes on: it answers a next state (60_exceptions.md R149). -/
def GoesOn (s : State) : Prop := ∃ t, step s = .next t

/-- The packet whose command beat is the number `beat` and whose payload is `payload` decodes to the command `i`. -/
def DecodesAs (beat : Nat) (payload : List Beat) (i : Instr) : Prop :=
  ∀ p : CmdPacket, p.head.toNat = beat → p.payload = payload → decodePacket p = .command i

/-- The packet whose command beat is the number `beat` and whose payload is `payload` decodes to the command `i`, and no other
packet does: every field that the command does not use must be zero (30_encoding.md R49). -/
def EncodedAs (beat : Nat) (payload : List Beat) (i : Instr) : Prop :=
  ∀ p : CmdPacket, decodePacket p = .command i ↔ p.head.toNat = beat ∧ p.payload = payload

/-! ### What a command leaves unchanged -/

/-- The three register files of `t` are those of `s`, but for the registers listed. -/
structure FilesKept (s t : State) (waves grids frames : List Reg) : Prop where
  waves : ∀ r, r ∉ waves → t.wave r = s.wave r
  grids : ∀ r, r ∉ grids → t.grid r = s.grid r
  frames : ∀ r, r ∉ frames → t.frame r = s.frame r

/-- `NVAR`, the noise source and the packets still waiting on `cmd` are unchanged. -/
structure RestKept (s t : State) : Prop where
  nvar : t.nvar = s.nvar
  noise : t.noisePos = s.noisePos
  cmd : t.cmd = s.cmd

/-- Exactly one response was sent, after every earlier one: header bits 7:0 the cause, bits 15:8 the number of data
beats, the rest 0 (30_encoding.md R53). -/
def Answered (s t : State) (cause : Nat) (data : List Beat) : Prop :=
  ∃ p : RspPacket, t.rsp = s.rsp ++ [p] ∧ p.header.toNat = cause + 256 * data.length ∧ p.data = data

/-- The command completed: cause 0, and `ERR` and `ECMD` as they were. -/
structure Completed (s t : State) (data : List Beat) : Prop where
  err : t.err = s.err
  ecmd : t.ecmd = s.ecmd
  answer : Answered s t 0 data

/-- The command raised the fault of cause code `c` (60_exceptions.md R146): bit `c - 1` of `ERR` is set, `ECMD` holds the
command word, the response carries the cause and no data, and nothing else changed. -/
structure Raised (s t : State) (c : Nat) (word : CmdWord) : Prop where
  files : FilesKept s t [] [] []
  rest : RestKept s t
  err : ∀ i, t.err.getLsbD i = (s.err.getLsbD i || decide (i = c - 1))
  ecmd : t.ecmd.toNat = word.toNat
  answer : Answered s t c []

/-- The step takes the packet at the head of `cmd` and raises the fault of cause code `c` (60_exceptions.md R146). -/
def StepRaises (s : State) (p : CmdPacket) (rest : List CmdPacket) (c : Nat) : Prop :=
  ∃ t, step s = .next t ∧ Raised (s.takePacket rest) t c p.word

/-! ### What a command reads and writes (10_state.md R15) -/

/-- The waveform registers a command writes. -/
def writesWave : Instr → List Reg
  | .fft d _ | .ifft d _ | .proj d _ | .noise d _ | .wclr d | .wpush d _ => [d]
  | .mod _ _ _ | .modv _ _ | .dem _ _ _ | .demv _ _ | .extr _ _ | .wout _ | .gwr _ _ _ | .grd _ _ | .sld _ _ | .srd _
  | .crd _ | .cwr _ _ => []

/-- The slots of active-grid registers a command writes. -/
def writesSlot : Instr → List (Reg × Slot)
  | .mod d k _ | .gwr d k _ => [(d, k)]
  | .modv d _ | .extr d _ => allSlots.map fun k => (d, k)
  | .fft _ _ | .ifft _ _ | .dem _ _ _ | .demv _ _ | .proj _ _ | .noise _ _ | .wclr _ | .wpush _ _ | .wout _ | .grd _ _
  | .sld _ _ | .srd _ | .crd _ | .cwr _ _ => []

/-- The symbol registers a command writes. -/
def writesFrame : Instr → List Reg
  | .dem d _ _ | .demv d _ | .sld d _ => [d]
  | .fft _ _ | .ifft _ _ | .mod _ _ _ | .modv _ _ | .proj _ _ | .extr _ _ | .noise _ _ | .wclr _ | .wpush _ _ | .wout _
  | .gwr _ _ _ | .grd _ _ | .srd _ | .crd _ | .cwr _ _ => []

/-- Whether a command may write `NVAR`. -/
def writesNvar : Instr → Bool
  | .cwr _ _ => true
  | .fft _ _ | .ifft _ _ | .mod _ _ _ | .modv _ _ | .dem _ _ _ | .demv _ _ | .proj _ _ | .extr _ _ | .noise _ _ | .wclr _
  | .wpush _ _ | .wout _ | .gwr _ _ _ | .grd _ _ | .sld _ _ | .srd _ | .crd _ => false

/-- Whether a command reads and advances the noise source. -/
def usesNoise : Instr → Bool
  | .noise _ _ => true
  | .fft _ _ | .ifft _ _ | .mod _ _ _ | .modv _ _ | .dem _ _ _ | .demv _ _ | .proj _ _ | .extr _ _ | .wclr _ | .wpush _ _
  | .wout _ | .gwr _ _ _ | .grd _ _ | .sld _ _ | .srd _ | .crd _ | .cwr _ _ => false

/-- The waveform registers a command reads. -/
def readsWave : Instr → List Reg
  | .fft _ s | .ifft _ s | .extr _ s | .noise _ s | .wout s => [s]
  | .wpush d _ => [d]
  | .mod _ _ _ | .modv _ _ | .dem _ _ _ | .demv _ _ | .proj _ _ | .wclr _ | .gwr _ _ _ | .grd _ _ | .sld _ _ | .srd _
  | .crd _ | .cwr _ _ => []

/-- The slots of active-grid registers a command reads. -/
def readsSlot : Instr → List (Reg × Slot)
  | .dem _ s k | .grd s k => [(s, k)]
  | .demv _ s | .proj _ s => allSlots.map fun k => (s, k)
  | .fft _ _ | .ifft _ _ | .mod _ _ _ | .modv _ _ | .extr _ _ | .noise _ _ | .wclr _ | .wpush _ _ | .wout _ | .gwr _ _ _
  | .sld _ _ | .srd _ | .crd _ | .cwr _ _ => []

/-- The symbol registers a command reads. -/
def readsFrame : Instr → List Reg
  | .modv _ s | .srd s => [s]
  | .dem d _ _ => [d]
  | .fft _ _ | .ifft _ _ | .mod _ _ _ | .demv _ _ | .proj _ _ | .extr _ _ | .noise _ _ | .wclr _ | .wpush _ _ | .wout _
  | .gwr _ _ _ | .grd _ _ | .sld _ _ | .crd _ | .cwr _ _ => []

/-- The control and status registers a command reads. -/
def readsCsr : Instr → List Csr
  | .noise _ _ => [0]
  | .crd n => [n]
  | .fft _ _ | .ifft _ _ | .mod _ _ _ | .modv _ _ | .dem _ _ _ | .demv _ _ | .proj _ _ | .extr _ _ | .wclr _ | .wpush _ _
  | .wout _ | .gwr _ _ _ | .grd _ _ | .sld _ _ | .srd _ | .cwr _ _ => []

/-- Two states agree on what a command writes. -/
structure AgreeOnWrites (i : Instr) (s t : State) : Prop where
  waves : ∀ r ∈ writesWave i, s.wave r = t.wave r
  slots : ∀ q ∈ writesSlot i, s.slot q.1 q.2 = t.slot q.1 q.2
  frames : ∀ r ∈ writesFrame i, s.frame r = t.frame r
  nvar : writesNvar i = true → s.nvar = t.nvar
  noise : usesNoise i = true → s.noisePos = t.noisePos

/-- Two states agree on everything a command does not write: the register files, `NVAR`, the noise source and the packets
still waiting. `ERR` and `ECMD` are left out: a fault writes them. -/
structure AgreeElsewhere (i : Instr) (s t : State) : Prop where
  waves : ∀ r, r ∉ writesWave i → s.wave r = t.wave r
  slots : ∀ r k, (r, k) ∉ writesSlot i → s.slot r k = t.slot r k
  frames : ∀ r, r ∉ writesFrame i → s.frame r = t.frame r
  nvar : writesNvar i = false → s.nvar = t.nvar
  noise : usesNoise i = false → s.noisePos = t.noisePos
  cmd : s.cmd = t.cmd

/-- Two states agree on everything a command reads. -/
structure AgreeOnReads (i : Instr) (s t : State) : Prop where
  waves : ∀ r ∈ readsWave i, s.wave r = t.wave r
  slots : ∀ q ∈ readsSlot i, s.slot q.1 q.2 = t.slot q.1 q.2
  frames : ∀ r ∈ readsFrame i, s.frame r = t.frame r
  csrs : ∀ n ∈ readsCsr i, s.csr n = t.csr n
  noise : usesNoise i = true → s.noisePos = t.noisePos

/-! ### Classes of Samples -/

/-- Both components are finite. -/
def finiteSample (x : Sample) : Bool := fIsFinite x.re && fIsFinite x.im

/-- At least one component is a NaN. -/
def hasNaN (x : Sample) : Bool := fIsNaN x.re || fIsNaN x.im

/-- The host's table is sound: every live allocation has 1 to 3 slots within 1..7, all marked used, and the runs of two users
share no slot (48_host_context.md R115). -/
structure Sound (st : Station) : Prop where
  range : ∀ u a, st.table[(u : UserId)] = some a → 1 ≤ a.count ∧ a.count ≤ 3 ∧ 1 ≤ a.start ∧ a.start + a.count ≤ 8
  used : ∀ u a, st.table[(u : UserId)] = some a → ∀ i : Fin 8, a.start ≤ i.val → i.val < a.start + a.count → st.used[i] = true
  apart : ∀ u v a b, u ≠ v → st.table[(u : UserId)] = some a → st.table[(v : UserId)] = some b →
    a.start + a.count ≤ b.start ∨ b.start + b.count ≤ a.start

/-! ### The spec's test tolerance (41_transform.md R75) -/

/-- `|got - expected| <= 1e-12 * max(1, M)` for finite values, `M` the magnitude of `largest` (00_scope.md R6 `TOL`). A test
tolerance, no proven bound. -/
def withinTol (largest got expected : F64) : Bool :=
  decide ((fInt got - fInt expected).natAbs * 10 ^ 12 ≤ max unitsOfOne (fUnits largest))

end Sys2Proof.Machine
end

