-- ==== Sys2Proof/Certificates/Slice0/Obligations.lean ====
section
/-! DEFINITION. The statements about the model. Each docstring names the rule of spec/ it formalises. `Completed`, `Raised`,
`FilesKept`, `RestKept` and the read and write tables are in Safety.lean. -/

open Sys2Proof Sys2Proof.Machine

namespace Sys2Proof.Claims

/-! ### Terms of the statements on the transform -/

/-- `exp(-2πi·k/2^level)`, the exact twiddle factor (41_transform.md R64, R66). -/
noncomputable def exactTw (level k : Nat) : ℂ := Complex.exp (-(2 * Real.pi * Complex.I * k / 2 ^ level))

/-- The butterfly of 41_transform.md R68 over exact complex numbers. -/
noncomputable def exactButterfly (level k : Nat) (e o : ℂ) : ℂ × ℂ := (e + exactTw level k * o, e - exactTw level k * o)

/-- The real number a finite binary64 stands for. -/
noncomputable def valueOf (v : F64) : ℝ := (fInt v : ℝ) / 2 ^ 1074

/-- `v` is finite and no finite binary64 lies nearer to `x`. -/
def IsNearest (v : F64) (x : ℝ) : Prop :=
  fIsFinite v = true ∧ ∀ u : F64, fIsFinite u = true → |valueOf v - x| ≤ |valueOf u - x|

/-- Half a unit above the largest finite value, in units of 2^-1074: where overflow begins (log entry 12). -/
def overflowUnits : Nat := (2 ^ 54 - 1) * 2 ^ 2044

/-- `r` is the exact value of `num / den` units of 2^-1074 rounded once: below `overflowUnits` in magnitude it is finite, no finite
value lies nearer, and where another value lies as near its last bit is 0; from there on it is the infinity of the exact sign. -/
structure IsRounded (r : F64) (num : Int) (den : Nat) : Prop where
  finite : num.natAbs < overflowUnits * den → fIsFinite r = true
  nearest : num.natAbs < overflowUnits * den → ∀ v, fIsFinite v = true →
    (fInt r * den - num).natAbs ≤ (fInt v * den - num).natAbs
  even : num.natAbs < overflowUnits * den → ∀ v, fIsFinite v = true → fInt v ≠ fInt r →
    (fInt v * den - num).natAbs = (fInt r * den - num).natAbs → r.getLsbD 0 = false
  overflow : overflowUnits * den ≤ num.natAbs → r = if num < 0 then 0xFFF0000000000000 else 0x7FF0000000000000

/-- `n` with its lowest `bits` bits in reverse order. -/
def reverseBits : (bits n : Nat) → Nat
  | 0, _ => 0
  | bits + 1, n => 2 ^ bits * (n % 2) + reverseBits bits (n / 2)

/-- One pass of the iterative transform at block size `2 ^ level`: within each block, place `k` of the lower half and place `k`
of the upper half are the pair of one butterfly. -/
def iterativePass {α : Type} (bf : Nat → Nat → α → α → α × α) (default : α) (level : Nat) (y : List α) : List α :=
  (List.range y.length).map fun i =>
    let half := 2 ^ (level - 1)
    let k := i % half
    if i / half % 2 = 0 then (bf level k (y.getD i default) (y.getD (i + half) default)).1
    else (bf level k (y.getD (i - half) default) (y.getD i default)).2

/-- The iterative 64-point transform: bit-reversed input order, then six passes with block sizes 2, 4, …, 64 (41_transform.md
R69). -/
def iterativeFft {α : Type} (bf : Nat → Nat → α → α → α × α) (default : α) (x : List α) : List α :=
  [1, 2, 3, 4, 5, 6].foldl (fun y level => iterativePass bf default level y)
    ((List.range 64).map fun i => x.getD (reverseBits 6 i) default)

/-- `x[0], x[8], …, x[56]`. -/
def everyEighth (x : List Sample) : List Sample := (List.range 8).map fun k => x.getD (8 * k) zeroSample

/-- The 64 Samples of 41_transform.md R76 (b): 1 at index 0, zero elsewhere. -/
def impulseAtZero : List Sample := ⟨0x3FF0000000000000, 0⟩ :: List.replicate 63 zeroSample

/-- The 64 Samples of 41_transform.md R76 (c): 1 at index 1, zero elsewhere. -/
def impulseAtOne : List Sample := (List.range 64).map fun j => if j = 1 then ⟨0x3FF0000000000000, 0⟩ else zeroSample

/-- The entries that 95_test_vectors.md T6 lists for the transform of `impulseAtOne`, each with its index. -/
def impulseAtOneWords : List (Nat × Sample) := [
  (0, ⟨0x3FF0000000000000, 0x0000000000000000⟩), (1, ⟨0x3FEFD88DA3D12526, 0xBFB917A6BC29B42C⟩),
  (8, ⟨0x3FE6A09E667F3BCD, 0xBFE6A09E667F3BCD⟩), (16, ⟨0x0000000000000000, 0xBFF0000000000000⟩),
  (31, ⟨0xBFEFD88DA3D12526, 0xBFB917A6BC29B42C⟩), (32, ⟨0xBFF0000000000000, 0x0000000000000000⟩),
  (33, ⟨0xBFEFD88DA3D12526, 0x3FB917A6BC29B42C⟩), (48, ⟨0x0000000000000000, 0x3FF0000000000000⟩),
  (63, ⟨0x3FEFD88DA3D12526, 0x3FB917A6BC29B42C⟩)]

/-- Impulse at index 63 (95_test_vectors.md T8): 1 at index 63, zero elsewhere. -/
def impulseAtLast : List Sample := List.replicate 63 zeroSample ++ [⟨0x3FF0000000000000, 0⟩]

/-- The entries that T8 lists for the transform of `impulseAtLast`. -/
def impulseAtLastWords : List (Nat × Sample) := [
  (0, ⟨0x3FF0000000000000, 0x0000000000000000⟩), (1, ⟨0x3FEFD88DA3D12526, 0x3FB917A6BC29B42B⟩),
  (2, ⟨0x3FEF6297CFF75CB0, 0x3FC8F8B83C69A60A⟩), (16, ⟨0x0000000000000000, 0x3FF0000000000000⟩),
  (32, ⟨0xBFF0000000000000, 0x0000000000000000⟩), (63, ⟨0x3FEFD88DA3D12526, 0xBFB917A6BC29B42B⟩)]

/-- The binary64 words of the integers -5 to 5. -/
def integerWords : List F64 := [
  0xC014000000000000, 0xC010000000000000, 0xC008000000000000, 0xC000000000000000, 0xBFF0000000000000, 0x0000000000000000,
  0x3FF0000000000000, 0x4000000000000000, 0x4008000000000000, 0x4010000000000000, 0x4014000000000000]

/-- The complex integers of 95_test_vectors.md T11 and T13: `x[j] = ((7j mod 11) - 5, (3j mod 5) - 2)`. -/
def complexIntegers : List Sample :=
  (List.range 64).map fun j => ⟨integerWords.getD (7 * j % 11) 0, integerWords.getD (3 * j % 5 + 3) 0⟩

/-- Twelve of the entries that T11 lists for the transform of `complexIntegers`. -/
def complexIntegerWords : List (Nat × Sample) := [
  (0, ⟨0xC000000000000000, 0x0000000000000000⟩), (1, ⟨0xBFFD3AEF2A12AC0E, 0xBFD2819D0544BA90⟩),
  (6, ⟨0xC0456D27B0B23A04, 0xC0202C211AE87D8A⟩), (16, ⟨0xC030000000000000, 0xC020000000000000⟩),
  (23, ⟨0x404B023EAB0A129C, 0xC05406DFFD2157AE⟩), (24, ⟨0xC033A827999FCEF3, 0x40437C3B666FB66D⟩),
  (32, ⟨0xC010000000000000, 0xC018000000000000⟩), (41, ⟨0x4049348147A3AFCE, 0x4055EF0222EB4916⟩),
  (48, ⟨0xC02C000000000000, 0x4018000000000000⟩), (53, ⟨0xC016969239905AB6, 0x4032F3F2A0D07232⟩),
  (60, ⟨0xBFCB25E3E977CD60, 0x3FF231E45531DDA4⟩), (63, ⟨0xC0003147BAB9A53E, 0x3FD32051604F9540⟩)]

/-- The entries that T13 lists for the inverse transform of `complexIntegers`. -/
def complexIntegerInverseWords : List (Nat × Sample) := [
  (0, ⟨0xBFA0000000000000, 0x8000000000000000⟩), (1, ⟨0xBFA03147BAB9A53E, 0x3F732051604F9540⟩),
  (2, ⟨0xBF9DF04E4613915E, 0x3F834DE66625085E⟩), (3, ⟨0xBF96A89A5651D9A0, 0x3F8CD1DED92A5920⟩),
  (16, ⟨0xBFCC000000000000, 0x3FB8000000000000⟩), (32, ⟨0xBFB0000000000000, 0xBFB8000000000000⟩),
  (48, ⟨0xBFD0000000000000, 0xBFC0000000000000⟩), (63, ⟨0xBF9D3AEF2A12AC0E, 0xBF72819D0544BA90⟩)]

/-- The entries that T12 lists for the inverse transform of `impulseAtOne`. -/
def impulseAtOneInverseWords : List (Nat × Sample) := [
  (0, ⟨0x3F90000000000000, 0x8000000000000000⟩), (1, ⟨0x3F8FD88DA3D12526, 0x3F5917A6BC29B42C⟩),
  (16, ⟨0x0000000000000000, 0x3F90000000000000⟩), (32, ⟨0xBF90000000000000, 0x8000000000000000⟩),
  (48, ⟨0x0000000000000000, 0xBF90000000000000⟩), (63, ⟨0x3F8FD88DA3D12526, 0xBF5917A6BC29B42C⟩)]

/-- 95_test_vectors.md T7: `x[j] = i^j`. -/
def powersOfI : List Sample := (List.range 64).map fun j =>
  match j % 4 with
  | 0 => ⟨0x3FF0000000000000, 0⟩
  | 1 => ⟨0, 0x3FF0000000000000⟩
  | 2 => ⟨0xBFF0000000000000, 0⟩
  | _ => ⟨0, 0xBFF0000000000000⟩

/-- Every Sample listed stands at its index of `y`, numerically. -/
def Lists (y : List Sample) (words : List (Nat × Sample)) : Prop :=
  ∀ q ∈ words, sampleSame (y.getD q.1 zeroSample) q.2 = true

/-! ### Samples as complex numbers -/

/-- The complex number of a Sample of finite components. -/
noncomputable def complexOf (x : Sample) : ℂ := ⟨valueOf x.re, valueOf x.im⟩

/-- Both components are finite and at most `m` in magnitude. -/
def Within (m : ℝ) (x : Sample) : Prop := finiteSample x = true ∧ |valueOf x.re| ≤ m ∧ |valueOf x.im| ≤ m

/-- Both components are finite and integers of at most 2^24 in magnitude, so that no operation of a butterfly rounds. -/
def SmallIntegers (x : Sample) : Prop :=
  finiteSample x = true ∧ ∃ a b : ℤ, |a| ≤ 2 ^ 24 ∧ |b| ≤ 2 ^ 24 ∧ valueOf x.re = a ∧ valueOf x.im = b

/-- `X[k] = Σ x[j]·exp(-2πi·j·k/64)` (41_transform.md R64). -/
noncomputable def exactForward (x : List Sample) (k : Nat) : ℂ :=
  ∑ j ∈ Finset.range 64, complexOf (x.getD j zeroSample) * Complex.exp (-(2 * Real.pi * Complex.I * j * k / 64))

/-- `x[j] = (1/64)·Σ X[k]·exp(+2πi·j·k/64)` (41_transform.md R64). -/
noncomputable def exactInverse (x : List Sample) (k : Nat) : ℂ :=
  (1 / 64) * ∑ j ∈ Finset.range 64, complexOf (x.getD j zeroSample) * Complex.exp (2 * Real.pi * Complex.I * j * k / 64)

/-- `y` is, index by index, finite and within `bound` of the complex numbers `z`. -/
def Approximates (y : List Sample) (z : Nat → ℂ) (bound : ℝ) : Prop :=
  y.length = 64 ∧ ∀ (k : Nat) (b : Sample), y[k]? = some b → finiteSample b = true ∧ ‖complexOf b - z k‖ ≤ bound

end Sys2Proof.Claims

open Sys2Proof.Claims

/-! ### Encoding and decoding -/

/-- Decode and encode agree: the packet of every command, with every operand and payload, decodes to that command
(30_encoding.md sections 3 to 5). -/
def Obligations.EncodedCommandsDecodeToThemselves : Prop := ∀ i : Instr, decodePacket (encode i) = .command i

/-- No two packets are one command: a packet that decodes is the packet of its command, bit for bit (30_encoding.md sections 3
to 5: unused bits are zero, the payload count is fixed). -/
def Obligations.AcceptedPacketsAreTheEncodings : Prop :=
  ∀ (p : CmdPacket) (i : Instr), decodePacket p = .command i → encode i = p

/-- The rows of the opcode map are disjoint (30_encoding.md R56). -/
def Obligations.OpcodeRowsAreDisjoint : Prop :=
  ∀ (i j : Nat) (r r' : Row) (w : CmdWord),
    opcodeMap[i]? = some r → opcodeMap[j]? = some r' → r.selects w = true → r'.selects w = true → i = j

/-- The decoder, which follows the opcode map's masks, accepts exactly the packets that are well formed field by field
(30_encoding.md sections 3 and 4: R49, R51, R52). -/
def Obligations.DecoderAcceptsExactlyWellFormedPackets : Prop :=
  ∀ p : CmdPacket, (∃ i, decodePacket p = .command i) ↔ p.wellFormed = true

/-- A few words of 95_test_vectors.md DV2, written out there, decode to the commands they stand for. -/
def Obligations.WrittenWordsDecode : Prop :=
  DecodesAs 0x10400000 [] (.fft 1 0) ∧ DecodesAs 0x20030002 [] (.mod 0 3 2) ∧ DecodesAs 0x22120000 [] (.dem 0 1 2) ∧
  DecodesAs 0x31900000 [] (.extr 2 1) ∧ DecodesAs 0x40900000 [] (.noise 2 1) ∧
  DecodesAs 0x53470000 [0xBFE0000000000000, 0x3FD0000000000000] (.gwr 1 7 ⟨0xBFE0000000000000, 0x3FD0000000000000⟩) ∧
  DecodesAs 0x5500AC40 [] (.sld 0 0xAC40) ∧ DecodesAs 0x61000000 [0x3F847AE147AE147B] (.cwr 0 0x3F847AE147AE147B)

/-- 30_encoding.md R52: a command beat whose upper half is not zero raises `IllegalCommand`. -/
def Obligations.UpperBitsOfTheBeatMustBeZero : Prop :=
  ∀ (s : State) (p : CmdPacket) (rest : List CmdPacket),
    s.cmd = p :: rest → p.head.toNat / 2 ^ 32 ≠ 0 → StepRaises s p rest 2

/-- 30_encoding.md R51: the payload count is fixed by the opcode, and a packet with another count, or with an unassigned opcode
and any count, raises `IllegalCommand`; nothing of its payload is kept. -/
def Obligations.PayloadCountIsFixedByTheOpcode : Prop :=
  ∀ (s : State) (p : CmdPacket) (rest : List CmdPacket), s.cmd = p :: rest →
    let opcode := p.word.toNat / 2 ^ 24
    let count := if opcode = 0x51 ∨ opcode = 0x53 then 2 else if opcode = 0x61 then 1 else 0
    (p.payload.length ≠ count → StepRaises s p rest 2) ∧
    (opcode ∉ [0x10, 0x11, 0x20, 0x21, 0x22, 0x23, 0x30, 0x31, 0x40, 0x50, 0x51, 0x52, 0x53, 0x54, 0x55, 0x56, 0x60, 0x61] →
      StepRaises s p rest 2)

/-- 60_exceptions.md section 1 and 30_encoding.md section 6: every packet that is no command raises `IllegalCommand`, whatever is
wrong with it, and changes nothing but `ERR` and `ECMD`. -/
def Obligations.PacketsThatAreNoCommandRaiseIllegalCommand : Prop :=
  ∀ (s : State) (p : CmdPacket) (rest : List CmdPacket) (why : DecodeError),
    s.cmd = p :: rest → decodePacket p = .illegal why → StepRaises s p rest 2

/-! ### Steps -/

/-- A step runs the decoded command: `exec` of it on the state without its packet, which differs in nothing else
(20_memory.md section 6). -/
def Obligations.StepRunsTheDecodedCommand : Prop :=
  ∀ (s : State) (p : CmdPacket) (rest : List CmdPacket) (i : Instr),
    s.cmd = p :: rest → decodePacket p = .command i →
      step s = exec i (s.takePacket rest) ∧ s.takePacket rest = { s with cmd := rest }

/-- With no packet on `cmd` the block does nothing and keeps all its state (60_exceptions.md section 5; log entry 5). -/
def Obligations.IdleStepKeepsTheState : Prop := ∀ s : State, s.cmd = [] → step s = .next s

/-- No step of the block ends in a stop: whatever the packet, there is a next state (60_exceptions.md section 2, R149). The progress
this claims is in part the model's choice: 70_reset_and_hazards.md R172 lets the block wait when `rsp` is full, and that no step of
the model waits is log entry 4 (`rsp` has no bound; unsafe for progress); that a step with no packet answers a next state is log
entry 5. -/
def Obligations.EveryStepGoesOn : Prop := ∀ s : State, GoesOn s

/-- 30_encoding.md R55: exactly one response for each command packet, in order, whether the command completed or faulted, and
nothing unsolicited: a step with no packet, if it answers a next state, has sent nothing. That `rsp` has room for the response is
log entry 4. -/
def Obligations.OneResponseForEachPacket : Prop :=
  (∀ (s : State) (p : CmdPacket) (rest : List CmdPacket), s.cmd = p :: rest →
    ∃ t r, step s = .next t ∧ t.cmd = rest ∧ t.rsp = s.rsp ++ [r]) ∧
  (∀ s t : State, s.cmd = [] → step s = .next t → t.rsp = s.rsp)

/-- Every step keeps the invariant: at most 64 Samples in a waveform register, reserved bits of `ERR` and `ECMD` zero, every
response on `rsp` well formed (10_state.md sections 2 and 5, 30_encoding.md section 4). -/
def Obligations.EveryStepKeepsTheInvariant : Prop := ∀ s t : State, s.Inv → step s = .next t → t.Inv

/-- The reset state has the invariant (10_state.md section 8). -/
def Obligations.ResetHasTheInvariant : Prop := State.reset.Inv

/-- 10_state.md R27: what reset leaves, after power-up and from whatever state it is asserted in. Of the noise source R27 gives no
value, so nothing is said of the model's own position in it. The last clause, on the ports, is 70_reset_and_hazards.md section 1
(R160: packets accepted and not executed, and responses not taken, are discarded) in the model's lists of packets (log entry 4). -/
def Obligations.ResetValues : Prop :=
  ∀ t : State, (t = State.reset ∨ ∃ s : State, t = s.assertReset) →
    (∀ r : Reg, (t.wave r).length = 0) ∧ (∀ (r : Reg) (k : Slot), t.slot r k = ⟨0, 0⟩) ∧ (∀ r : Reg, t.frame r = 0) ∧
    t.nvar = 0 ∧ t.err = 0 ∧ t.ecmd = 0 ∧ (t.cmd = [] ∧ t.rsp = [])

/-- Faults are precise (60_exceptions.md section 2): a step whose response has a cause other than 0 took its packet and did what
raising that fault does, with the packet's own command word, and nothing else. -/
def Obligations.FaultsArePrecise : Prop :=
  ∀ (s t : State) (p : CmdPacket) (rest : List CmdPacket) (r : RspPacket),
    s.cmd = p :: rest → step s = .next t → t.rsp = s.rsp ++ [r] → rspCause r ≠ 0 →
      (rspCause r).toNat ≤ 3 ∧ Raised (s.takePacket rest) t (rspCause r).toNat p.word

/-- The bits of `ERR` are sticky, and a step whose responses all have cause 0 leaves `ERR` and `ECMD` as they were
(10_state.md section 5, 60_exceptions.md section 2). -/
def Obligations.ErrorBitsAreSticky : Prop :=
  ∀ s t : State, step s = .next t →
    (∀ i, s.err.getLsbD i = true → t.err.getLsbD i = true) ∧
    ((∀ r, t.rsp = s.rsp ++ [r] → rspCause r = 0) → t.err = s.err ∧ t.ecmd = s.ecmd)

/-- No step changes `NVAR` but that of a `CWR 0`, which stores its payload unchecked (10_state.md section 5). -/
def Obligations.OnlyCwrChangesTheVariance : Prop :=
  ∀ s t : State, step s = .next t → t.nvar ≠ s.nvar →
    ∃ p rest, s.cmd = p :: rest ∧ decodePacket p = .command (.cwr 0 t.nvar)

/-- A command writes only what the table of 10_state.md section 2 (R15) lists for it, plus `ERR` and `ECMD` when it faults. -/
def Obligations.CommandsWriteOnlyWhatTheTableLists : Prop :=
  ∀ (i : Instr) (s t : State), exec i s = .next t →
    AgreeElsewhere i s t ∧ (∀ r, t.rsp = s.rsp ++ [r] → rspCause r = 0 → t.err = s.err ∧ t.ecmd = s.ecmd)

/-- A command reads only what the table of 10_state.md section 2 (R15) lists for it: states that agree on it get the same
response and, if the command completes, the same values in what it writes. The noise source is on the list of `NOISE` only; to agree on it is
the model's choice of form, equal positions in the stream of free draws (log entry 1); that two `NOISE` commands then write the
same NaN is the model's choice too, a free function of the operation and its operands (log entry 2; the spec leaves that NaN open,
and promises equal bits for `FFT` and `IFFT` only, 41_transform.md R76). -/
def Obligations.EffectsDependOnlyOnTheListedReads : Prop :=
  ∀ (i : Instr) (s s' : State), AgreeOnReads i s s' →
    ∃ t t' r, exec i s = .next t ∧ exec i s' = .next t' ∧ t.rsp = s.rsp ++ [r] ∧ t'.rsp = s'.rsp ++ [r] ∧
      (rspCause r = 0 → AgreeOnWrites i t t')

/-! ### Binary64 arithmetic -/

/-- Rounding is to nearest, ties to even, with overflow to infinity (41_transform.md section 2), for an exact magnitude of `p / q`
units of 2^-1074. That overflow begins at half a unit above the largest finite value is log entry 12 (PRESUMED, IEEE 754): the
spec says only that overflow gives an infinity. -/
def Obligations.RoundingIsNearestTiesToEven : Prop :=
  ∀ p q : Nat, 0 < q →
    let r := fRound false p q
    let off := fun v : F64 => ((p : Int) - q * fUnits v).natAbs
    (fIsFinite r = false ↔ (2 ^ 54 - 1) * 2 ^ 2044 * q ≤ p) ∧ (fIsFinite r = false → r = 0x7FF0000000000000) ∧
    (fIsFinite r = true → fSign r = false ∧ ∀ v, fIsFinite v = true →
      off r ≤ off v ∧ (fUnits v ≠ fUnits r → off v = off r → r.getLsbD 0 = false)) ∧
    fRound true p q = fneg r

/-- Sums, differences, products and quotients by 64.0 of finite values are the exact result rounded once to nearest, ties to even
(41_transform.md section 2): finite wherever the exact magnitude is below half a unit above the largest finite value, and the
infinity of the exact sign from there on. That threshold is log entry 12 (PRESUMED, IEEE 754). -/
def Obligations.OperationsAreCorrectlyRounded : Prop :=
  ∀ x y : F64, fIsFinite x = true → fIsFinite y = true →
    IsRounded (fadd x y) (fInt x + fInt y) 1 ∧ IsRounded (fsub x y) (fInt x - fInt y) 1 ∧
    IsRounded (fmul x y) (fInt x * fInt y) (2 ^ 1074) ∧ IsRounded (fdiv x 0x4050000000000000) (fInt x) 64

/-! ### Transform -/

/-- 41_transform.md R71: `FFT Wd, Ws`. -/
def Obligations.FftTransformsOrRaisesInvalidLength : Prop :=
  ∀ d src : Reg, EncodedAs (0x10000000 + d.val * 2 ^ 22 + src.val * 2 ^ 20) [] (.fft d src) ∧
  ∀ s : State,
    ((s.wave src).length = 64 → ∃ t, exec (.fft d src) s = .next t ∧
      t.wave d = fft64 (s.wave src) ∧ (t.wave d).length = 64 ∧ FilesKept s t [d] [] [] ∧ RestKept s t ∧ Completed s t []) ∧
    ((s.wave src).length ≠ 64 → ∃ t, exec (.fft d src) s = .next t ∧ Raised s t 1 (encodeWord (.fft d src)))

/-- 41_transform.md R72: `IFFT Wd, Ws`. -/
def Obligations.IfftTransformsOrRaisesInvalidLength : Prop :=
  ∀ d src : Reg, EncodedAs (0x11000000 + d.val * 2 ^ 22 + src.val * 2 ^ 20) [] (.ifft d src) ∧
  ∀ s : State,
    ((s.wave src).length = 64 → ∃ t, exec (.ifft d src) s = .next t ∧
      t.wave d = ifft64 (s.wave src) ∧ (t.wave d).length = 64 ∧ FilesKept s t [d] [] [] ∧ RestKept s t ∧ Completed s t []) ∧
    ((s.wave src).length ≠ 64 → ∃ t, exec (.ifft d src) s = .next t ∧ Raised s t 1 (encodeWord (.ifft d src)))

/-- 41_transform.md R64: over exact complex arithmetic the block's recursion is the 64-point discrete Fourier transform, and
conjugating, transforming, conjugating and dividing by 64 is the inverse transform. And on Samples the block computes that same
recursion with its own butterfly and table, and that same order of conjugations and division (R68 to R70); that its butterfly is the
exact one but for rounding is the next two statements. -/
def Obligations.RecursionOverExactNumbersIsTheFourierTransform : Prop :=
  (∀ x : List ℂ, x.length = 64 → ∀ k : Nat, k < 64 →
    (fftWith exactButterfly 6 x)[k]? =
      some (∑ j ∈ Finset.range 64, x.getD j 0 * Complex.exp (-(2 * Real.pi * Complex.I * j * k / 64))) ∧
    ((fftWith exactButterfly 6 (x.map (starRingEnd ℂ))).map fun z => starRingEnd ℂ z / 64)[k]? =
      some ((1 / 64) * ∑ j ∈ Finset.range 64, x.getD j 0 * Complex.exp (2 * Real.pi * Complex.I * j * k / 64))) ∧
  (∀ x : List Sample, fft64 x = fftWith (fun level k e o => (cadd e (cmul (tw level k) o), csub e (cmul (tw level k) o))) 6 x) ∧
  ∀ (x : List Sample) (j : Nat), x.length = 64 → (ifft64 x)[j]? = (fft64 (x.map conj))[j]?.map fun b =>
    ⟨fdiv b.re 0x4050000000000000, fdiv (b.im ^^^ 0x8000000000000000) 0x4050000000000000⟩

/-- 41_transform.md sections 2 to 4 (R67, R68, R70): on Samples whose components are small integers, where no operation rounds, the
block's own complex operations are the exact ones, with any imaginary parts: sum, difference, product, conjugate, division by 64, and
the butterfly `(e + w·o, e - w·o)`. -/
def Obligations.ButterflyIsTheExactOneWhereNothingRounds : Prop :=
  ∀ e o w : Sample, SmallIntegers e → SmallIntegers o → SmallIntegers w →
    complexOf (cadd e o) = complexOf e + complexOf o ∧ complexOf (csub e o) = complexOf e - complexOf o ∧
    complexOf (cmul w o) = complexOf w * complexOf o ∧ complexOf (conj e) = starRingEnd ℂ (complexOf e) ∧
    complexOf (cdiv64 e) = complexOf e / 64 ∧
    complexOf (butterfly e o w).1 = complexOf e + complexOf w * complexOf o ∧
    complexOf (butterfly e o w).2 = complexOf e - complexOf w * complexOf o

/-- 41_transform.md sections 1 to 4 and 6 (R64 to R70, R75): on any 64 Samples whose components are at most `m`, the block's own
`fft64` and `ifft64`, with their twiddle table, rounded operations and conjugates, are the discrete Fourier transform and its inverse
up to rounding, and one after the other gives the Samples back up to rounding. The bounds are the model's, derived from the arithmetic
rules (R75 asks for a proof or an assumption); the spec states none. -/
def Obligations.TransformsAreTheFourierTransformUpToRounding : Prop :=
  ∀ (x : List Sample) (m : ℝ), x.length = 64 → m ≤ 2 ^ 990 → (∀ a ∈ x, Within m a) →
    Approximates (fft64 x) (exactForward x) (m / 2 ^ 39 + 1 / 2 ^ 1060) ∧
    Approximates (ifft64 x) (exactInverse x) (m / 2 ^ 45 + 1 / 2 ^ 1060) ∧
    Approximates (ifft64 (fft64 x)) (fun j => complexOf (x.getD j zeroSample)) (m / 2 ^ 36 + 1 / 2 ^ 1050)

/-- 41_transform.md R69: the iterative transform (bit-reversed input order, then six passes) that applies the same butterfly to
the same operand pairs gives the same bits as the recursion. -/
def Obligations.IterativeTransformGivesTheSameBits : Prop :=
  ∀ x : List Sample, x.length = 64 → iterativeFft stepButterfly zeroSample x = fft64 x

/-- 41_transform.md section 5 (R74): if any component of any input Sample is a NaN, every output Sample of the transform has a
NaN component; so has every output of the inverse transform. -/
def Obligations.NaNInputReachesEveryOutput : Prop :=
  ∀ x : List Sample, x.length = 64 → (∃ a ∈ x, hasNaN a = true) →
    (∀ b ∈ fft64 x, hasNaN b = true) ∧ (∀ b ∈ ifft64 x, hasNaN b = true)

/-- 41_transform.md section 6 (R76 (a)): the transform of 64 zero Samples, of either sign, is 64 zero Samples; so is the inverse. -/
def Obligations.TransformOfZerosIsZeros : Prop :=
  ∀ x : List Sample, x.length = 64 → (∀ a ∈ x, sampleSame a zeroSample = true) →
    (∀ b ∈ fft64 x, sampleSame b zeroSample = true) ∧ (∀ b ∈ ifft64 x, sampleSame b zeroSample = true)

/-- 41_transform.md section 2 (R66): each component of the table is the binary64 nearest to the exact cosine or negated sine, the
two exact entries are as stated, and the factor of every butterfly is the one nearest to the exact factor `exp(-2πi·k/2^level)` over
which `RecursionOverExactNumbersIsTheFourierTransform` speaks. -/
def Obligations.TwiddlesAreNearestToTheExactFactors : Prop :=
  twiddleRom.length = 32 ∧
  twiddleRom[0]? = some ⟨0x3FF0000000000000, 0⟩ ∧ twiddleRom[16]? = some ⟨0, 0xBFF0000000000000⟩ ∧
  (∀ (m : Nat) (T : Sample), twiddleRom[m]? = some T →
    IsNearest T.re (Real.cos (2 * Real.pi * m / 64)) ∧ IsNearest T.im (-Real.sin (2 * Real.pi * m / 64))) ∧
  ∀ level k : Nat, 1 ≤ level → level ≤ 6 → 2 * k < 2 ^ level →
    IsNearest (tw level k).re (exactTw level k).re ∧ IsNearest (tw level k).im (exactTw level k).im

/-- 41_transform.md section 6 (R76 (c)): the transform of the impulse at index 1 is `T[k]`, then the negated `T[k-32]`; and
95_test_vectors.md T6 and T12: the words of nine of its Samples, and of six of the inverse transform's. -/
def Obligations.ImpulseAtOneGivesTheTwiddles : Prop :=
  (∀ k : Nat, k < 64 → sampleSame ((fft64 impulseAtOne).getD k zeroSample)
    (if k < 32 then twiddleRom.getD k zeroSample
     else ⟨fneg (twiddleRom.getD (k - 32) zeroSample).re, fneg (twiddleRom.getD (k - 32) zeroSample).im⟩) = true) ∧
  Lists (fft64 impulseAtOne) impulseAtOneWords ∧ Lists (ifft64 impulseAtOne) impulseAtOneInverseWords

/-- 95_test_vectors.md T1, T2, T8, T11 and T13: words of the butterfly, of small transforms and of both transforms where the
operands have nonzero real and imaginary parts, so that every product, sum and sign of R67, R68 and R70 counts. -/
def Obligations.ComplexVectorsTransformAsListed : Prop :=
  cmul ⟨0x3FEFD88DA3D12526, 0xBFB917A6BC29B42C⟩ ⟨0x4008000000000000, 0xC010000000000000⟩ =
    ⟨0x4004BF756357A556, 0xC0111962A2BA8705⟩ ∧
  butterfly ⟨0x3FF0000000000000, 0x4000000000000000⟩ ⟨0x4008000000000000, 0xC010000000000000⟩
    ⟨0x3FEFD88DA3D12526, 0xBFB917A6BC29B42C⟩ =
    (⟨0x400CBF756357A556, 0xC00232C545750E0A⟩, ⟨0xBFF97EEAC6AF4AAC, 0x40191962A2BA8705⟩) ∧
  Lists (fftN 1 [⟨0x3FF0000000000000, 0x4000000000000000⟩, ⟨0x4008000000000000, 0x4010000000000000⟩])
    [(0, ⟨0x4010000000000000, 0x4018000000000000⟩), (1, ⟨0xC000000000000000, 0xC000000000000000⟩)] ∧
  Lists (fft64 impulseAtLast) impulseAtLastWords ∧ Lists (fft64 complexIntegers) complexIntegerWords ∧
  Lists (ifft64 complexIntegers) complexIntegerInverseWords

/-- 41_transform.md section 6 (R76 (b), (d)) and the example of R72: the impulse at index 0 becomes 64 Samples (1, 0); 64 Samples
(1, 0) become (64, 0) at index 0 and zeros, and under the inverse (1, 0) at index 0 and zeros. 95_test_vectors.md T7: the powers of
`i` become (64, 0) at index 16 and zeros. -/
def Obligations.ImpulseAtZeroAndOnesTransform : Prop :=
  (∀ k : Nat, k < 64 → sampleSame ((fft64 impulseAtZero).getD k zeroSample) ⟨0x3FF0000000000000, 0⟩ = true) ∧
  (∀ k : Nat, k < 64 → sampleSame ((fft64 (List.replicate 64 ⟨0x3FF0000000000000, 0⟩)).getD k zeroSample)
    (if k = 0 then ⟨0x4050000000000000, 0⟩ else zeroSample) = true) ∧
  (∀ k : Nat, k < 64 → sampleSame ((ifft64 (List.replicate 64 ⟨0x3FF0000000000000, 0⟩)).getD k zeroSample)
    (if k = 0 then ⟨0x3FF0000000000000, 0⟩ else zeroSample) = true) ∧
  (∀ k : Nat, k < 64 → sampleSame ((fft64 powersOfI).getD k zeroSample)
    (if k = 16 then ⟨0x4050000000000000, 0⟩ else zeroSample) = true)

/-- 41_transform.md section 6 (R76 (e)): where every Sample off the multiples of 8 is zero and the other eight are finite, the
transform repeats the 8-point transform of those eight with period 8; the inverse repeats its conjugated form divided by 64. -/
def Obligations.SparseInputRepeatsWithPeriodEight : Prop :=
  ∀ x : List Sample, x.length = 64 →
    (∀ j < 64, j % 8 ≠ 0 → sampleSame (x.getD j zeroSample) zeroSample = true) →
    (∀ j < 64, j % 8 = 0 → finiteSample (x.getD j zeroSample) = true) →
    ∀ j < 64,
      sampleSame ((fft64 x).getD j zeroSample) ((fftN 3 (everyEighth x)).getD (j % 8) zeroSample) = true ∧
      sampleSame ((ifft64 x).getD j zeroSample)
        (cdiv64 (conj ((fftN 3 ((everyEighth x).map conj)).getD (j % 8) zeroSample))) = true

/-! ### Modem -/

/-- 42_qpsk_modem.md R78: a bit is 1 exactly when its axis is strictly negative, that is, when its word lies from
0x8000000000000001 (the smallest negative subnormal) to 0xFFF0000000000000 (minus infinity). -/
def Obligations.DemodulateDecidesStrictlyNegative : Prop :=
  ∀ re im : F64,
    (demodulate ⟨re, im⟩).getLsbD 1 = decide (0x8000000000000001 ≤ re.toNat ∧ re.toNat ≤ 0xFFF0000000000000) ∧
    (demodulate ⟨re, im⟩).getLsbD 0 = decide (0x8000000000000001 ≤ im.toNat ∧ im.toNat ≤ 0xFFF0000000000000)

/-- 42_qpsk_modem.md R79: `MOD Gd, k, sym`, with the four constant Samples of R77. -/
def Obligations.ModWritesOneConstellationPoint : Prop :=
  ∀ (d : Reg) (k : Slot) (v : Symbol),
    EncodedAs (0x20000000 + d.val * 2 ^ 22 + k.val * 2 ^ 16 + v.toNat) [] (.mod d k v) ∧
    ∀ s : State, ∃ t, exec (.mod d k v) s = .next t ∧
      t.slot d k = ⟨if v.getLsbD 1 then 0xBFE6A09E667F3BCD else 0x3FE6A09E667F3BCD,
        if v.getLsbD 0 then 0xBFE6A09E667F3BCD else 0x3FE6A09E667F3BCD⟩ ∧
      (∀ j, j ≠ k → t.slot d j = s.slot d j) ∧ FilesKept s t [] [d] [] ∧ RestKept s t ∧ Completed s t []

/-- 42_qpsk_modem.md R80: `MODV Gd, Ss`: slot `k` is the point of bits `[15-2k : 14-2k]`. -/
def Obligations.ModvMapsEverySymbol : Prop :=
  ∀ d src : Reg, EncodedAs (0x21000000 + d.val * 2 ^ 22 + src.val * 2 ^ 20) [] (.modv d src) ∧
  ∀ s : State, ∃ t, exec (.modv d src) s = .next t ∧
    (∀ k : Slot, t.slot d k = ⟨if (s.frame src).getLsbD (15 - 2 * k.val) then 0xBFE6A09E667F3BCD else 0x3FE6A09E667F3BCD,
      if (s.frame src).getLsbD (14 - 2 * k.val) then 0xBFE6A09E667F3BCD else 0x3FE6A09E667F3BCD⟩) ∧
    FilesKept s t [] [d] [] ∧ RestKept s t ∧ Completed s t []

/-- 42_qpsk_modem.md R81: `DEM Sd, Gs, k`: bits `15-2k` and `14-2k` are the decision, the other 14 bits keep their values. -/
def Obligations.DemWritesTwoBits : Prop :=
  ∀ (d src : Reg) (k : Slot),
    EncodedAs (0x22000000 + d.val * 2 ^ 22 + src.val * 2 ^ 20 + k.val * 2 ^ 16) [] (.dem d src k) ∧
    ∀ s : State, ∃ t, exec (.dem d src k) s = .next t ∧
      (∀ n < 16, (t.frame d).getLsbD n =
        if n = 15 - 2 * k.val then (demodulate (s.slot src k)).getLsbD 1
        else if n = 14 - 2 * k.val then (demodulate (s.slot src k)).getLsbD 0 else (s.frame d).getLsbD n) ∧
      FilesKept s t [] [] [d] ∧ RestKept s t ∧ Completed s t []

/-- 42_qpsk_modem.md R82: `DEMV Sd, Gs`: all 16 bits. -/
def Obligations.DemvDecidesEverySlot : Prop :=
  ∀ d src : Reg, EncodedAs (0x23000000 + d.val * 2 ^ 22 + src.val * 2 ^ 20) [] (.demv d src) ∧
  ∀ s : State, ∃ t, exec (.demv d src) s = .next t ∧
    (∀ k : Slot, (t.frame d).getLsbD (15 - 2 * k.val) = (demodulate (s.slot src k)).getLsbD 1 ∧
      (t.frame d).getLsbD (14 - 2 * k.val) = (demodulate (s.slot src k)).getLsbD 0) ∧
    FilesKept s t [] [] [d] ∧ RestKept s t ∧ Completed s t []

/-- 42_qpsk_modem.md section 3 (R83, in part an inference that the spec marks as its own): mapping a symbol and deciding it gives it back; for the commands, `SLD`, `MODV`, `DEMV` gives every
frame back, and `DEMV` then `MODV` replaces every Sample by the constellation point of its decision. -/
def Obligations.ModulateThenDemodulateIsTheIdentity : Prop :=
  (∀ v : Symbol, demodulate (modulate v) = v) ∧
  (∀ (a b c : Reg) (v : Frame) (s : State), ∃ t1 t2 t3, exec (.sld a v) s = .next t1 ∧ exec (.modv b a) t1 = .next t2 ∧
    exec (.demv c b) t2 = .next t3 ∧ t3.frame c = v) ∧
  (∀ (a b c : Reg) (s : State), ∃ t1 t2, exec (.demv a b) s = .next t1 ∧ exec (.modv c a) t1 = .next t2 ∧
    ∀ k, t2.slot c k = modulate (demodulate (s.slot b k))) ∧
  ∃ x : Sample, modulate (demodulate x) ≠ x

/-! ### Grid mapper -/

/-- 43_grid_mapper.md R87: `PROJ Wd, Gs`. -/
def Obligations.ProjPlacesEightSamplesInZeros : Prop :=
  ∀ d src : Reg, EncodedAs (0x30000000 + d.val * 2 ^ 22 + src.val * 2 ^ 20) [] (.proj d src) ∧
  ∀ s : State, ∃ t, exec (.proj d src) s = .next t ∧ (t.wave d).length = 64 ∧
    (∀ k : Slot, (t.wave d)[8 * k.val]? = some (s.slot src k)) ∧
    (∀ j < 64, j % 8 ≠ 0 → (t.wave d)[j]? = some ⟨0, 0⟩) ∧ FilesKept s t [d] [] [] ∧ RestKept s t ∧ Completed s t []

/-- 43_grid_mapper.md R88: `EXTR Gd, Ws`. -/
def Obligations.ExtrReadsTheEightPositions : Prop :=
  ∀ d src : Reg, EncodedAs (0x31000000 + d.val * 2 ^ 22 + src.val * 2 ^ 20) [] (.extr d src) ∧
  ∀ s : State,
    ((s.wave src).length = 64 → ∃ t, exec (.extr d src) s = .next t ∧
      (∀ k : Slot, (s.wave src)[8 * k.val]? = some (t.slot d k)) ∧ FilesKept s t [] [d] [] ∧ RestKept s t ∧ Completed s t []) ∧
    ((s.wave src).length ≠ 64 → ∃ t, exec (.extr d src) s = .next t ∧ Raised s t 1 (encodeWord (.extr d src)))

/-- 43_grid_mapper.md section 3 (R89): `PROJ` then `EXTR` gives the eight Samples back bit for bit; `EXTR` then `PROJ` keeps the
eight active positions of a Waveform and makes the other 56 the zero Sample. -/
def Obligations.ProjectThenExtractIsTheIdentity : Prop :=
  (∀ (a d src : Reg) (s : State), ∃ t1 t2, exec (.proj a src) s = .next t1 ∧ exec (.extr d a) t1 = .next t2 ∧
    t2.grid d = s.grid src) ∧
  (∀ (a d src : Reg) (s : State), (s.wave src).length = 64 → ∃ t1 t2, exec (.extr a src) s = .next t1 ∧
    exec (.proj d a) t1 = .next t2 ∧
    ∀ j < 64, (t2.wave d)[j]? = if j % 8 = 0 then (s.wave src)[j]? else some ⟨0, 0⟩)

/-! ### Noise -/

/-- 44_noise_adder.md R93: `NOISE Wd, Ws`. A completed `NOISE` adds to every component one finite value of its own, by one
`fadd`, and an infinity or a NaN stays one; the length is checked before `NVAR`, and a `NOISE` that faults takes no draw. -/
def Obligations.NoiseAddsOneDrawPerComponent : Prop :=
  ∀ d src : Reg, EncodedAs (0x40000000 + d.val * 2 ^ 22 + src.val * 2 ^ 20) [] (.noise d src) ∧
  ∀ s : State,
    ((s.wave src).length = 64 → nvarUsable s.nvar = true → ∃ t, exec (.noise d src) s = .next t ∧
      (t.wave d).length = 64 ∧
      (∀ (j : Nat) (x : Sample), (s.wave src)[j]? = some x → ∃ nr ni : F64, fIsFinite nr = true ∧ fIsFinite ni = true ∧
        (fIsZero s.nvar = true → nr = 0 ∧ ni = 0) ∧ (t.wave d)[j]? = some ⟨fadd x.re nr, fadd x.im ni⟩ ∧
        (fIsInf x.re = true → fadd x.re nr = x.re) ∧ (fIsInf x.im = true → fadd x.im ni = x.im) ∧
        (fIsNaN x.re = true → fIsNaN (fadd x.re nr) = true) ∧ (fIsNaN x.im = true → fIsNaN (fadd x.im ni) = true)) ∧
      FilesKept s t [d] [] [] ∧ t.nvar = s.nvar ∧ t.cmd = s.cmd ∧ Completed s t []) ∧
    ((s.wave src).length ≠ 64 → ∃ t, exec (.noise d src) s = .next t ∧ Raised s t 1 (encodeWord (.noise d src))) ∧
    ((s.wave src).length = 64 → nvarUsable s.nvar = false →
      ∃ t, exec (.noise d src) s = .next t ∧ Raised s t 3 (encodeWord (.noise d src)))

/-- 44_noise_adder.md section 3 (R95): with a variance of zero, of either sign, `NOISE` gives every component back, but for a
negative zero, which becomes positive, and a NaN, which stays a NaN. -/
def Obligations.NoiseOfZeroVarianceKeepsEveryValue : Prop :=
  ∀ (d src : Reg) (s : State), (s.wave src).length = 64 → (s.nvar = 0 ∨ s.nvar = 0x8000000000000000) →
    ∃ t, exec (.noise d src) s = .next t ∧ (t.wave d).length = 64 ∧
      ∀ (j : Nat) (x y : Sample), (s.wave src)[j]? = some x → (t.wave d)[j]? = some y →
        sampleSame y x = true ∧
        (fIsNaN x.re = false → y.re = if x.re = 0x8000000000000000 then 0 else x.re) ∧
        (fIsNaN x.im = false → y.im = if x.im = 0x8000000000000000 then 0 else x.im)

/-- 47 R178: which bit patterns of `NVAR` are usable, by its sign, exponent and fraction fields. -/
def Obligations.UsableVarianceByBitPattern : Prop :=
  ∀ v : F64,
    let e := v.toNat / 2 ^ 52 % 2 ^ 11
    let f := v.toNat % 2 ^ 52
    nvarUsable v = if e = 0 ∧ f = 0 then true else if e = 0x7FF then false else decide (v.toNat / 2 ^ 63 = 0)

/-! ### Data movement -/

/-- 45_data_movement.md R99: `WCLR Wd`. -/
def Obligations.WclrEmptiesTheRegister : Prop :=
  ∀ d : Reg, EncodedAs (0x50000000 + d.val * 2 ^ 22) [] (.wclr d) ∧
  ∀ s : State, ∃ t, exec (.wclr d) s = .next t ∧ t.wave d = [] ∧ FilesKept s t [d] [] [] ∧ RestKept s t ∧ Completed s t []

/-- 45_data_movement.md R100: `WPUSH Wd <- (re, im)`. -/
def Obligations.WpushAppendsOrRaisesInvalidLength : Prop :=
  ∀ (d : Reg) (x : Sample), EncodedAs (0x51000000 + d.val * 2 ^ 22) [x.re, x.im] (.wpush d x) ∧
  ∀ s : State,
    ((s.wave d).length ≠ 64 → ∃ t, exec (.wpush d x) s = .next t ∧ t.wave d = s.wave d ++ [x] ∧
      FilesKept s t [d] [] [] ∧ RestKept s t ∧ Completed s t []) ∧
    ((s.wave d).length = 64 → ∃ t, exec (.wpush d x) s = .next t ∧ Raised s t 1 (encodeWord (.wpush d x)))

/-- 45_data_movement.md R101: `WOUT Ws`: two beats for each Sample, the real one first, in index order; the register is
unchanged. -/
def Obligations.WoutReadsEverySample : Prop :=
  ∀ src : Reg, EncodedAs (0x52000000 + src.val * 2 ^ 20) [] (.wout src) ∧
  ∀ s : State, (s.wave src).length ≤ 64 → ∃ t data, exec (.wout src) s = .next t ∧ data.length = 2 * (s.wave src).length ∧
    (∀ (j : Nat) (x : Sample), (s.wave src)[j]? = some x → data[2 * j]? = some x.re ∧ data[2 * j + 1]? = some x.im) ∧
    FilesKept s t [] [] [] ∧ RestKept s t ∧ Completed s t data

/-- 45_data_movement.md R102: `GWR Gd, k <- (re, im)`. -/
def Obligations.GwrWritesOneSlot : Prop :=
  ∀ (d : Reg) (k : Slot) (x : Sample),
    EncodedAs (0x53000000 + d.val * 2 ^ 22 + k.val * 2 ^ 16) [x.re, x.im] (.gwr d k x) ∧
    ∀ s : State, ∃ t, exec (.gwr d k x) s = .next t ∧ t.slot d k = x ∧ (∀ j, j ≠ k → t.slot d j = s.slot d j) ∧
      FilesKept s t [] [d] [] ∧ RestKept s t ∧ Completed s t []

/-- 45_data_movement.md R103: `GRD Gs, k`. -/
def Obligations.GrdReadsOneSlot : Prop :=
  ∀ (src : Reg) (k : Slot), EncodedAs (0x54000000 + src.val * 2 ^ 20 + k.val * 2 ^ 16) [] (.grd src k) ∧
    ∀ s : State, ∃ t, exec (.grd src k) s = .next t ∧ FilesKept s t [] [] [] ∧ RestKept s t ∧
      Completed s t [(s.slot src k).re, (s.slot src k).im]

/-- 45_data_movement.md R104: `SLD Sd, imm16`. -/
def Obligations.SldLoadsTheFrame : Prop :=
  ∀ (d : Reg) (v : Frame), EncodedAs (0x55000000 + d.val * 2 ^ 22 + v.toNat) [] (.sld d v) ∧
    ∀ s : State, ∃ t, exec (.sld d v) s = .next t ∧ t.frame d = v ∧ FilesKept s t [] [] [d] ∧ RestKept s t ∧ Completed s t []

/-- 45_data_movement.md R105: `SRD Ss`: one beat, the frame with bits [63:16] zero. -/
def Obligations.SrdReadsTheFrame : Prop :=
  ∀ src : Reg, EncodedAs (0x56000000 + src.val * 2 ^ 20) [] (.srd src) ∧
    ∀ s : State, ∃ (t : State) (v : Beat), exec (.srd src) s = .next t ∧ v.toNat = (s.frame src).toNat ∧
      FilesKept s t [] [] [] ∧ RestKept s t ∧ Completed s t [v]

/-! ### System -/

/-- 46_system.md R107: `CRD csr`. -/
def Obligations.CrdReadsARegisterOrRaisesIllegalCommand : Prop :=
  ∀ n : Csr, EncodedAs (0x60000000 + n.toNat * 2 ^ 16) [] (.crd n) ∧
    ∀ s : State,
      (n.toNat ≤ 2 → ∃ t, exec (.crd n) s = .next t ∧ FilesKept s t [] [] [] ∧ RestKept s t ∧
        Completed s t [if n = 0 then s.nvar else if n = 1 then s.err else s.ecmd]) ∧
      (2 < n.toNat → ∃ t, exec (.crd n) s = .next t ∧ Raised s t 2 (encodeWord (.crd n)))

/-- 46_system.md R108: `CWR csr <- value`: `NVAR` takes any pattern; every other CSR number is refused. -/
def Obligations.CwrWritesTheVarianceOrRaisesIllegalCommand : Prop :=
  ∀ (n : Csr) (v : BitVec 64), EncodedAs (0x61000000 + n.toNat * 2 ^ 16) [v] (.cwr n v) ∧
    ∀ s : State,
      (n = 0 → ∃ t, exec (.cwr n v) s = .next t ∧ t.nvar = v ∧ FilesKept s t [] [] [] ∧ t.noisePos = s.noisePos ∧
        t.cmd = s.cmd ∧ Completed s t []) ∧
      (n ≠ 0 → ∃ t, exec (.cwr n v) s = .next t ∧ Raised s t 2 (encodeWord (.cwr n v)))

/-! ### The host's software (48_host_context.md; outside the hardware) -/

/-- 48_host_context.md section 2 (R115, R122): the all-free table is sound (every live allocation has 1 to 3 slots within 1..7, all
marked used, and no two users' runs share a slot), one inbound frame, whatever it is, keeps it sound, and so does any sequence of
frames; and the leak: where a user who holds a run is granted another, the entry is overwritten and the old run's slots stay
marked used. -/
def Obligations.StationAllocationsNeverOverlap : Prop :=
  Sound Station.allFree ∧
  (∀ (st : Station) (f : Frame), Sound st → Sound (st.dispatch f).2) ∧
  (∀ frames : List Frame, Sound (frames.foldl (fun st f => (st.dispatch f).2) Station.allFree)) ∧
  ∀ (st : Station) (u : UserId) (requested : Nat) (a b : Allocation), Sound st → st.table[u] = some a →
    (st.allocate u requested).1 = some b →
      (st.allocate u requested).2.table[u] = some b ∧
      ∀ i : Fin 8, a.start ≤ i.val → i.val < a.start + a.count →
        (st.allocate u requested).2.used[i] = true ∧ ¬ (b.start ≤ i.val ∧ i.val < b.start + b.count)

/-- 48_host_context.md R123: `deallocate` frees exactly the user's run and entry, and does nothing for a user without one. -/
def Obligations.DeallocateFreesExactlyTheRun : Prop :=
  ∀ (st : Station) (u : UserId),
    (st.table[u] = none → st.deallocate u = st) ∧
    (∀ a, st.table[u] = some a → (st.deallocate u).table[u] = none ∧
      (∀ v : UserId, v ≠ u → (st.deallocate u).table[v] = st.table[v]) ∧
      ∀ i : Fin 8, (st.deallocate u).used[i] = if a.start ≤ i.val ∧ i.val < a.start + a.count then false else st.used[i])

/-- 48_host_context.md section 3 (R126, R139): a payload is a bit field of the frame; a forwarded frame whose receiver's run lies above
slots 1 and 2 is the formula of R139, the sum of its shifted fields; and for every run slots 0, 1 and 2 carry the code, the
destination and the sender, and every slot from 3 on what that formula puts there. Where a run includes slots 1 or 2 the formula and
R126 differ there; that R126 stands is log entry 16 (90_conflicts.md C4, 70_reset_and_hazards.md R170 (c)). -/
def Obligations.PayloadIsABitFieldOfTheFrame : Prop :=
  (∀ (f : Frame) (a c : Nat), 1 ≤ a → a + c ≤ 8 → readPayload f ⟨a, c⟩ = f.toNat / 2 ^ (16 - 2 * (a + c)) % 4 ^ c) ∧
  (∀ (dest sender : Symbol) (q a c : Nat), 3 ≤ a → a + c ≤ 8 → q < 4 ^ c →
    dataFrame dest sender q ⟨a, c⟩ = fieldFrame dest sender q ⟨a, c⟩ ∧
    (dataFrame dest sender q ⟨a, c⟩).toNat =
      2 ^ 14 + dest.toNat * 2 ^ 12 + sender.toNat * 2 ^ 10 + q * 2 ^ (16 - 2 * (a + c))) ∧
  (∀ (dest sender : Symbol) (q a c : Nat), 1 ≤ a → a + c ≤ 8 → q < 4 ^ c →
    let f := dataFrame dest sender q ⟨a, c⟩
    sym f 0 = 1 ∧ sym f 1 = dest ∧ sym f 2 = sender ∧
      ∀ k : Slot, 3 ≤ k.val → sym f k = sym (fieldFrame dest sender q ⟨a, c⟩) k)
end

