-- ==== Sys2Proof/Laws/Decode.lean ====
section
/-! SUPPORT. The fields of a packed command word read back, at the width of a word and at the width of a beat. -/

namespace Sys2Proof

theorem append_toNat {m n : Nat} (a : BitVec m) (b : BitVec n) : (a ++ b).toNat = a.toNat * 2 ^ n + b.toNat := by
  rw [BitVec.toNat_append, Nat.shiftLeft_eq, Nat.mul_comm, ← Nat.two_pow_add_eq_or_of_lt b.isLt]

/-- A packed command word as a number. -/
theorem packWord_toNat (op : BitVec 8) (rd rs : BitVec 2) (idx : BitVec 4) (imm : BitVec 16) :
    (packWord op rd rs idx imm).toNat =
      op.toNat * 2 ^ 24 + rd.toNat * 2 ^ 22 + rs.toNat * 2 ^ 20 + idx.toNat * 2 ^ 16 + imm.toNat := by
  simp only [packWord, append_toNat]
  omega

section
variable (op : BitVec 8) (rd rs : BitVec 2) (idx : BitVec 4) (imm : BitVec 16)

theorem word_field {w : CmdWord} {lo n : Nat} (v : BitVec n) (h : w.toNat / 2 ^ lo % 2 ^ n = v.toNat) :
    w.extractLsb' lo n = v := by
  apply BitVec.eq_of_toNat_eq
  rw [BitVec.extractLsb'_toNat, Nat.shiftRight_eq_div_pow, h]

theorem beat_field {w : CmdWord} {lo n : Nat} (v : BitVec n) (h : w.toNat / 2 ^ lo % 2 ^ n = v.toNat) :
    (w.setWidth 64).extractLsb' lo n = v := by
  apply BitVec.eq_of_toNat_eq
  have := w.isLt
  rw [BitVec.extractLsb'_toNat, Nat.shiftRight_eq_div_pow, BitVec.toNat_setWidth,
    Nat.mod_eq_of_lt (show w.toNat < 2 ^ 64 by omega), h]

@[simp] theorem packWord_opcode : (packWord op rd rs idx imm).extractLsb' 24 8 = op := by
  apply word_field; rw [packWord_toNat]; omega

@[simp] theorem packWord_rd : (packWord op rd rs idx imm).extractLsb' 22 2 = rd := by
  apply word_field; rw [packWord_toNat]; omega

@[simp] theorem packWord_rs : (packWord op rd rs idx imm).extractLsb' 20 2 = rs := by
  apply word_field; rw [packWord_toNat]; omega

@[simp] theorem packWord_idx : (packWord op rd rs idx imm).extractLsb' 16 4 = idx := by
  apply word_field; rw [packWord_toNat]; omega

@[simp] theorem packWord_imm : (packWord op rd rs idx imm).extractLsb' 0 16 = imm := by
  apply word_field; rw [packWord_toNat]; omega

@[simp] theorem beat_opcode : ((packWord op rd rs idx imm).setWidth 64).extractLsb' 24 8 = op := by
  apply beat_field; rw [packWord_toNat]; omega

@[simp] theorem beat_rd : ((packWord op rd rs idx imm).setWidth 64).extractLsb' 22 2 = rd := by
  apply beat_field; rw [packWord_toNat]; omega

@[simp] theorem beat_rs : ((packWord op rd rs idx imm).setWidth 64).extractLsb' 20 2 = rs := by
  apply beat_field; rw [packWord_toNat]; omega

@[simp] theorem beat_idx : ((packWord op rd rs idx imm).setWidth 64).extractLsb' 16 4 = idx := by
  apply beat_field; rw [packWord_toNat]; omega

@[simp] theorem beat_imm : ((packWord op rd rs idx imm).setWidth 64).extractLsb' 0 16 = imm := by
  apply beat_field; rw [packWord_toNat]; omega

end

/-- The upper half of a command word's beat is zero. -/
@[simp] theorem beat_upper (w : CmdWord) : (w.setWidth 64).extractLsb' 32 32 = 0 := by
  apply beat_field
  have := w.isLt
  rw [Nat.div_eq_of_lt this]; rfl

/-- The lower half of a command word's beat is the word. -/
@[simp] theorem encode_word (i : Instr) : (encode i).word = encodeWord i := by
  apply beat_field
  have := (encodeWord i).isLt
  omega

end Sys2Proof
end

