-- ==== Sys2Proof/Laws/State.lean ====
section
/-! SUPPORT. For every update of the state, what each field and each register reads afterwards. -/

namespace Sys2Proof.Machine

variable (st : State)

/-! ### `setWave` -/

@[simp] theorem setWave_w (r : Reg) (x : List Sample) : (st.setWave r x).w = st.w.set r x := rfl
@[simp] theorem setWave_g (r : Reg) (x : List Sample) : (st.setWave r x).g = st.g := rfl
@[simp] theorem setWave_s (r : Reg) (x : List Sample) : (st.setWave r x).s = st.s := rfl
@[simp] theorem setWave_nvar (r : Reg) (x : List Sample) : (st.setWave r x).nvar = st.nvar := rfl
@[simp] theorem setWave_err (r : Reg) (x : List Sample) : (st.setWave r x).err = st.err := rfl
@[simp] theorem setWave_ecmd (r : Reg) (x : List Sample) : (st.setWave r x).ecmd = st.ecmd := rfl
@[simp] theorem setWave_noisePos (r : Reg) (x : List Sample) : (st.setWave r x).noisePos = st.noisePos := rfl
@[simp] theorem setWave_cmd (r : Reg) (x : List Sample) : (st.setWave r x).cmd = st.cmd := rfl
@[simp] theorem setWave_rsp (r : Reg) (x : List Sample) : (st.setWave r x).rsp = st.rsp := rfl
@[simp] theorem setWave_grid (r : Reg) (x : List Sample) (q : Reg) : (st.setWave r x).grid q = st.grid q := rfl
@[simp] theorem setWave_slot (r : Reg) (x : List Sample) (q : Reg) (j : Slot) : (st.setWave r x).slot q j = st.slot q j := rfl
@[simp] theorem setWave_frame (r : Reg) (x : List Sample) (q : Reg) : (st.setWave r x).frame q = st.frame q := rfl

/-! ### `setGrid` -/

@[simp] theorem setGrid_w (r : Reg) (x : Vector Sample 8) : (st.setGrid r x).w = st.w := rfl
@[simp] theorem setGrid_g (r : Reg) (x : Vector Sample 8) : (st.setGrid r x).g = st.g.set r x := rfl
@[simp] theorem setGrid_s (r : Reg) (x : Vector Sample 8) : (st.setGrid r x).s = st.s := rfl
@[simp] theorem setGrid_nvar (r : Reg) (x : Vector Sample 8) : (st.setGrid r x).nvar = st.nvar := rfl
@[simp] theorem setGrid_err (r : Reg) (x : Vector Sample 8) : (st.setGrid r x).err = st.err := rfl
@[simp] theorem setGrid_ecmd (r : Reg) (x : Vector Sample 8) : (st.setGrid r x).ecmd = st.ecmd := rfl
@[simp] theorem setGrid_noisePos (r : Reg) (x : Vector Sample 8) : (st.setGrid r x).noisePos = st.noisePos := rfl
@[simp] theorem setGrid_cmd (r : Reg) (x : Vector Sample 8) : (st.setGrid r x).cmd = st.cmd := rfl
@[simp] theorem setGrid_rsp (r : Reg) (x : Vector Sample 8) : (st.setGrid r x).rsp = st.rsp := rfl
@[simp] theorem setGrid_wave (r : Reg) (x : Vector Sample 8) (q : Reg) : (st.setGrid r x).wave q = st.wave q := rfl
@[simp] theorem setGrid_frame (r : Reg) (x : Vector Sample 8) (q : Reg) : (st.setGrid r x).frame q = st.frame q := rfl

/-! ### `setSlot` -/

@[simp] theorem setSlot_w (r : Reg) (k : Slot) (x : Sample) : (st.setSlot r k x).w = st.w := rfl
@[simp] theorem setSlot_g (r : Reg) (k : Slot) (x : Sample) : (st.setSlot r k x).g = st.g.set r ((st.grid r).set k x) := rfl
@[simp] theorem setSlot_s (r : Reg) (k : Slot) (x : Sample) : (st.setSlot r k x).s = st.s := rfl
@[simp] theorem setSlot_nvar (r : Reg) (k : Slot) (x : Sample) : (st.setSlot r k x).nvar = st.nvar := rfl
@[simp] theorem setSlot_err (r : Reg) (k : Slot) (x : Sample) : (st.setSlot r k x).err = st.err := rfl
@[simp] theorem setSlot_ecmd (r : Reg) (k : Slot) (x : Sample) : (st.setSlot r k x).ecmd = st.ecmd := rfl
@[simp] theorem setSlot_noisePos (r : Reg) (k : Slot) (x : Sample) : (st.setSlot r k x).noisePos = st.noisePos := rfl
@[simp] theorem setSlot_cmd (r : Reg) (k : Slot) (x : Sample) : (st.setSlot r k x).cmd = st.cmd := rfl
@[simp] theorem setSlot_rsp (r : Reg) (k : Slot) (x : Sample) : (st.setSlot r k x).rsp = st.rsp := rfl
@[simp] theorem setSlot_wave (r : Reg) (k : Slot) (x : Sample) (q : Reg) : (st.setSlot r k x).wave q = st.wave q := rfl
@[simp] theorem setSlot_frame (r : Reg) (k : Slot) (x : Sample) (q : Reg) : (st.setSlot r k x).frame q = st.frame q := rfl

/-! ### `setFrame` -/

@[simp] theorem setFrame_w (r : Reg) (v : Frame) : (st.setFrame r v).w = st.w := rfl
@[simp] theorem setFrame_g (r : Reg) (v : Frame) : (st.setFrame r v).g = st.g := rfl
@[simp] theorem setFrame_s (r : Reg) (v : Frame) : (st.setFrame r v).s = st.s.set r v := rfl
@[simp] theorem setFrame_nvar (r : Reg) (v : Frame) : (st.setFrame r v).nvar = st.nvar := rfl
@[simp] theorem setFrame_err (r : Reg) (v : Frame) : (st.setFrame r v).err = st.err := rfl
@[simp] theorem setFrame_ecmd (r : Reg) (v : Frame) : (st.setFrame r v).ecmd = st.ecmd := rfl
@[simp] theorem setFrame_noisePos (r : Reg) (v : Frame) : (st.setFrame r v).noisePos = st.noisePos := rfl
@[simp] theorem setFrame_cmd (r : Reg) (v : Frame) : (st.setFrame r v).cmd = st.cmd := rfl
@[simp] theorem setFrame_rsp (r : Reg) (v : Frame) : (st.setFrame r v).rsp = st.rsp := rfl
@[simp] theorem setFrame_wave (r : Reg) (v : Frame) (q : Reg) : (st.setFrame r v).wave q = st.wave q := rfl
@[simp] theorem setFrame_grid (r : Reg) (v : Frame) (q : Reg) : (st.setFrame r v).grid q = st.grid q := rfl
@[simp] theorem setFrame_slot (r : Reg) (v : Frame) (q : Reg) (j : Slot) : (st.setFrame r v).slot q j = st.slot q j := rfl

/-! ### `setNvar` -/

@[simp] theorem setNvar_w (v : BitVec 64) : (st.setNvar v).w = st.w := rfl
@[simp] theorem setNvar_g (v : BitVec 64) : (st.setNvar v).g = st.g := rfl
@[simp] theorem setNvar_s (v : BitVec 64) : (st.setNvar v).s = st.s := rfl
@[simp] theorem setNvar_nvar (v : BitVec 64) : (st.setNvar v).nvar = v := rfl
@[simp] theorem setNvar_err (v : BitVec 64) : (st.setNvar v).err = st.err := rfl
@[simp] theorem setNvar_ecmd (v : BitVec 64) : (st.setNvar v).ecmd = st.ecmd := rfl
@[simp] theorem setNvar_noisePos (v : BitVec 64) : (st.setNvar v).noisePos = st.noisePos := rfl
@[simp] theorem setNvar_cmd (v : BitVec 64) : (st.setNvar v).cmd = st.cmd := rfl
@[simp] theorem setNvar_rsp (v : BitVec 64) : (st.setNvar v).rsp = st.rsp := rfl
@[simp] theorem setNvar_wave (v : BitVec 64) (q : Reg) : (st.setNvar v).wave q = st.wave q := rfl
@[simp] theorem setNvar_grid (v : BitVec 64) (q : Reg) : (st.setNvar v).grid q = st.grid q := rfl
@[simp] theorem setNvar_slot (v : BitVec 64) (q : Reg) (j : Slot) : (st.setNvar v).slot q j = st.slot q j := rfl
@[simp] theorem setNvar_frame (v : BitVec 64) (q : Reg) : (st.setNvar v).frame q = st.frame q := rfl

/-! ### `advanceNoise` -/

@[simp] theorem advanceNoise_w (n : Nat) : (st.advanceNoise n).w = st.w := rfl
@[simp] theorem advanceNoise_g (n : Nat) : (st.advanceNoise n).g = st.g := rfl
@[simp] theorem advanceNoise_s (n : Nat) : (st.advanceNoise n).s = st.s := rfl
@[simp] theorem advanceNoise_nvar (n : Nat) : (st.advanceNoise n).nvar = st.nvar := rfl
@[simp] theorem advanceNoise_err (n : Nat) : (st.advanceNoise n).err = st.err := rfl
@[simp] theorem advanceNoise_ecmd (n : Nat) : (st.advanceNoise n).ecmd = st.ecmd := rfl
@[simp] theorem advanceNoise_noisePos (n : Nat) : (st.advanceNoise n).noisePos = st.noisePos + n := rfl
@[simp] theorem advanceNoise_cmd (n : Nat) : (st.advanceNoise n).cmd = st.cmd := rfl
@[simp] theorem advanceNoise_rsp (n : Nat) : (st.advanceNoise n).rsp = st.rsp := rfl
@[simp] theorem advanceNoise_wave (n : Nat) (q : Reg) : (st.advanceNoise n).wave q = st.wave q := rfl
@[simp] theorem advanceNoise_grid (n : Nat) (q : Reg) : (st.advanceNoise n).grid q = st.grid q := rfl
@[simp] theorem advanceNoise_slot (n : Nat) (q : Reg) (j : Slot) : (st.advanceNoise n).slot q j = st.slot q j := rfl
@[simp] theorem advanceNoise_frame (n : Nat) (q : Reg) : (st.advanceNoise n).frame q = st.frame q := rfl

/-! ### `send` -/

@[simp] theorem send_w (p : RspPacket) : (st.send p).w = st.w := rfl
@[simp] theorem send_g (p : RspPacket) : (st.send p).g = st.g := rfl
@[simp] theorem send_s (p : RspPacket) : (st.send p).s = st.s := rfl
@[simp] theorem send_nvar (p : RspPacket) : (st.send p).nvar = st.nvar := rfl
@[simp] theorem send_err (p : RspPacket) : (st.send p).err = st.err := rfl
@[simp] theorem send_ecmd (p : RspPacket) : (st.send p).ecmd = st.ecmd := rfl
@[simp] theorem send_noisePos (p : RspPacket) : (st.send p).noisePos = st.noisePos := rfl
@[simp] theorem send_cmd (p : RspPacket) : (st.send p).cmd = st.cmd := rfl
@[simp] theorem send_rsp (p : RspPacket) : (st.send p).rsp = st.rsp ++ [p] := rfl
@[simp] theorem send_wave (p : RspPacket) (q : Reg) : (st.send p).wave q = st.wave q := rfl
@[simp] theorem send_grid (p : RspPacket) (q : Reg) : (st.send p).grid q = st.grid q := rfl
@[simp] theorem send_slot (p : RspPacket) (q : Reg) (j : Slot) : (st.send p).slot q j = st.slot q j := rfl
@[simp] theorem send_frame (p : RspPacket) (q : Reg) : (st.send p).frame q = st.frame q := rfl

/-! ### `complete` -/

@[simp] theorem complete_w (data : List Beat) : (st.complete data).w = st.w := rfl
@[simp] theorem complete_g (data : List Beat) : (st.complete data).g = st.g := rfl
@[simp] theorem complete_s (data : List Beat) : (st.complete data).s = st.s := rfl
@[simp] theorem complete_nvar (data : List Beat) : (st.complete data).nvar = st.nvar := rfl
@[simp] theorem complete_err (data : List Beat) : (st.complete data).err = st.err := rfl
@[simp] theorem complete_ecmd (data : List Beat) : (st.complete data).ecmd = st.ecmd := rfl
@[simp] theorem complete_noisePos (data : List Beat) : (st.complete data).noisePos = st.noisePos := rfl
@[simp] theorem complete_cmd (data : List Beat) : (st.complete data).cmd = st.cmd := rfl
@[simp] theorem complete_rsp (data : List Beat) : (st.complete data).rsp = st.rsp ++ [response completed data] := rfl
@[simp] theorem complete_wave (data : List Beat) (q : Reg) : (st.complete data).wave q = st.wave q := rfl
@[simp] theorem complete_grid (data : List Beat) (q : Reg) : (st.complete data).grid q = st.grid q := rfl
@[simp] theorem complete_slot (data : List Beat) (q : Reg) (j : Slot) : (st.complete data).slot q j = st.slot q j := rfl
@[simp] theorem complete_frame (data : List Beat) (q : Reg) : (st.complete data).frame q = st.frame q := rfl

/-! ### `raise` -/

@[simp] theorem raise_w (c : Cause) (word : CmdWord) : (st.raise c word).w = st.w := rfl
@[simp] theorem raise_g (c : Cause) (word : CmdWord) : (st.raise c word).g = st.g := rfl
@[simp] theorem raise_s (c : Cause) (word : CmdWord) : (st.raise c word).s = st.s := rfl
@[simp] theorem raise_nvar (c : Cause) (word : CmdWord) : (st.raise c word).nvar = st.nvar := rfl
@[simp] theorem raise_err (c : Cause) (word : CmdWord) : (st.raise c word).err = errWith st.err c := rfl
@[simp] theorem raise_ecmd (c : Cause) (word : CmdWord) : (st.raise c word).ecmd = word.setWidth 64 := rfl
@[simp] theorem raise_noisePos (c : Cause) (word : CmdWord) : (st.raise c word).noisePos = st.noisePos := rfl
@[simp] theorem raise_cmd (c : Cause) (word : CmdWord) : (st.raise c word).cmd = st.cmd := rfl
@[simp] theorem raise_rsp (c : Cause) (word : CmdWord) : (st.raise c word).rsp = st.rsp ++ [response (causeCode c) []] := rfl
@[simp] theorem raise_wave (c : Cause) (word : CmdWord) (q : Reg) : (st.raise c word).wave q = st.wave q := rfl
@[simp] theorem raise_grid (c : Cause) (word : CmdWord) (q : Reg) : (st.raise c word).grid q = st.grid q := rfl
@[simp] theorem raise_slot (c : Cause) (word : CmdWord) (q : Reg) (j : Slot) : (st.raise c word).slot q j = st.slot q j := rfl
@[simp] theorem raise_frame (c : Cause) (word : CmdWord) (q : Reg) : (st.raise c word).frame q = st.frame q := rfl

/-! ### `takePacket` -/

@[simp] theorem takePacket_w (rest : List CmdPacket) : (st.takePacket rest).w = st.w := rfl
@[simp] theorem takePacket_g (rest : List CmdPacket) : (st.takePacket rest).g = st.g := rfl
@[simp] theorem takePacket_s (rest : List CmdPacket) : (st.takePacket rest).s = st.s := rfl
@[simp] theorem takePacket_nvar (rest : List CmdPacket) : (st.takePacket rest).nvar = st.nvar := rfl
@[simp] theorem takePacket_err (rest : List CmdPacket) : (st.takePacket rest).err = st.err := rfl
@[simp] theorem takePacket_ecmd (rest : List CmdPacket) : (st.takePacket rest).ecmd = st.ecmd := rfl
@[simp] theorem takePacket_noisePos (rest : List CmdPacket) : (st.takePacket rest).noisePos = st.noisePos := rfl
@[simp] theorem takePacket_cmd (rest : List CmdPacket) : (st.takePacket rest).cmd = rest := rfl
@[simp] theorem takePacket_rsp (rest : List CmdPacket) : (st.takePacket rest).rsp = st.rsp := rfl
@[simp] theorem takePacket_wave (rest : List CmdPacket) (q : Reg) : (st.takePacket rest).wave q = st.wave q := rfl
@[simp] theorem takePacket_grid (rest : List CmdPacket) (q : Reg) : (st.takePacket rest).grid q = st.grid q := rfl
@[simp] theorem takePacket_slot (rest : List CmdPacket) (q : Reg) (j : Slot) : (st.takePacket rest).slot q j = st.slot q j := rfl
@[simp] theorem takePacket_frame (rest : List CmdPacket) (q : Reg) : (st.takePacket rest).frame q = st.frame q := rfl

/-! ### `offer` -/

@[simp] theorem offer_w (p : CmdPacket) : (st.offer p).w = st.w := rfl
@[simp] theorem offer_g (p : CmdPacket) : (st.offer p).g = st.g := rfl
@[simp] theorem offer_s (p : CmdPacket) : (st.offer p).s = st.s := rfl
@[simp] theorem offer_nvar (p : CmdPacket) : (st.offer p).nvar = st.nvar := rfl
@[simp] theorem offer_err (p : CmdPacket) : (st.offer p).err = st.err := rfl
@[simp] theorem offer_ecmd (p : CmdPacket) : (st.offer p).ecmd = st.ecmd := rfl
@[simp] theorem offer_noisePos (p : CmdPacket) : (st.offer p).noisePos = st.noisePos := rfl
@[simp] theorem offer_cmd (p : CmdPacket) : (st.offer p).cmd = st.cmd ++ [p] := rfl
@[simp] theorem offer_rsp (p : CmdPacket) : (st.offer p).rsp = st.rsp := rfl
@[simp] theorem offer_wave (p : CmdPacket) (q : Reg) : (st.offer p).wave q = st.wave q := rfl
@[simp] theorem offer_grid (p : CmdPacket) (q : Reg) : (st.offer p).grid q = st.grid q := rfl
@[simp] theorem offer_slot (p : CmdPacket) (q : Reg) (j : Slot) : (st.offer p).slot q j = st.slot q j := rfl
@[simp] theorem offer_frame (p : CmdPacket) (q : Reg) : (st.offer p).frame q = st.frame q := rfl

/-! ### Asserting reset -/

@[simp] theorem assertReset_w : st.assertReset.w = State.reset.w := rfl
@[simp] theorem assertReset_g : st.assertReset.g = State.reset.g := rfl
@[simp] theorem assertReset_s : st.assertReset.s = State.reset.s := rfl
@[simp] theorem assertReset_nvar : st.assertReset.nvar = 0 := rfl
@[simp] theorem assertReset_err : st.assertReset.err = 0 := rfl
@[simp] theorem assertReset_ecmd : st.assertReset.ecmd = 0 := rfl
@[simp] theorem assertReset_noisePos : st.assertReset.noisePos = st.noisePos := rfl
@[simp] theorem assertReset_cmd : st.assertReset.cmd = [] := rfl
@[simp] theorem assertReset_rsp : st.assertReset.rsp = [] := rfl

/-! ### The register a write names -/

@[simp] theorem setWave_wave (d : Reg) (x : List Sample) (q : Reg) :
    (st.setWave d x).wave q = if q = d then x else st.wave q := by
  simp [State.wave, State.setWave, Vector.getElem_set, Fin.ext_iff, eq_comm]

@[simp] theorem setGrid_grid (d : Reg) (x : Vector Sample 8) (q : Reg) :
    (st.setGrid d x).grid q = if q = d then x else st.grid q := by
  simp [State.grid, State.setGrid, Vector.getElem_set, Fin.ext_iff, eq_comm]

@[simp] theorem setGrid_slot (d : Reg) (x : Vector Sample 8) (q : Reg) (j : Slot) :
    (st.setGrid d x).slot q j = if q = d then x[j] else st.slot q j := by
  unfold State.slot
  rw [setGrid_grid]
  split <;> rfl

@[simp] theorem setSlot_grid (d : Reg) (k : Slot) (x : Sample) (q : Reg) :
    (st.setSlot d k x).grid q = if q = d then (st.grid d).set k x else st.grid q :=
  setGrid_grid st d _ q

@[simp] theorem setSlot_slot (d : Reg) (k : Slot) (x : Sample) (q : Reg) (j : Slot) :
    (st.setSlot d k x).slot q j = if q = d ∧ j = k then x else st.slot q j := by
  unfold State.slot
  rw [setSlot_grid]
  by_cases hq : q = d
  · subst hq
    by_cases hj : j = k
    · simp [hj]
    · simp only [if_pos, hj, and_false, if_false, Fin.getElem_fin, Vector.getElem_set]
      exact if_neg fun h => hj (Fin.ext h.symm)
  · simp [hq]

@[simp] theorem setFrame_frame (d : Reg) (v : Frame) (q : Reg) :
    (st.setFrame d v).frame q = if q = d then v else st.frame q := by
  simp [State.frame, State.setFrame, Vector.getElem_set, Fin.ext_iff, eq_comm]

end Sys2Proof.Machine
end

