-- ==== Sys2Proof/Laws/Ops.lean ====
section
/-! SUPPORT. What each shared operation can do, said once. -/

namespace Sys2Proof.Machine

/-! ### Symbols in a frame -/

theorem three_getLsbD (m : Nat) : (3#16).getLsbD m = decide (m < 2) := by
  by_cases h : m < 16
  · revert m; decide
  · rw [BitVec.getLsbD_of_ge _ _ (by omega)]
    exact (decide_eq_false (by omega)).symm

theorem sym_getLsbD (v : Frame) (k : Slot) (n : Nat) :
    (sym v k).getLsbD n = (decide (n < 2) && v.getLsbD (symShift k + n)) := by
  simp [sym, BitVec.getLsbD_extractLsb']

theorem setSym_getLsbD (v : Frame) (k : Slot) (y : Symbol) (n : Nat) (hn : n < 16) :
    (setSym v k y).getLsbD n =
      if symShift k ≤ n ∧ n < symShift k + 2 then y.getLsbD (n - symShift k) else v.getLsbD n := by
  have hs : n - symShift k < 16 := by omega
  simp only [setSym, BitVec.getLsbD_or, BitVec.getLsbD_and, BitVec.getLsbD_not, BitVec.getLsbD_shiftLeft, three_getLsbD,
    BitVec.getLsbD_setWidth, hn, hs, decide_true, Bool.true_and]
  by_cases h1 : n < symShift k
  · simp [h1]
  · by_cases h2 : n < symShift k + 2
    · have : n - symShift k < 2 := by omega
      simp [h1, h2, this, Nat.not_lt.mp h1]
    · have : ¬ n - symShift k < 2 := by omega
      simp [h1, h2, this, BitVec.getLsbD_of_ge y (n - symShift k) (by omega)]

/-- Writing one slot's symbol: that slot reads the symbol, every other slot reads as before. -/
theorem sym_setSym (v : Frame) (k j : Slot) (y : Symbol) : sym (setSym v k y) j = if j = k then y else sym v j := by
  apply BitVec.eq_of_getLsbD_eq
  intro n hn
  have hb : symShift j + n < 16 := by unfold symShift; omega
  rw [sym_getLsbD, setSym_getLsbD _ _ _ _ hb]
  by_cases h : j = k
  · subst h; simp [hn]
  · have hv : j.val ≠ k.val := fun e => h (Fin.ext e)
    have : ¬ (symShift k ≤ symShift j + n ∧ symShift j + n < symShift k + 2) := by
      unfold symShift; omega
    rw [if_neg this, if_neg h, sym_getLsbD, decide_eq_true hn, Bool.true_and]

/-- Packing eight symbols: every slot reads its own. -/
theorem sym_packFrame (y : Slot → Symbol) (k : Slot) : sym (packFrame y) k = y k := by
  simp only [packFrame, allSlots, List.foldl_cons, List.foldl_nil, sym_setSym]
  fin_cases k <;> rfl

/-- A frame is its eight symbols. -/
theorem frame_ext {u v : Frame} (h : ∀ k, sym u k = sym v k) : u = v := by
  apply BitVec.eq_of_getLsbD_eq
  intro n hn
  have key := congrArg (fun z => z.getLsbD (n % 2)) (h ⟨7 - n / 2, by omega⟩)
  have e : symShift ⟨7 - n / 2, by omega⟩ + n % 2 = n := by unfold symShift; simp only; omega
  have hm : n % 2 < 2 := Nat.mod_lt _ (by omega)
  simp only [sym_getLsbD, e, decide_eq_true hm, Bool.true_and] at key
  exact key

/-! ### Responses and faults -/

/-- The header of a response as a number. -/
theorem rspHeader_toNat (c : BitVec 8) (n : Nat) (h : n < 256) : (rspHeader c n).toNat = c.toNat + 256 * n := by
  have hc := c.isLt
  have : (BitVec.ofNat 8 n ++ c).toNat = c.toNat + 256 * n := by
    rw [BitVec.toNat_append, BitVec.toNat_ofNat, Nat.shiftLeft_eq, Nat.mul_comm _ (2 ^ 8),
      ← Nat.two_pow_add_eq_or_of_lt hc]
    omega
  rw [rspHeader, BitVec.toNat_setWidth, this]
  omega

theorem rspCause_response (c : BitVec 8) (data : List Beat) : rspCause (response c data) = c := by
  apply BitVec.eq_of_getLsbD_eq
  intro i hi
  simp only [rspCause, response, rspHeader, BitVec.getLsbD_extractLsb', BitVec.getLsbD_setWidth, BitVec.getLsbD_append, hi,
    Nat.zero_add, decide_true, Bool.true_and, show i < 64 by omega, if_true]

/-- Completing sends one response of cause 0 and writes no register. -/
theorem complete_spec (st : State) (data : List Beat) (h : data.length < 256) :
    Answered st (st.complete data) 0 data :=
  ⟨response completed data, rfl, by simpa [response, completed] using rspHeader_toNat 0 data.length h, rfl⟩

/-- A sticky bit: the cause's bit is set, every other bit of `ERR` is as it was. -/
theorem errWith_getLsbD (e : BitVec 64) (c : Cause) (i : Nat) :
    (errWith e c).getLsbD i = (e.getLsbD i || decide (i = (causeCode c).toNat - 1)) := by
  cases c <;>
  · simp only [errWith, errBit, causeCode, BitVec.getLsbD_or, BitVec.getLsbD_shiftLeft, BitVec.getLsbD_one]
    congr 1
    by_cases hi : i < 64
    · revert i; decide
    · simp [hi]; omega

/-- Raising a fault does what 60_exceptions.md R146 says and nothing else. -/
theorem raise_spec (st : State) (c : Cause) (word : CmdWord) : Raised st (st.raise c word) (causeCode c).toNat word where
  files := ⟨fun _ _ => rfl, fun _ _ => rfl, fun _ _ => rfl⟩
  rest := ⟨rfl, rfl, rfl⟩
  err := errWith_getLsbD st.err c
  ecmd := by
    have := word.isLt
    simp only [raise_ecmd, BitVec.toNat_setWidth]
    omega
  answer := ⟨response (causeCode c) [], rfl, by simpa [response] using rspHeader_toNat (causeCode c) 0 (by omega), rfl⟩

/-- The length check: the command goes on exactly when its source holds 64 Samples. -/
theorem withWaveform_of_length (st : State) (src : Reg) (word : CmdWord) (go : List Sample → Result)
    (h : (st.wave src).length = 64) : withWaveform st src word go = go (st.wave src) := if_pos h

/-- The length check: any other length raises `InvalidLength`. -/
theorem withWaveform_of_not_length (st : State) (src : Reg) (word : CmdWord) (go : List Sample → Result)
    (h : (st.wave src).length ≠ 64) : withWaveform st src word go = .next (st.raise .invalidLength word) := if_neg h

/-! ### Sequences of Samples -/

theorem evens_length {α : Type} : (x : List α) → (evens x).length = (x.length + 1) / 2
  | [] => by simp [evens]
  | [_] => by simp [evens]
  | _ :: _ :: rest => by simp only [evens, List.length_cons, evens_length rest]; omega

theorem odds_length {α : Type} : (x : List α) → (odds x).length = x.length / 2
  | [] => by simp [odds]
  | [_] => by simp [odds]
  | _ :: _ :: rest => by simp only [odds, List.length_cons, odds_length rest]; omega

theorem butterflies_length {α : Type} (bf : Nat → α → α → α × α) (k : Nat) (e o : List α) :
    (butterflies bf k e o).length = min e.length o.length := by
  induction e generalizing k o with
  | nil => cases o <;> simp [butterflies]
  | cons a e ih => cases o with
    | nil => simp [butterflies]
    | cons b o => simp only [butterflies, List.length_cons, ih]; omega

theorem combine_length {α : Type} (bf : Nat → α → α → α × α) (e o : List α) :
    (combine bf e o).length = 2 * min e.length o.length := by
  simp only [combine, List.length_append, List.length_map, butterflies_length]; omega

/-- The transform of `2 ^ level` values has `2 ^ level` values. -/
theorem fftWith_length {α : Type} (bf : Nat → Nat → α → α → α × α) (level : Nat) (x : List α)
    (h : x.length = 2 ^ level) : (fftWith bf level x).length = 2 ^ level := by
  induction level generalizing x with
  | zero => simpa [fftWith] using h
  | succ n ih =>
    have he : (evens x).length = 2 ^ n := by rw [evens_length, h, Nat.pow_succ]; omega
    have ho : (odds x).length = 2 ^ n := by rw [odds_length, h, Nat.pow_succ]; omega
    rw [fftWith, combine_length, ih _ he, ih _ ho, Nat.pow_succ]; omega

theorem applyNoise_length (v : F64) (n : Nat) (x : List Sample) : (applyNoise v n x).length = x.length := by
  induction x generalizing n with
  | nil => rfl
  | cons a x ih => simp [applyNoise, ih]

theorem projectToGrid_length (x : Vector Sample 8) : (projectToGrid x).length = 64 := by
  simp [projectToGrid, allSlots]

theorem waveBeats_length (x : List Sample) : (waveBeats x).length = 2 * x.length := by
  induction x with
  | nil => rfl
  | cons a x ih => simp only [waveBeats, List.flatMap_cons, sampleBeats, List.length_append, List.length_cons,
      List.length_nil] at ih ⊢; omega

/-- What `projectToGrid` puts at each position. -/
theorem projectToGrid_getElem? (x : Vector Sample 8) (j : Nat) :
    (projectToGrid x)[j]? =
      if h : j % 8 = 0 ∧ j < 64 then some x[j / 8] else if j < 64 then some zeroSample else none := by
  by_cases hj : j < 64
  · simp only [projectToGrid, allSlots, List.foldl_cons, List.foldl_nil]
    interval_cases j <;> rfl
  · rw [List.getElem?_eq_none (by rw [projectToGrid_length]; omega)]
    simp [hj]

/-! ### One step -/

/-- A step with a packet waiting: its command runs on the state without the packet, or it is refused as
`IllegalCommand`. -/
theorem step_of_packet (s : State) (p : CmdPacket) (rest : List CmdPacket) (h : s.cmd = p :: rest) :
    (∃ i, decodePacket p = .command i ∧ step s = exec i (s.takePacket rest)) ∨
      (∃ why, decodePacket p = .illegal why ∧
        step s = .next ((s.takePacket rest).raise .illegalCommand p.word)) := by
  unfold step
  rw [h]
  cases hd : decodePacket p with
  | command i => exact .inl ⟨i, rfl, by simp [hd]⟩
  | illegal why => exact .inr ⟨why, rfl, by simp [hd, State.reject]⟩

/-- A step with no packet waiting changes nothing. -/
theorem step_of_idle (s : State) (h : s.cmd = []) : step s = .next s := by
  unfold step
  rw [h]

/-! ### One tick of the station -/

/-- A tick with no inbound Waveform sends nothing to the block and keeps the table. -/
theorem tick_none (st : Station) (b : State) : st.tick b none = ⟨st, b, none, true⟩ := rfl

/-- Every tick ends by clearing the inbound buffer, regardless of branch taken (48_host_context.md R129). -/
@[simp] theorem tick_cleared (st : Station) (b : State) (inbound : Option (List Sample)) :
    (st.tick b inbound).cleared = true := by
  cases inbound with
  | none => rfl
  | some x =>
    simp only [Station.tick]
    split
    · split <;> rfl
    · rfl

end Sys2Proof.Machine
end

