-- ==== Sys2Proof/Laws/PerInstr.lean ====
section
/-! SUPPORT. Statements about every command, one lemma per constructor. -/

namespace Sys2Proof.Laws.EncodedWellFormed

/-- The packet of a command is well formed: its unused bits are zero and it has the payload its opcode asks for. -/
def Statement (i : Instr) : Prop := (encode i).wellFormed = true

/-- A slot index in the `idx` field is below 8. -/
theorem slotField_lt (k : Slot) : (slotField k).toNat < 8 := by revert k; decide

/-- A symbol in the `imm16` field is below 4. -/
theorem symbol_lt (v : Symbol) : v.toNat % 65536 < 4 := by revert v; decide

theorem fft (d : Reg) (s : Reg) : Statement (.fft d s) := by
  simp [Statement, CmdPacket.wellFormed, encode, encodeWord, encodePayload, requiredPayload]

theorem ifft (d : Reg) (s : Reg) : Statement (.ifft d s) := by
  simp [Statement, CmdPacket.wellFormed, encode, encodeWord, encodePayload, requiredPayload]

theorem mod (d : Reg) (k : Slot) (v : Symbol) : Statement (.mod d k v) := by
  simp [Statement, CmdPacket.wellFormed, encode, encodeWord, encodePayload, requiredPayload, slotField_lt, symbol_lt]

theorem modv (d : Reg) (s : Reg) : Statement (.modv d s) := by
  simp [Statement, CmdPacket.wellFormed, encode, encodeWord, encodePayload, requiredPayload]

theorem dem (d : Reg) (s : Reg) (k : Slot) : Statement (.dem d s k) := by
  simp [Statement, CmdPacket.wellFormed, encode, encodeWord, encodePayload, requiredPayload, slotField_lt]

theorem demv (d : Reg) (s : Reg) : Statement (.demv d s) := by
  simp [Statement, CmdPacket.wellFormed, encode, encodeWord, encodePayload, requiredPayload]

theorem proj (d : Reg) (s : Reg) : Statement (.proj d s) := by
  simp [Statement, CmdPacket.wellFormed, encode, encodeWord, encodePayload, requiredPayload]

theorem extr (d : Reg) (s : Reg) : Statement (.extr d s) := by
  simp [Statement, CmdPacket.wellFormed, encode, encodeWord, encodePayload, requiredPayload]

theorem noise (d : Reg) (s : Reg) : Statement (.noise d s) := by
  simp [Statement, CmdPacket.wellFormed, encode, encodeWord, encodePayload, requiredPayload]

theorem wclr (d : Reg) : Statement (.wclr d) := by
  simp [Statement, CmdPacket.wellFormed, encode, encodeWord, encodePayload, requiredPayload]

theorem wpush (d : Reg) (x : Sample) : Statement (.wpush d x) := by
  simp [Statement, CmdPacket.wellFormed, encode, encodeWord, encodePayload, requiredPayload]

theorem wout (s : Reg) : Statement (.wout s) := by
  simp [Statement, CmdPacket.wellFormed, encode, encodeWord, encodePayload, requiredPayload]

theorem gwr (d : Reg) (k : Slot) (x : Sample) : Statement (.gwr d k x) := by
  simp [Statement, CmdPacket.wellFormed, encode, encodeWord, encodePayload, requiredPayload, slotField_lt]

theorem grd (s : Reg) (k : Slot) : Statement (.grd s k) := by
  simp [Statement, CmdPacket.wellFormed, encode, encodeWord, encodePayload, requiredPayload, slotField_lt]

theorem sld (d : Reg) (v : Frame) : Statement (.sld d v) := by
  simp [Statement, CmdPacket.wellFormed, encode, encodeWord, encodePayload, requiredPayload]

theorem srd (s : Reg) : Statement (.srd s) := by
  simp [Statement, CmdPacket.wellFormed, encode, encodeWord, encodePayload, requiredPayload]

theorem crd (n : Csr) : Statement (.crd n) := by
  simp [Statement, CmdPacket.wellFormed, encode, encodeWord, encodePayload, requiredPayload]

theorem cwr (n : Csr) (v : BitVec 64) : Statement (.cwr n v) := by
  simp [Statement, CmdPacket.wellFormed, encode, encodeWord, encodePayload, requiredPayload]

end Sys2Proof.Laws.EncodedWellFormed
end

