-- ==== Sys2Proof/Tests/Slice0.lean ====
section
/-! SUPPORT. Tests of the model: every expected result is a vector or an example of spec/ (95_test_vectors.md, or the rule named),
or is worked out by hand from a rule. After them, for each statement with hypotheses, states and operands that meet them. -/

namespace Sys2Proof.Tests

open Sys2Proof Sys2Proof.Machine

/-! ### Helpers -/

/-- The packet of a command beat and its payload. -/
def pkt (beat : Beat) (payload : List Beat) : CmdPacket := ⟨beat, payload⟩

/-- The state with one packet waiting. -/
def waiting (s : State) (beat : Beat) (payload : List Beat) : State := s.offer (pkt beat payload)

/-- The state one step leaves. -/
def stepped (s : State) : State :=
  match step s with
  | .next t => t
  | .fault f => nomatch f
  | .refused _ => s

/-- The state after one packet. -/
def run (s : State) (beat : Beat) (payload : List Beat := []) : State := stepped (waiting s beat payload)

/-- The last response as its header and its data. -/
def answer (s : State) : Option (Beat × List Beat) := s.rsp.getLast?.map fun p => (p.header, p.data)

/-- What DV1 lists of a packet given to the block just after reset: the response's header, `ERR` and `ECMD`. -/
def verdict (beat : Beat) (payload : List Beat := []) : Option Beat × BitVec 64 × BitVec 64 :=
  let t := run State.reset beat payload
  ((answer t).map Prod.fst, t.err, t.ecmd)

/-- Reset, with 64 equal Samples in `W[1]`. -/
def full (x : Sample) : State := State.reset.setWave 1 (List.replicate 64 x)

/-- `1.0`. -/
def one : F64 := 0x3FF0000000000000

/-! ### Decoding: words written out from the encoding (DV2) -/

theorem test_decode_fft : decodePacket (pkt 0x10400000 []) = .command (.fft 1 0) := by decide
theorem test_decode_ifft : decodePacket (pkt 0x11800000 []) = .command (.ifft 2 0) := by decide
theorem test_decode_mod : decodePacket (pkt 0x20030002 []) = .command (.mod 0 3 2) := by decide
theorem test_decode_modv : decodePacket (pkt 0x21000000 []) = .command (.modv 0 0) := by decide
theorem test_decode_dem : decodePacket (pkt 0x22120000 []) = .command (.dem 0 1 2) := by decide
theorem test_decode_demv : decodePacket (pkt 0x23400000 []) = .command (.demv 1 0) := by decide
theorem test_decode_proj : decodePacket (pkt 0x30000000 []) = .command (.proj 0 0) := by decide
theorem test_decode_extr : decodePacket (pkt 0x31900000 []) = .command (.extr 2 1) := by decide
theorem test_decode_noise : decodePacket (pkt 0x40900000 []) = .command (.noise 2 1) := by decide
theorem test_decode_wclr : decodePacket (pkt 0x50C00000 []) = .command (.wclr 3) := by decide
theorem test_decode_wpush : decodePacket (pkt 0x51000000 [one, 0]) = .command (.wpush 0 ⟨one, 0⟩) := by decide
theorem test_decode_wout : decodePacket (pkt 0x52100000 []) = .command (.wout 1) := by decide
theorem test_decode_gwr : decodePacket (pkt 0x53470000 [0xBFE0000000000000, 0x3FD0000000000000]) =
    .command (.gwr 1 7 ⟨0xBFE0000000000000, 0x3FD0000000000000⟩) := by decide
theorem test_decode_grd : decodePacket (pkt 0x54250000 []) = .command (.grd 2 5) := by decide
theorem test_decode_sld : decodePacket (pkt 0x5500AC40 []) = .command (.sld 0 0xAC40) := by decide
theorem test_decode_srd : decodePacket (pkt 0x56100000 []) = .command (.srd 1) := by decide
theorem test_decode_crd : decodePacket (pkt 0x60010000 []) = .command (.crd 1) := by decide
theorem test_decode_cwr : decodePacket (pkt 0x61000000 [0x3F847AE147AE147B]) = .command (.cwr 0 0x3F847AE147AE147B) := by decide

/-- The largest register fields (DV2). -/
theorem test_decode_largest_fields : decodePacket (pkt 0x10F00000 []) = .command (.fft 3 3) ∧
    decodePacket (pkt 0x22F70000 []) = .command (.dem 3 3 7) ∧ decodePacket (pkt 0x55C0FFFF []) = .command (.sld 3 0xFFFF) := by decide

/-- The encoder's words are those of DV2. -/
theorem test_encode_words : encodeWord (.fft 1 0) = 0x10400000 ∧ encodeWord (.mod 0 3 2) = 0x20030002 ∧
    encodeWord (.dem 0 1 2) = 0x22120000 ∧ encodeWord (.gwr 1 7 ⟨0, 0⟩) = 0x53470000 ∧ encodeWord (.srd 1) = 0x56100000 ∧
    encodeWord (.crd 1) = 0x60010000 := by decide

/-- The host's numbering: the payload beats are the bits above the command beat (log entry 7). -/
theorem test_table_word : decodeTableWord 32 0x10400000 = some (.fft 1 0) ∧
    decodeTableWord 192 (0x51000000 + 2 ^ 64 * 0x3FF0000000000000 + 2 ^ 128 * 5) = some (.wpush 0 ⟨one, 5⟩) ∧
    decodeTableWord 32 0x53470000 = some (.gwr 1 7 ⟨0, 0⟩) ∧ decodeTableWord 32 0x10410000 = none := by decide

/-! ### Packets that are no command, each refused for its reason (30_encoding.md R57) -/

theorem test_refuse_upper_bits : decodePacket (pkt 0x0000000110400000 []) = .illegal .upperBits := by decide
theorem test_refuse_unassigned : ([0x00000000, 0x12000000, 0x24000000, 0x32000000, 0x41000000, 0x57000000, 0x62000000, 0xFFFFFFFF] : List Beat).all (fun w => decide (decodePacket (pkt w []) = .illegal .noRow)) = true := by decide +kernel
theorem test_refuse_unused_bits : ([0x10410000, 0x10400001, 0x20080000, 0x20000004, 0x20100000, 0x22120001, 0x221A0000, 0x50100000,
    0x52400000, 0x54280000, 0x55100000, 0x56100001, 0x60400000] : List Beat).all (fun w => decide (decodePacket (pkt w []) = .illegal .noRow)) = true := by decide +kernel
theorem test_refuse_payload_count : ∀ p ∈ [pkt 0x51000000 [one], pkt 0x51000000 [1, 2, 3], pkt 0x51000000 [], pkt 0x50000000 [0],
    pkt 0x61000000 [], pkt 0x61000000 [0, 0], pkt 0x53000000 [0]], decodePacket p = .illegal .payloadCount := by decide +kernel

/-! ### WellFormed: one ill-formed packet for each check -/

theorem test_wf_accepts : ∀ p ∈ [pkt 0x10400000 [], pkt 0x20030002 [], pkt 0x51000000 [one, 0], pkt 0x61000000 [0], pkt 0x600F0000 []],
    p.wellFormed = true := by decide +kernel
theorem test_wf_upper_bits : (pkt 0x0000000110400000 []).wellFormed = false := by decide
theorem test_wf_opcode : (pkt 0x12000000 []).wellFormed = false := by decide
theorem test_wf_idx : ([0x10010000, 0x11010000, 0x21010000, 0x23010000, 0x30010000, 0x31010000, 0x40010000, 0x50010000, 0x52010000,
    0x55010000, 0x56010000] : List Beat).all (fun w => (pkt w []).wellFormed == false) = true := by decide +kernel
theorem test_wf_slot : ([0x20080000, 0x22080000, 0x54080000] : List Beat).all (fun w => (pkt w []).wellFormed == false) = true := by decide +kernel
theorem test_wf_imm : ([0x10000001, 0x11000001, 0x20000004, 0x21000001, 0x22000001, 0x23000001, 0x30000001, 0x31000001, 0x40000001,
    0x50000001, 0x52000001, 0x54000001, 0x56000001, 0x60000001] : List Beat).all (fun w => (pkt w []).wellFormed == false) = true := by decide +kernel
theorem test_wf_rs : ([0x20100000, 0x50100000, 0x55100000, 0x60100000] : List Beat).all (fun w => (pkt w []).wellFormed == false) = true := by decide +kernel
theorem test_wf_rd : ([0x52400000, 0x54400000, 0x56400000, 0x60400000] : List Beat).all (fun w => (pkt w []).wellFormed == false) = true := by decide +kernel
theorem test_wf_loaded : ([0x51100000, 0x51010000, 0x51000001, 0x53100000, 0x53080000, 0x53000001] : List Beat).all (fun w => (pkt w [0, 0]).wellFormed == false) = true := by decide +kernel
theorem test_wf_cwr : ([0x61400000, 0x61100000, 0x61000001] : List Beat).all (fun w => (pkt w [0]).wellFormed == false) = true := by decide +kernel
theorem test_wf_payload : ∀ p ∈ [pkt 0x51000000 [one], pkt 0x50000000 [0], pkt 0x61000000 []], p.wellFormed = false := by decide +kernel

/-! ### Transform (R71, R72, T vectors) -/

/-- The example of R71: 64 Samples (1, 0) become (64, 0) and zeros. -/
theorem test_fft_ones : ((run (full ⟨one, 0⟩) 0x10500000).wave 1)[0]? = some ⟨0x4050000000000000, 0⟩ ∧
    ((run (full ⟨one, 0⟩) 0x10500000).wave 1)[33]?.map (fun x => sampleSame x zeroSample) = some true := by decide +kernel

/-- DV1: an empty source raises `InvalidLength`. -/
theorem test_fft_length : verdict 0x10400000 = (some 1, 1, 0x10400000) := by decide

/-- The example of R72: the imaginary zero of the first Sample is negative. -/
theorem test_ifft_ones : ((run (full ⟨one, 0⟩) 0x11900000).wave 2)[0]? = some ⟨one, 0x8000000000000000⟩ := by decide +kernel

/-! ### Modem (M1, M3, M5, M6) -/

theorem test_mod : ((run State.reset 0x20030002).slot 0 3, (run State.reset 0x20030002).slot 0 2) =
    (⟨0xBFE6A09E667F3BCD, 0x3FE6A09E667F3BCD⟩, ⟨0, 0⟩) := by decide
theorem test_modv : let t := run (State.reset.setFrame 0 0xAC40) 0x21000000
    (t.slot 0 0, t.slot 0 2, t.slot 0 4, t.slot 0 7) = (⟨0xBFE6A09E667F3BCD, 0x3FE6A09E667F3BCD⟩, ⟨0xBFE6A09E667F3BCD, 0xBFE6A09E667F3BCD⟩,
      ⟨0x3FE6A09E667F3BCD, 0xBFE6A09E667F3BCD⟩, ⟨0x3FE6A09E667F3BCD, 0x3FE6A09E667F3BCD⟩) := by decide
theorem test_dem : (run ((State.reset.setFrame 0 0xFFFF).setSlot 1 2 ⟨one, 0xBFF0000000000000⟩) 0x22120000).frame 0 = 0xF7FF := by decide
theorem test_dem_corners : (run (State.reset.setSlot 1 2 ⟨0x8000000000000001, 0x8000000000000000⟩) 0x22120000).frame 0 = 0x0800 ∧
    (run (State.reset.setSlot 1 2 ⟨0xFFF8000000000000, 0xFFF0000000000000⟩) 0x22120000).frame 0 = 0x0400 := by decide
theorem test_demv : (run ((State.reset.setSlot 1 0 ⟨0xC000000000000000, 0xC008000000000000⟩).setSlot 1 7
    ⟨0x4000000000000000, 0xC008000000000000⟩) 0x23900000).frame 2 = 0xC001 := by decide
theorem test_demv_all_bits : (run (State.reset.setFrame 2 0xBEEF) 0x23B00000).frame 2 = 0 := by decide

/-! ### Grid mapper (GR1, GR3, GR5) -/

theorem test_proj : let t := run ((State.reset.setSlot 0 1 ⟨0x4000000000000000, 0⟩).setSlot 0 7 ⟨0x7FF8000000000001, 0x8000000000000000⟩) 0x30000000
    ((t.wave 0).length, (t.wave 0)[8]?, (t.wave 0)[56]?, (t.wave 0)[57]?) =
      (64, some ⟨0x4000000000000000, 0⟩, some ⟨0x7FF8000000000001, 0x8000000000000000⟩, some ⟨0, 0⟩) := by decide
theorem test_extr : let s := State.reset.setWave 1 ((List.range 64).map fun j => ⟨BitVec.ofNat 64 j, BitVec.ofNat 64 (100 + j)⟩)
    ((run s 0x31900000).slot 2 0, (run s 0x31900000).slot 2 7) = (⟨0, 100⟩, ⟨56, 156⟩) := by decide
theorem test_extr_length : verdict 0x31000000 = (some 1, 1, 0x31000000) := by decide

/-! ### Noise (NZ1, NZ3) -/

theorem test_noise_zero_variance : ((run (full ⟨one, 0x8000000000000000⟩) 0x40900000).wave 2)[63]? = some ⟨one, 0⟩ := by decide +kernel
theorem test_noise_variance_negative : (run ((full ⟨0, 0⟩).setNvar 0x8000000000000001) 0x40900000).err = 4 := by decide +kernel
theorem test_noise_variances : (([0x8000000000000001, 0xBFF0000000000000, 0x7FF0000000000000, 0xFFF0000000000000, 0x7FF8000000000000,
    0xFFF8000000000001, 0x7FF0000000000001] : List Beat).all (fun v => nvarUsable v == false) = true) ∧ (([0, 0x8000000000000000, 1, 0x3F847AE147AE147B, 0x7E37E43C8800759C] : List Beat).all (fun v => nvarUsable v == true) = true) := by decide +kernel

/-! ### Data movement (DM1 to DM6) -/

theorem test_wclr : (run (full ⟨0, 0⟩) 0x50400000).wave 1 = [] := by decide
theorem test_wpush : (run State.reset 0x51000000 [one, 0]).wave 0 = [⟨one, 0⟩] := by decide
theorem test_wpush_full : let t := run (full ⟨0, 0⟩) 0x51400000 [one, one]
    ((t.wave 1).length, answer t, t.err, t.ecmd) = (64, some (1, []), 1, 0x51400000) := by decide
theorem test_wout : answer (run (State.reset.setWave 3 [⟨0x3FF8000000000000, 0xC004000000000000⟩, ⟨0x7FF8000000000001, 0xFFF0000000000000⟩])
    0x52300000) = some (0x400, [0x3FF8000000000000, 0xC004000000000000, 0x7FF8000000000001, 0xFFF0000000000000]) := by decide
theorem test_wout_empty : answer (run State.reset 0x52300000) = some (0, []) := by decide
theorem test_gwr : (run State.reset 0x53470000 [0xBFE0000000000000, 0x3FD0000000000000]).slot 1 7 =
    ⟨0xBFE0000000000000, 0x3FD0000000000000⟩ := by decide
theorem test_grd : answer (run (State.reset.setSlot 1 7 ⟨0xBFE0000000000000, 0x3FD0000000000000⟩) 0x54170000) =
    some (0x200, [0xBFE0000000000000, 0x3FD0000000000000]) := by decide
theorem test_sld : (run State.reset 0x55C0FFFF).frame 3 = 0xFFFF := by decide
theorem test_srd : answer (run (State.reset.setFrame 3 0xFFFF) 0x56300000) = some (0x100, [0xFFFF]) := by decide

/-! ### System and faults (SY1, SY2, DV1) -/

theorem test_crd : answer (run (State.reset.setNvar 0x3F847AE147AE147B) 0x60000000) = some (0x100, [0x3F847AE147AE147B]) := by decide
theorem test_crd_illegal : verdict 0x60030000 = (some 2, 2, 0x60030000) := by decide
theorem test_cwr : (run State.reset 0x61000000 [0x7FF8000000000001]).nvar = 0x7FF8000000000001 := by decide
theorem test_cwr_read_only : verdict 0x61020000 [5] = (some 2, 2, 0x61020000) := by decide

/-- DV1: `ECMD` keeps only bits 31:0 of the beat. -/
theorem test_fault_upper_bits : verdict 0x0000000110400000 = (some 2, 2, 0x10400000) := by decide

/-- SY3: a second fault adds its bit to `ERR` and replaces `ECMD`. -/
theorem test_faults_accumulate : let t := run (run State.reset 0x10400000) 0x00000000
    (t.err, t.ecmd, t.rsp.length) = (3, 0, 2) := by decide

/-! ### Binary64 arithmetic (T vectors, NZ2) and the assembler's literals (30_encoding.md R63) -/

/-- NZ2: the rounding examples of a sum. -/
theorem test_fadd : fadd 0x4341C37937E08000 0x3FF0000000000000 = 0x4341C37937E08000 ∧
    fadd 0x4341C37937E08000 0x4008000000000000 = 0x4341C37937E08002 ∧
    fadd 0x3FB999999999999A 0x3FC999999999999A = 0x3FD3333333333334 ∧
    fadd 0x3FE6A09E667F3BCD 0xBFF8000000000000 = 0xBFE95F619980C433 := by decide +kernel

/-- The twiddle of each step size (R66): `tw(8, 1) = T[8]`, `tw(4, 1) = T[16]`, `tw(32, 3) = T[6]`. -/
theorem test_twiddles : tw 3 1 = ⟨0x3FE6A09E667F3BCD, 0xBFE6A09E667F3BCD⟩ ∧ tw 2 1 = ⟨0, 0xBFF0000000000000⟩ ∧
    tw 5 3 = ⟨0x3FEA9B66290EA1A3, 0xBFE1C73B39AE68C8⟩ := by decide

/-- A literal is the nearest binary64: 0.01 (SY2). -/
theorem test_literal : parseF64 ['0', '.', '0', '1'] = some 0x3F847AE147AE147B := by decide +kernel

/-- `WLOAD W1 <-` with no Sample is its `WCLR` (log entry 20). -/
theorem test_wload_none : assembleLine ['W', 'L', 'O', 'A', 'D', ' ', 'W', '1', ' ', '<', '-'] =
    some [pkt 0x50400000 []] := by decide +kernel

/-- `MOD G0, 3, 0b10` (R61, DV2). -/
theorem test_assemble : assembleLine ['M', 'O', 'D', ' ', 'G', '0', ',', ' ', '3', ',', ' ', '0', 'b', '1', '0'] =
    some [pkt 0x20030002 []] := by decide +kernel

/-- H3 row 1 and row 4: a grant, and the sentinel when no slot is free. -/
theorem test_dispatch : (Station.allFree.dispatch 0x0C00).1 = some 0x8C40 ∧
    (((Station.allFree.dispatch 0x0C00).2.dispatch 0x1C00).2.dispatch 0x2C00).1 = some 0xA5C0 := by decide +kernel

/-- H5: the bit-field formula of R139 and the forwarded frame, run (6, 2); and a run that includes slots 1 and 2, where the
identifiers stand (R126, R170 (c)). -/
theorem test_forward : fieldFrame 3 2 5 ⟨6, 2⟩ = 0x7805 ∧ dataFrame 3 2 5 ⟨6, 2⟩ = 0x7805 ∧ dataFrame 1 0 11 ⟨1, 2⟩ = 0x5000 := by
  decide +kernel

/-! ### What reset leaves to the first step (log entry 6) -/

theorem test_fetch_word : (stepped (State.reset.withFetchWord 32 0x20030002)).slot 0 3 =
    ⟨0xBFE6A09E667F3BCD, 0x3FE6A09E667F3BCD⟩ := by decide

/-! ### Witnesses: for each statement with hypotheses, states and operands that meet all of them together

Where a statement has several clauses, there is a witness for each, at the boundary values. -/

/-- `n` zero Samples in `W[1]`. -/
def holding (n : Nat) : State := State.reset.setWave 1 (List.replicate n zeroSample)

/-- AcceptedPacketsAreTheEncodings. -/
theorem witness_accepted : ∃ p i, decodePacket p = .command i := ⟨pkt 0x10400000 [], .fft 1 0, by decide⟩

/-- OpcodeRowsAreDisjoint. -/
theorem witness_row_selected : ∃ (i : Nat) (r : Row) (w : CmdWord), opcodeMap[i]? = some r ∧ r.selects w = true :=
  ⟨17, _, 0x610F0000, rfl, by decide⟩

/-- UpperBitsOfTheBeatMustBeZero, at the lowest and the highest such beat. -/
theorem witness_upper_bits : ∃ s s' : State, (∃ p rest, s.cmd = p :: rest ∧ p.head = 0x0000000100000000 ∧ p.head.toNat / 2 ^ 32 ≠ 0) ∧
    ∃ p rest, s'.cmd = p :: rest ∧ p.head = 0xFFFFFFFFFFFFFFFF ∧ p.head.toNat / 2 ^ 32 ≠ 0 :=
  ⟨waiting State.reset 0x0000000100000000 [], waiting State.reset 0xFFFFFFFFFFFFFFFF [],
    ⟨_, _, rfl, rfl, by decide⟩, ⟨_, _, rfl, rfl, by decide⟩⟩

/-- PayloadCountIsFixedByTheOpcode, first clause: one beat too few and one too many, for each count. -/
theorem witness_payload_count : ∀ q ∈ [(pkt 0x51000000 [0], 2), (pkt 0x51000000 [0, 0, 0], 2), (pkt 0x53000000 [0], 2),
    (pkt 0x61000000 [], 1), (pkt 0x61000000 [0, 0], 1), (pkt 0x10000000 [0], 0)],
    (let opcode := q.1.word.toNat / 2 ^ 24
     (if opcode = 0x51 ∨ opcode = 0x53 then 2 else if opcode = 0x61 then 1 else 0) = q.2) ∧ q.1.payload.length ≠ q.2 := by decide

/-- PayloadCountIsFixedByTheOpcode, second clause: the lowest, the highest and an inner unassigned opcode. -/
theorem witness_unassigned_opcode : ∀ p ∈ [pkt 0x00000000 [], pkt 0xFF000000 [], pkt 0x12000000 []],
    p.word.toNat / 2 ^ 24 ∉ [0x10, 0x11, 0x20, 0x21, 0x22, 0x23, 0x30, 0x31, 0x40, 0x50, 0x51, 0x52, 0x53, 0x54, 0x55, 0x56, 0x60, 0x61] ∧
    (waiting State.reset p.head p.payload).cmd = [p] := by decide

/-- PacketsThatAreNoCommandRaiseIllegalCommand, for each reason. -/
theorem witness_illegal : ∀ why : DecodeError, ∃ (s : State) (p : CmdPacket) (rest : List CmdPacket),
    s.cmd = p :: rest ∧ decodePacket p = .illegal why
  | .upperBits => ⟨waiting State.reset 0x0000000110400000 [], _, _, rfl, by decide⟩
  | .noRow => ⟨waiting State.reset 0 [], _, _, rfl, by decide⟩
  | .payloadCount => ⟨waiting State.reset 0x50000000 [0], _, _, rfl, by decide⟩

/-- StepRunsTheDecodedCommand. -/
theorem witness_decoded_packet : ∃ (s : State) (p : CmdPacket) (rest : List CmdPacket) (i : Instr),
    s.cmd = p :: rest ∧ decodePacket p = .command i := ⟨waiting State.reset 0x20030002 [], _, _, .mod 0 3 2, rfl, by decide⟩

/-- IdleStepKeepsTheState and the second clause of OneResponseForEachPacket. -/
theorem witness_idle : ∃ s t : State, s.cmd = [] ∧ step s = .next t := ⟨State.reset, _, rfl, rfl⟩

/-- The first clause of OneResponseForEachPacket, with two packets waiting. -/
theorem witness_two_packets : ∃ (s : State) (p q : CmdPacket), s.cmd = p :: [q] :=
  ⟨(waiting State.reset 0x20030002 []).offer (pkt 0 []), _, _, rfl⟩

/-- EveryStepKeepsTheInvariant, at 63 Samples becoming 64. -/
theorem witness_invariant_step : ∃ s t : State, s.Inv ∧ step s = .next t ∧ (t.wave 1).length = 64 :=
  ⟨waiting (holding 63) 0x51400000 [one, 0], _, by decide, rfl, by decide⟩

/-- ResetValues, both ways, asserted with a packet and a response waiting. -/
theorem witness_reset : (∃ t, t = State.reset) ∧ ∃ t s : State, t = s.assertReset ∧ s.nvar ≠ 0 ∧ s.cmd ≠ [] ∧ s.rsp ≠ [] :=
  ⟨⟨_, rfl⟩, _, waiting (run (State.reset.setNvar 1) 0x20030002) 0x20030002 [], rfl, by decide, by decide, by decide⟩

/-- FaultsArePrecise, for each cause. -/
theorem witness_fault : ∀ q ∈ [(holding 63, pkt 0x10900000 [], 1#8), (holding 64, pkt 0x60030000 [], 2#8),
    ((holding 64).setNvar 0xBFF0000000000000, pkt 0x40900000 [], 3#8)],
    ((stepped (q.1.offer q.2.1)).rsp.getLast?.map rspCause) = some q.2.2 := by decide +kernel

/-- The hypotheses of FaultsArePrecise in its own words. -/
theorem witness_fault_step : ∃ (s t : State) (p : CmdPacket) (rest : List CmdPacket) (r : RspPacket),
    s.cmd = p :: rest ∧ step s = .next t ∧ t.rsp = s.rsp ++ [r] ∧ rspCause r ≠ 0 :=
  ⟨waiting State.reset 0x10400000 [], _, _, _, _, rfl, rfl, rfl, by decide⟩

/-- ErrorBitsAreSticky: a step from a state with a bit set, and a step whose one response has no cause. -/
theorem witness_sticky : ∃ s t : State, step s = .next t ∧ s.err.getLsbD 0 = true ∧ s.err.getLsbD 2 = true ∧
    (∀ r, t.rsp = s.rsp ++ [r] → rspCause r = 0) :=
  ⟨waiting { State.reset with err := 5 } 0x20030002 [], _, rfl, by decide, by decide, fun r h => by
    have e : response completed [] = r := by injection h
    subst e; decide⟩

/-- OnlyCwrChangesTheVariance. -/
theorem witness_variance_changes : ∃ s t : State, step s = .next t ∧ t.nvar ≠ s.nvar :=
  ⟨waiting State.reset 0x61000000 [one], _, rfl, by decide⟩

/-- CommandsWriteOnlyWhatTheTableLists: a command that completes, and one that faults. -/
theorem witness_command_runs : (∃ (i : Instr) (s t : State), exec i s = .next t ∧ t.err = 0) ∧
    ∃ (i : Instr) (s t : State), exec i s = .next t ∧ t.err = 1 :=
  ⟨⟨.wclr 0, State.reset, _, rfl, by decide⟩, .extr 0 0, State.reset, _, rfl, by decide⟩

/-- EffectsDependOnlyOnTheListedReads: two states that agree on what `PROJ W0, G1` reads and differ elsewhere. -/
theorem witness_agree : ∃ (i : Instr) (s s' : State), AgreeOnReads i s s' ∧ s ≠ s' :=
  ⟨.proj 0 1, State.reset, State.reset.setNvar 1, ⟨by decide, by decide, by decide, by decide, by decide⟩, by decide⟩

/-- RoundingIsNearestTiesToEven: below and at the overflow threshold, and a tie. -/
theorem witness_rounding : fIsFinite (fRound false ((2 ^ 54 - 1) * 2 ^ 2044 - 1) 1) = true ∧
    fIsFinite (fRound false ((2 ^ 54 - 1) * 2 ^ 2044) 1) = false ∧ fUnits 0 ≠ fUnits 1 ∧
    ((1 : Int) - 2 * fUnits 0).natAbs = ((1 : Int) - 2 * fUnits 1).natAbs ∧ fRound false 1 2 = 0 := by decide +kernel

/-- OperationsAreCorrectlyRounded, the clauses of `IsRounded` for a sum: below the threshold, at it, and at a tie (1 + 2^-53 lies as
near to 1 as to the next value). -/
theorem witness_rounded_sum :
    (fIsFinite 0x7FEFFFFFFFFFFFFF = true ∧ fIsFinite 0x7C8FFFFFFFFFFFFF = true ∧ fIsFinite 0x7C90000000000000 = true) ∧
    (fInt 0x7FEFFFFFFFFFFFFF + fInt 0x7C8FFFFFFFFFFFFF).natAbs < Claims.overflowUnits * 1 ∧
    Claims.overflowUnits * 1 = (fInt 0x7FEFFFFFFFFFFFFF + fInt 0x7C90000000000000).natAbs ∧
    fInt 0x3FF0000000000001 ≠ fInt one ∧ (fInt 0x3FF0000000000001 * 1 - (fInt one + fInt 0x3CA0000000000000)).natAbs =
      (fInt (fadd one 0x3CA0000000000000) * 1 - (fInt one + fInt 0x3CA0000000000000)).natAbs := by decide +kernel

/-- The same for a difference that overflows downwards, a product at each side, and a quotient halfway between 0 and the smallest
subnormal. -/
theorem witness_rounded_others : Claims.overflowUnits * 1 ≤ (fInt 0xFFEFFFFFFFFFFFFF - fInt 0x7C90000000000000).natAbs ∧
    (fInt one * fInt one).natAbs < Claims.overflowUnits * 2 ^ 1074 ∧
    Claims.overflowUnits * 2 ^ 1074 ≤ (fInt 0x7FEFFFFFFFFFFFFF * fInt 0xC000000000000000).natAbs ∧
    (fInt 32).natAbs < Claims.overflowUnits * 64 ∧ fInt 1 ≠ fInt (fdiv 32 sixtyFour) ∧
    (fInt 1 * 64 - fInt 32).natAbs = (fInt (fdiv 32 sixtyFour) * 64 - fInt 32).natAbs := by decide +kernel

/-- TwiddlesAreNearestToTheExactFactors: the last entry, and the first and the last factor of a step. -/
theorem witness_twiddle : twiddleRom[31]? = some ⟨0xBFEFD88DA3D12526, 0xBFB917A6BC29B42C⟩ ∧
    (1 ≤ 1 ∧ 1 ≤ 6 ∧ 2 * 0 < 2 ^ 1) ∧ (1 ≤ 6 ∧ 6 ≤ 6 ∧ 2 * 31 < 2 ^ 6) := by decide

/-- The length hypotheses, both sides of 64: FFT, IFFT, EXTR, NOISE, WPUSH, and the sequences of the transform statements. -/
theorem witness_lengths : ((holding 64).wave 1).length = 64 ∧ ((holding 63).wave 1).length ≠ 64 ∧ ((holding 65).wave 1).length ≠ 64 ∧
    ((holding 0).wave 1).length ≠ 64 := by decide

/-- WoutReadsEverySample, at the empty and the full register. -/
theorem witness_wout : ((holding 0).wave 1).length ≤ 64 ∧ ((holding 64).wave 1).length ≤ 64 ∧
    ((holding 64).wave 1)[63]? = some zeroSample := by decide

/-- RecursionOverExactNumbersIsTheFourierTransform, at the last index. -/
theorem witness_complex : (List.replicate 64 (0 : ℂ)).length = 64 ∧ 63 < 64 := ⟨List.length_replicate, by decide⟩

/-- IterativeTransformGivesTheSameBits, NaNInputReachesEveryOutput. -/
theorem witness_nan : ∃ x : List Sample, x.length = 64 ∧ ∃ a ∈ x, hasNaN a = true :=
  ⟨List.replicate 63 zeroSample ++ [⟨0, 0x7FF0000000000001⟩], by decide, _, List.mem_append_right _ (List.mem_singleton_self _),
    by decide⟩

/-- The units of the value 1, as a real number. -/
theorem unitsOfOne_real : ((unitsOfOne : ℤ) : ℝ) = 2 ^ 1074 := by
  have hp : ∀ e : Nat, (((1 <<< e : Nat) : ℤ) : ℝ) = 2 ^ e := fun e => by simp [Nat.shiftLeft_eq]
  exact hp 1074

/-- A word of `n` times the units of 1 stands for the integer `n`. -/
theorem valueOf_of_units {v : F64} {n : ℤ} (h : fInt v = n * unitsOfOne) : Claims.valueOf v = n := by
  have hp : ∀ e : Nat, (n : ℝ) * 2 ^ e / 2 ^ e = n := fun e => mul_div_cancel_right₀ _ (pow_ne_zero e two_ne_zero)
  rw [Claims.valueOf, h, Int.cast_mul, unitsOfOne_real]
  exact hp 1074

/-- The word of 1 stands for the number 1. -/
theorem valueOf_one : Claims.valueOf one = (1 : ℤ) := valueOf_of_units (by decide +kernel)

/-- The word of -2^24 stands for that number. -/
theorem valueOf_least : Claims.valueOf 0xC170000000000000 = (-16777216 : ℤ) := valueOf_of_units (by decide +kernel)

/-- ButterflyIsTheExactOneWhereNothingRounds: a Sample with both parts nonzero, one at the bound. -/
theorem witness_small_integers : Claims.SmallIntegers ⟨one, 0xC170000000000000⟩ :=
  ⟨by decide, 1, -16777216, by norm_num, by norm_num, valueOf_one, valueOf_least⟩

/-- TransformsAreTheFourierTransformUpToRounding: 64 complex Samples of magnitude at most 2^24. -/
theorem witness_within : ∃ (x : List Sample) (m : ℝ), x.length = 64 ∧ m ≤ 2 ^ 990 ∧ ∀ a ∈ x, Claims.Within m a :=
  ⟨List.replicate 64 ⟨one, 0xC170000000000000⟩, 2 ^ 24, by decide, pow_le_pow_right₀ (by norm_num) (by norm_num), fun a h => by
    rw [List.eq_of_mem_replicate h]
    exact ⟨by decide, by rw [valueOf_one]; norm_num, by rw [valueOf_least]; norm_num⟩⟩

/-- TransformOfZerosIsZeros, with zeros of both signs. -/
theorem witness_zeros : ∃ x : List Sample, x.length = 64 ∧ ∀ a ∈ x, sampleSame a zeroSample = true :=
  ⟨List.replicate 64 ⟨0, 0x8000000000000000⟩, by decide, fun a h => by rw [List.eq_of_mem_replicate h]; decide⟩

/-- 64 Samples that are finite on the multiples of 8 and zero elsewhere. -/
def sparse : List Sample := (List.range 64).map fun j => if j % 8 = 0 then ⟨one, 0xC000000000000000⟩ else ⟨0x8000000000000000, 0⟩

/-- SparseInputRepeatsWithPeriodEight. -/
theorem witness_sparse : sparse.length = 64 ∧
    (∀ j < 64, j % 8 ≠ 0 → sampleSame (sparse.getD j zeroSample) zeroSample = true) ∧
    (∀ j < 64, j % 8 = 0 → finiteSample (sparse.getD j zeroSample) = true) := by decide +kernel

/-- ProjectThenExtractIsTheIdentity and NoiseOfZeroVarianceKeepsEveryValue: a full register, and each zero variance. -/
theorem witness_zero_variance : ((holding 64).wave 1).length = 64 ∧ (holding 64).nvar = 0 ∧
    (((holding 64).setNvar 0x8000000000000000).wave 1).length = 64 ∧
    ((holding 64).setNvar 0x8000000000000000).nvar = 0x8000000000000000 := by decide

/-- NoiseAddsOneDrawPerComponent: 64 Samples with a usable variance (the smallest subnormal, the largest finite value) and with an
unusable one (infinity, the smallest negative subnormal). -/
theorem witness_noise : ((holding 64).wave 1).length = 64 ∧
    nvarUsable ((holding 64).setNvar 1).nvar = true ∧ nvarUsable ((holding 64).setNvar 0x7FEFFFFFFFFFFFFF).nvar = true ∧
    nvarUsable ((holding 64).setNvar 0x7FF0000000000000).nvar = false ∧
    nvarUsable ((holding 64).setNvar 0x8000000000000001).nvar = false := by decide

/-- DemWritesTwoBits: the two bits of slot 7 and of slot 0, and a bit of neither. -/
theorem witness_dem_bits : 0 = 14 - 2 * (7 : Slot).val ∧ 15 = 15 - 2 * (0 : Slot).val ∧ 2 < 16 := by decide

/-- CrdReadsARegisterOrRaisesIllegalCommand and CwrWritesTheVarianceOrRaisesIllegalCommand, where the clauses meet. -/
theorem witness_csr : (2 : Csr).toNat ≤ 2 ∧ 2 < (3 : Csr).toNat ∧ 2 < (15 : Csr).toNat ∧ (0 : Csr) = 0 ∧ (1 : Csr) ≠ 0 := by decide

/-- DeallocateFreesExactlyTheRun: a table with an allocation of user 0 and none of user 1. -/
theorem witness_allocation : (Station.allFree.allocate 0 3).2.table[(0 : UserId)] = some ⟨1, 3⟩ ∧
    (Station.allFree.allocate 0 3).2.table[(1 : UserId)] = none := by decide +kernel

/-- The table after user 0 was granted three slots. -/
def leased : Station := (Station.allFree.allocate 0 3).2

/-- StationAllocationsNeverOverlap: a sound table with a live allocation, whose user is granted another. -/
theorem witness_sound : Sound leased ∧ leased.table[(0 : UserId)] = some ⟨1, 3⟩ ∧ (leased.allocate 0 2).1 = some ⟨4, 2⟩ := by
  have e0 : leased.table[(0 : UserId)] = some ⟨1, 3⟩ := by decide +kernel
  have e : ∀ u : UserId, u ≠ 0 → leased.table[u] = none := by decide +kernel
  have only : ∀ (u : UserId) (a : Allocation), leased.table[u] = some a → u = 0 ∧ a = ⟨1, 3⟩ := fun u a h => by
    by_cases hu : u = 0
    · subst hu; rw [e0] at h; exact ⟨rfl, (Option.some.inj h).symm⟩
    · rw [e u hu] at h; cases h
  refine ⟨⟨fun u a h => ?_, fun u a h => ?_, fun u v a b hn h h' => absurd ((only u a h).1.trans (only v b h').1.symm) hn⟩,
    e0, by decide +kernel⟩
  · rw [(only u a h).2]; decide
  · rw [(only u a h).2]; decide +kernel

/-- PayloadIsABitFieldOfTheFrame: the first and the last run of each clause, with the largest payload. -/
theorem witness_runs : (1 ≤ 1 ∧ 1 + 3 ≤ 8 ∧ 63 < 4 ^ 3) ∧ (1 ≤ 7 ∧ 7 + 1 ≤ 8) ∧ (3 ≤ 3 ∧ 3 + 3 ≤ 8) ∧ (3 ≤ 7 ∧ 7 + 1 ≤ 8 ∧ 3 < 4 ^ 1) ∧
    3 ≤ (3 : Slot).val := by decide

end Sys2Proof.Tests
end

