-- ==== Sys2Proof/Proofs/Reset.lean ====
section
/-! PROOFS. What each register reads after power-up and after `rst` (10_state.md R27). Power-up is the case of `rst` asserted in
the reset state, so the values are read off `assertReset` alone. -/

namespace Sys2Proof.Machine

/-! ### After power-up -/

@[simp] theorem reset_wave : ∀ r : Reg, State.reset.wave r = [] := by decide

@[simp] theorem reset_slot (r : Reg) (k : Slot) : State.reset.slot r k = ⟨0, 0⟩ := by
  simp [State.slot, State.grid, State.reset]

@[simp] theorem reset_frame (r : Reg) : State.reset.frame r = 0 := by
  simp [State.frame, State.reset]

/-! ### After `rst` -/

/-- The reset state is what `rst` leaves of it. -/
@[simp] theorem assertReset_reset : State.reset.assertReset = State.reset := rfl

@[simp] theorem assertReset_wave (st : State) (r : Reg) : st.assertReset.wave r = [] := reset_wave r
@[simp] theorem assertReset_slot (st : State) (r : Reg) (k : Slot) : st.assertReset.slot r k = ⟨0, 0⟩ := reset_slot r k
@[simp] theorem assertReset_frame (st : State) (r : Reg) : st.assertReset.frame r = 0 := reset_frame r

/-- A state after power-up or after `rst` is in either case what `rst` leaves of some state. -/
theorem eq_reset_or_assertReset_iff (t : State) :
    (t = State.reset ∨ ∃ s : State, t = s.assertReset) ↔ ∃ s : State, t = s.assertReset := by
  refine or_iff_right_of_imp fun powerUp => ?_
  exact ⟨State.reset, powerUp.trans assertReset_reset.symm⟩

/-- Settles O15: of every state that `rst` leaves, each register and port is read by its own lemma. -/
theorem resetValues : Obligations.ResetValues := by
  intro t fromReset
  obtain ⟨s, rfl⟩ := (eq_reset_or_assertReset_iff t).mp fromReset
  exact ⟨fun r => by rw [assertReset_wave, List.length_nil], assertReset_slot s, assertReset_frame s,
    assertReset_nvar s, assertReset_err s, assertReset_ecmd s, assertReset_cmd s, assertReset_rsp s⟩

end Sys2Proof.Machine
end

