-- ==== Sys2Proof/Proofs/Encoding.lean ====
section
/-! PROOFS. What an accepted packet looks like, field by field of its command beat and in its payload (30_encoding.md R51,
R52): a packet that breaks one of these rules is no command, and the step that takes it raises `IllegalCommand`. -/

namespace Sys2Proof

/-! ### The opcode of a row (30_encoding.md R56) -/

/-- The number of payload beats that an opcode fixes, as 30_encoding.md R51 words it. -/
def payloadCountOf (opcode : Nat) : Nat := if opcode = 0x51 ∨ opcode = 0x53 then 2 else if opcode = 0x61 then 1 else 0

/-- The 18 opcodes that the opcode map assigns. -/
def assignedOpcodes : List Nat :=
  [0x10, 0x11, 0x20, 0x21, 0x22, 0x23, 0x30, 0x31, 0x40, 0x50, 0x51, 0x52, 0x53, 0x54, 0x55, 0x56, 0x60, 0x61]

/-- A mask that holds the whole opcode field lets only words with the pattern's opcode through. -/
theorem Row.opcode_of_selects {r : Row} {w : CmdWord} (mask : r.mask.toNat / 2 ^ 24 = 2 ^ 8 - 1) (selected : r.selects w = true) :
    w.toNat / 2 ^ 24 = r.pattern.toNat / 2 ^ 24 := by
  have masked : w &&& r.mask = r.pattern := eq_of_beq selected
  have topByte : w.toNat / 2 ^ 24 < 2 ^ 8 := by have := w.isLt; omega
  calc w.toNat / 2 ^ 24
      = w.toNat / 2 ^ 24 &&& r.mask.toNat / 2 ^ 24 := by rw [mask, Nat.and_two_pow_sub_one_eq_mod, Nat.mod_eq_of_lt topByte]
    _ = (w.toNat &&& r.mask.toNat) / 2 ^ 24 := (Nat.and_div_two_pow ..).symm
    _ = r.pattern.toNat / 2 ^ 24 := by rw [← BitVec.toNat_and, masked]

/-- Every row's mask holds the whole opcode field. -/
theorem opcodeMap_mask : ∀ r ∈ opcodeMap, r.mask.toNat / 2 ^ 24 = 2 ^ 8 - 1 := by decide

/-- Every row asks for the payload count of its opcode. -/
theorem opcodeMap_payload : ∀ r ∈ opcodeMap, r.payload = payloadCountOf (r.pattern.toNat / 2 ^ 24) := by decide

/-- Every row's opcode is an assigned one. -/
theorem opcodeMap_assigned : ∀ r ∈ opcodeMap, r.pattern.toNat / 2 ^ 24 ∈ assignedOpcodes := by decide

/-- A selected row fixes the word's opcode, and with it the payload count. -/
theorem findRow_opcode {w : CmdWord} {r : Row} (found : findRow w = some r) :
    w.toNat / 2 ^ 24 ∈ assignedOpcodes ∧ r.payload = payloadCountOf (w.toNat / 2 ^ 24) := by
  have inMap : r ∈ opcodeMap := List.mem_of_find?_eq_some found
  have selected : r.selects w = true := List.find?_some (p := fun r : Row => r.selects w) found
  rw [Row.opcode_of_selects (opcodeMap_mask r inMap) selected]
  exact ⟨opcodeMap_assigned r inMap, opcodeMap_payload r inMap⟩

/-! ### Accepted packets (30_encoding.md R57) -/

/-- A packet is a command exactly when it passes the three checks of 30_encoding.md R57, and it is then the command of the row
found. -/
theorem decodePacket_eq_command_iff (p : CmdPacket) (i : Instr) :
    decodePacket p = .command i ↔
      p.head.extractLsb' 32 32 = 0 ∧
        ∃ r, findRow p.word = some r ∧ p.payload.length = r.payload ∧ r.build p.word p.payload = i := by
  unfold decodePacket
  by_cases upper : p.head.extractLsb' 32 32 = 0#32
  · cases found : findRow p.word with
    | none => simp [upper]
    | some r => by_cases count : p.payload.length = r.payload <;> simp [upper, count]
  · simp [upper]

section
variable {p : CmdPacket} {i : Instr}

/-- The upper half of an accepted packet's command beat is zero (30_encoding.md R52). -/
theorem upper_of_command (accepted : decodePacket p = .command i) : p.head.toNat / 2 ^ 32 = 0 := by
  obtain ⟨upper, -⟩ := (decodePacket_eq_command_iff p i).mp accepted
  have field : p.head.toNat / 2 ^ 32 % 2 ^ 32 = 0 := by
    simpa [Nat.shiftRight_eq_div_pow] using congrArg BitVec.toNat upper
  have := p.head.isLt
  omega

/-- An accepted packet has an assigned opcode and the payload count of it (30_encoding.md R51). -/
theorem opcode_of_command (accepted : decodePacket p = .command i) :
    p.word.toNat / 2 ^ 24 ∈ assignedOpcodes ∧ p.payload.length = payloadCountOf (p.word.toNat / 2 ^ 24) := by
  obtain ⟨-, r, found, count, -⟩ := (decodePacket_eq_command_iff p i).mp accepted
  obtain ⟨assigned, fixed⟩ := findRow_opcode found
  exact ⟨assigned, count.trans fixed⟩

end

end Sys2Proof

namespace Sys2Proof.Machine

variable {s : State} {p : CmdPacket} {rest : List CmdPacket}

/-- The step that takes a packet which is no command raises `IllegalCommand`. -/
theorem stepRaises_of_not_command (head : s.cmd = p :: rest) (rejected : ∀ i, decodePacket p ≠ .command i) :
    StepRaises s p rest 2 := by
  obtain ⟨i, accepted, -⟩ | ⟨why, -, raised⟩ := step_of_packet s p rest head
  · exact absurd accepted (rejected i)
  · exact ⟨_, raised, raise_spec (s.takePacket rest) .illegalCommand p.word⟩

/-- Settles O6: an accepted packet's upper half is zero. -/
theorem upperBitsOfTheBeatMustBeZero : Obligations.UpperBitsOfTheBeatMustBeZero := by
  intro s p rest head upper
  exact stepRaises_of_not_command head fun i accepted => upper (upper_of_command accepted)

/-- Settles O7: an accepted packet's opcode is assigned and fixes the payload count, so that a packet of another count or of
another opcode is no command. -/
theorem payloadCountIsFixedByTheOpcode : Obligations.PayloadCountIsFixedByTheOpcode := by
  intro s p rest head opcode count
  constructor
  · intro otherCount
    refine stepRaises_of_not_command head fun i accepted => otherCount ?_
    obtain ⟨-, fixed⟩ := opcode_of_command accepted
    exact fixed
  · intro unassigned
    refine stepRaises_of_not_command head fun i accepted => unassigned ?_
    obtain ⟨assigned, -⟩ := opcode_of_command accepted
    exact assigned

end Sys2Proof.Machine
end

