-- ==== Sys2Proof/Proofs/Responses.lean ====
section
/-! PROOFS. One response for each packet (30_encoding.md R55). Every way a command can end, completing or raising a fault, sends
one response, and no update before it touches a port. -/

namespace Sys2Proof.Machine

/-- The outcome is a next state that keeps the packets waiting in `s` and sends one response after those of `s`. -/
def RespondsOnce (s : State) (o : Result) : Prop := ∃ t r, o = .next t ∧ t.cmd = s.cmd ∧ t.rsp = s.rsp ++ [r]

section
variable {s : State}

/-- Completing after updates that leave the ports alone. -/
theorem respondsOnce_complete {u : State} {data : List Beat} (cmd : u.cmd = s.cmd) (rsp : u.rsp = s.rsp) :
    RespondsOnce s (.next (u.complete data)) :=
  ⟨_, _, rfl, cmd, by rw [complete_rsp, rsp]⟩

theorem respondsOnce_raise (c : Cause) (word : CmdWord) : RespondsOnce s (.next (s.raise c word)) :=
  ⟨_, _, rfl, raise_cmd s c word, raise_rsp s c word⟩

/-- A command that consumes a Waveform responds once if it does so after the length check. -/
theorem respondsOnce_withWaveform {src : Reg} {word : CmdWord} {go : List Sample → Result}
    (passed : ∀ x, RespondsOnce s (go x)) : RespondsOnce s (withWaveform s src word go) := by
  by_cases h : (s.wave src).length = 64
  · rw [withWaveform_of_length s src word go h]
    exact passed _
  · rw [withWaveform_of_not_length s src word go h]
    exact respondsOnce_raise _ _

end

/-! ### The commands with a check of their own -/

theorem execNoise_respondsOnce (d src : Reg) (s : State) : RespondsOnce s (execNoise d src s) := by
  refine respondsOnce_withWaveform fun x => ?_
  by_cases usable : nvarUsable s.nvar = true
  · rw [if_pos usable]
    exact respondsOnce_complete rfl rfl
  · rw [if_neg usable]
    exact respondsOnce_raise _ _

theorem execWpush_respondsOnce (d : Reg) (x : Sample) (s : State) : RespondsOnce s (execWpush d x s) := by
  unfold execWpush
  split
  case isTrue full => exact respondsOnce_raise _ _
  case isFalse room => exact respondsOnce_complete (setWave_cmd ..) (setWave_rsp ..)

theorem execCrd_respondsOnce (n : Csr) (s : State) : RespondsOnce s (execCrd n s) := by
  unfold execCrd
  cases s.csr n with
  | some v => exact respondsOnce_complete rfl rfl
  | none => exact respondsOnce_raise _ _

theorem execCwr_respondsOnce (n : Csr) (v : BitVec 64) (s : State) : RespondsOnce s (execCwr n v s) := by
  unfold execCwr
  split
  case isTrue readOnly => exact respondsOnce_raise _ _
  case isFalse writable => exact respondsOnce_complete (setNvar_cmd ..) (setNvar_rsp ..)

/-! ### Every command and every step -/

/-- Every command responds once; the commands without a check stand together by what they write. -/
theorem exec_respondsOnce (i : Instr) (s : State) : RespondsOnce s (exec i s) := by
  cases i with
  | noise d src => exact execNoise_respondsOnce d src s
  | wpush d x => exact execWpush_respondsOnce d x s
  | crd n => exact execCrd_respondsOnce n s
  | cwr n v => exact execCwr_respondsOnce n v s
  | fft | ifft =>
    exact respondsOnce_withWaveform fun x => respondsOnce_complete (setWave_cmd ..) (setWave_rsp ..)
  | extr => exact respondsOnce_withWaveform fun x => respondsOnce_complete (setGrid_cmd ..) (setGrid_rsp ..)
  | proj | wclr => exact respondsOnce_complete (setWave_cmd ..) (setWave_rsp ..)
  | mod | gwr => exact respondsOnce_complete (setSlot_cmd ..) (setSlot_rsp ..)
  | modv => exact respondsOnce_complete (setGrid_cmd ..) (setGrid_rsp ..)
  | dem | demv | sld => exact respondsOnce_complete (setFrame_cmd ..) (setFrame_rsp ..)
  | wout | grd | srd => exact respondsOnce_complete rfl rfl

/-- A step with a packet waiting responds once to the state without that packet, accepted or not. -/
theorem step_respondsOnce {s : State} {p : CmdPacket} {rest : List CmdPacket} (head : s.cmd = p :: rest) :
    RespondsOnce (s.takePacket rest) (step s) := by
  obtain ⟨i, -, ran⟩ | ⟨why, -, raised⟩ := step_of_packet s p rest head
  · rw [ran]
    exact exec_respondsOnce i _
  · rw [raised]
    exact respondsOnce_raise _ _

/-- Settles O12: `takePacket` takes the head packet alone, and a step with none changes nothing. -/
theorem oneResponseForEachPacket : Obligations.OneResponseForEachPacket := by
  constructor
  · intro s p rest head
    obtain ⟨t, r, stepped, cmd, rsp⟩ := step_respondsOnce head
    exact ⟨t, r, stepped, cmd.trans (takePacket_cmd ..), by rw [rsp, takePacket_rsp]⟩
  · intro s t idle stepped
    rw [step_of_idle s idle] at stepped
    cases stepped
    rfl

end Sys2Proof.Machine
end

