-- ==== Sys2Proof/Proofs/RegisterOperands.lean ====
section
/-! PROOFS. Which packet is a command of two registers (30_encoding.md R46, R49, R56): the opcode in the top byte, the two
register fields below it, zero in every other bit of the beat, and no payload. -/

namespace Sys2Proof

/-! ### The row found for a word (30_encoding.md R56) -/

/-- No two rows have the same opcode. -/
theorem opcodeMap_opcode_nodup : (opcodeMap.map fun r => r.pattern.toNat / 2 ^ 24).Nodup := by decide

/-- A word selects one row at most: the rows it selects have its opcode. -/
theorem Row.eq_of_selects {r r' : Row} {w : CmdWord} (inMap : r ∈ opcodeMap) (inMap' : r' ∈ opcodeMap)
    (selected : r.selects w = true) (selected' : r'.selects w = true) : r = r' := by
  refine List.inj_on_of_nodup_map opcodeMap_opcode_nodup inMap inMap' ?_
  rw [← Row.opcode_of_selects (opcodeMap_mask r inMap) selected, ← Row.opcode_of_selects (opcodeMap_mask r' inMap') selected']

theorem selects_of_findRow {w : CmdWord} {r : Row} (found : findRow w = some r) : r ∈ opcodeMap ∧ r.selects w = true :=
  ⟨List.mem_of_find?_eq_some found, List.find?_some (p := fun r : Row => r.selects w) found⟩

/-- The first row that a word selects is the only one, so finding a row is being selected by the word. -/
theorem findRow_eq_some_iff (w : CmdWord) (r : Row) : findRow w = some r ↔ r ∈ opcodeMap ∧ r.selects w = true := by
  refine ⟨selects_of_findRow, fun ⟨inMap, selected⟩ => ?_⟩
  have someRow : (findRow w).isSome := List.find?_isSome.mpr ⟨r, inMap, selected⟩
  obtain ⟨first, found⟩ := Option.isSome_iff_exists.mp someRow
  obtain ⟨firstInMap, firstSelected⟩ := selects_of_findRow found
  rw [found, Row.eq_of_selects firstInMap inMap firstSelected selected]

/-- `decodePacket_eq_command_iff` with the row named by the map: for a given command all rows but its own drop out. -/
theorem decodePacket_eq_command_iff_row (p : CmdPacket) (i : Instr) :
    decodePacket p = .command i ↔
      p.head.extractLsb' 32 32 = 0 ∧
        ∃ r ∈ opcodeMap, r.selects p.word = true ∧ p.payload.length = r.payload ∧ r.build p.word p.payload = i := by
  simp only [decodePacket_eq_command_iff, findRow_eq_some_iff, and_assoc]

/-! ### The fields of a command beat (30_encoding.md R46) -/

/-- A beat with a zero upper half has the number of its command word. -/
theorem CmdPacket.head_toNat_eq_iff (p : CmdPacket) {n : Nat} (h : n < 2 ^ 32) :
    p.head.toNat = n ↔ p.head.extractLsb' 32 32 = 0 ∧ p.word.toNat = n := by
  have := p.head.isLt
  simp only [CmdPacket.word, ← BitVec.toNat_inj, BitVec.extractLsb'_toNat, Nat.shiftRight_eq_div_pow,
    BitVec.ofNat_eq_ofNat, BitVec.toNat_ofNat]
  omega

theorem rdOf_eq_iff (w : CmdWord) (d : Reg) : rdOf w = d ↔ w.toNat / 2 ^ 22 % 2 ^ 2 = d.val := by
  simp [rdOf, Fin.ext_iff, Nat.shiftRight_eq_div_pow]

theorem rsOf_eq_iff (w : CmdWord) (s : Reg) : rsOf w = s ↔ w.toNat / 2 ^ 20 % 2 ^ 2 = s.val := by
  simp [rsOf, Fin.ext_iff, Nat.shiftRight_eq_div_pow]

/-- The mask of the rows with two registers clears the four bits of the register fields and keeps the others. -/
theorem and_twoRegMask_toNat (w : CmdWord) :
    (w &&& 0xFF0FFFFF).toNat = w.toNat / 2 ^ 24 * 2 ^ 24 + w.toNat % 2 ^ 20 := by
  have above : (w.toNat &&& 0xFF0FFFFF) / 2 ^ 24 = w.toNat / 2 ^ 24 := by
    have topByte : w.toNat / 2 ^ 24 < 2 ^ 8 := by have := w.isLt; omega
    rw [Nat.and_div_two_pow]
    exact (Nat.and_two_pow_sub_one_eq_mod _ 8).trans (Nat.mod_eq_of_lt topByte)
  have fields : (w.toNat &&& 0xFF0FFFFF) / 2 ^ 20 % 2 ^ 4 = 0 := by
    rw [Nat.and_div_two_pow, Nat.and_mod_two_pow]
    exact Nat.and_zero _
  have below : (w.toNat &&& 0xFF0FFFFF) % 2 ^ 20 = w.toNat % 2 ^ 20 := by
    rw [Nat.and_mod_two_pow]
    exact (Nat.and_two_pow_sub_one_eq_mod _ 20).trans (Nat.mod_mod _ _)
  rw [BitVec.toNat_and, show (0xFF0FFFFF : CmdWord).toNat = 0xFF0FFFFF from rfl]
  omega

/-- A word that passes the mask of the rows with two registers is its opcode and its two fields, and nothing else. -/
theorem twoRegWord_iff (w opcode : CmdWord) (opcodeOnly : opcode.toNat % 2 ^ 24 = 0) (d s : Reg) :
    (w &&& 0xFF0FFFFF = opcode ∧ rdOf w = d ∧ rsOf w = s) ↔
      w.toNat = opcode.toNat + d.val * 2 ^ 22 + s.val * 2 ^ 20 := by
  rw [← BitVec.toNat_inj, and_twoRegMask_toNat, rdOf_eq_iff, rsOf_eq_iff]
  omega

/-- The packet of a command of two registers, from the row that accepts it. -/
theorem encodedAs_of_twoRegRow {opcode : CmdWord} {d s : Reg} {i : Instr} (opcodeOnly : opcode.toNat % 2 ^ 24 = 0)
    (accepts : ∀ p : CmdPacket, decodePacket p = .command i ↔
      p.head.extractLsb' 32 32 = 0 ∧ p.word &&& 0xFF0FFFFF = opcode ∧ p.payload = [] ∧ rdOf p.word = d ∧ rsOf p.word = s) :
    Machine.EncodedAs (opcode.toNat + d.val * 2 ^ 22 + s.val * 2 ^ 20) [] i := by
  intro p
  have fitsWord : opcode.toNat + d.val * 2 ^ 22 + s.val * 2 ^ 20 < 2 ^ 32 := by have := opcode.isLt; omega
  rw [accepts, p.head_toNat_eq_iff fitsWord, ← twoRegWord_iff p.word opcode opcodeOnly]
  tauto

end Sys2Proof
end

