-- ==== Sys2Proof/Proofs/Transform.lean ====
section
/-! PROOFS. `FFT` and `IFFT` (41_transform.md R71, R72): their packets, and what they do to a register that holds 64 Samples
and to one that does not. -/

namespace Sys2Proof.Machine

/-! ### Their packets

Each is found by running through the rows of the opcode map: every row but one builds another command. -/

theorem fft_encodedAs (d src : Reg) : EncodedAs (0x10000000 + d.val * 2 ^ 22 + src.val * 2 ^ 20) [] (.fft d src) := by
  refine encodedAs_of_twoRegRow (opcode := 0x10000000) (by decide) fun p => ?_
  simp [decodePacket_eq_command_iff_row, opcodeMap, Row.selects]

theorem ifft_encodedAs (d src : Reg) : EncodedAs (0x11000000 + d.val * 2 ^ 22 + src.val * 2 ^ 20) [] (.ifft d src) := by
  refine encodedAs_of_twoRegRow (opcode := 0x11000000) (by decide) fun p => ?_
  simp [decodePacket_eq_command_iff_row, opcodeMap, Row.selects]

/-! ### The length of a transform -/

theorem fft64_length {x : List Sample} (h : x.length = 64) : (fft64 x).length = 64 :=
  fftWith_length stepButterfly 6 x h

theorem ifft64_length {x : List Sample} (h : x.length = 64) : (ifft64 x).length = 64 := by
  have conjugated : (x.map conj).length = 64 := by rw [List.length_map, h]
  rw [ifft64, List.length_map, List.length_map, fft64_length conjugated]

/-! ### Writing one waveform register and completing -/

section
variable (s : State) (d : Reg) (x : List Sample)

theorem setWave_complete_filesKept (data : List Beat) : FilesKept s ((s.setWave d x).complete data) [d] [] [] where
  waves r other := by rw [complete_wave, setWave_wave, if_neg (mt List.mem_singleton.mpr other)]
  grids _ _ := rfl
  frames _ _ := rfl

theorem setWave_complete_restKept (data : List Beat) : RestKept s ((s.setWave d x).complete data) := ⟨rfl, rfl, rfl⟩

theorem setWave_complete_completed {data : List Beat} (fits : data.length < 256) :
    Completed s ((s.setWave d x).complete data) data :=
  ⟨rfl, rfl, complete_spec (s.setWave d x) data fits⟩

end

/-! ### The two commands -/

section
variable {src : Reg} {s : State} {word : CmdWord}

/-- A command that consumes a Waveform raises `InvalidLength` on a register of any other length. -/
theorem withWaveform_raises (h : (s.wave src).length ≠ 64) (go : List Sample → Result) :
    ∃ t, withWaveform s src word go = .next t ∧ Raised s t 1 word :=
  ⟨_, withWaveform_of_not_length s src word go h, raise_spec s .invalidLength word⟩

/-- A command that consumes a Waveform and writes `f` of it, again 64 Samples, completes. The argument of `f` is read
before `W[d]` is written, so that `d = src` is no special case (41_transform.md R73). -/
theorem withWaveform_transforms {f : List Sample → List Sample} (d : Reg)
    (keepsLength : ∀ {x}, x.length = 64 → (f x).length = 64) (h : (s.wave src).length = 64) :
    ∃ t, withWaveform s src word (fun x => .next ((s.setWave d (f x)).complete [])) = .next t ∧
      t.wave d = f (s.wave src) ∧ (t.wave d).length = 64 ∧ FilesKept s t [d] [] [] ∧ RestKept s t ∧ Completed s t [] := by
  have written : ((s.setWave d (f (s.wave src))).complete []).wave d = f (s.wave src) := by
    rw [complete_wave, setWave_wave, if_pos rfl]
  exact ⟨_, withWaveform_of_length s src word _ h, written, by rw [written, keepsLength h], setWave_complete_filesKept s d _ [],
    setWave_complete_restKept s d _ [], setWave_complete_completed s d _ (by decide)⟩

end

theorem exec_fft (d src : Reg) (s : State) :
    exec (.fft d src) s =
      withWaveform s src (encodeWord (.fft d src)) fun x => .next ((s.setWave d (fft64 x)).complete []) := rfl

theorem exec_ifft (d src : Reg) (s : State) :
    exec (.ifft d src) s =
      withWaveform s src (encodeWord (.ifft d src)) fun x => .next ((s.setWave d (ifft64 x)).complete []) := rfl

/-- Settles O23: the packet of `FFT`, then both sides of the length check. -/
theorem fftTransformsOrRaisesInvalidLength : Obligations.FftTransformsOrRaisesInvalidLength := by
  intro d src
  refine ⟨fft_encodedAs d src, fun s => ?_⟩
  rw [exec_fft]
  exact ⟨withWaveform_transforms d fft64_length, fun h => withWaveform_raises h _⟩

/-- Settles O24: the packet of `IFFT`, then both sides of the length check. -/
theorem ifftTransformsOrRaisesInvalidLength : Obligations.IfftTransformsOrRaisesInvalidLength := by
  intro d src
  refine ⟨ifft_encodedAs d src, fun s => ?_⟩
  rw [exec_ifft]
  exact ⟨withWaveform_transforms d ifft64_length, fun h => withWaveform_raises h _⟩

end Sys2Proof.Machine
end

