-- ==== Sys2Proof/Proofs/SlotOperands.lean ====
section
/-! PROOFS. Which packet is a command that names a slot (30_encoding.md R46, R48, R49, R56). A row's mask is read field by
field: a slot index fills three of the four bits of `idx` and a symbol two of the 16 bits of `imm16`, and the mask holds the
other bits of these fields at zero. -/

namespace Sys2Proof

/-! ### A mask on the five fields of a word (30_encoding.md R46) -/

/-- A command word is its five fields. -/
theorem packWord_fields (w : CmdWord) :
    packWord (opcodeOf w) (w.extractLsb' 22 2) (w.extractLsb' 20 2) (csrOf w) (immOf w) = w := by
  apply BitVec.eq_of_toNat_eq
  have := w.isLt
  simp only [packWord_toNat, opcodeOf, csrOf, immOf, BitVec.extractLsb'_toNat, Nat.shiftRight_eq_div_pow]
  omega

theorem packWord_inj {op op' : BitVec 8} {rd rd' rs rs' : BitVec 2} {idx idx' : BitVec 4} {imm imm' : BitVec 16} :
    packWord op rd rs idx imm = packWord op' rd' rs' idx' imm' ↔
      op = op' ∧ rd = rd' ∧ rs = rs' ∧ idx = idx' ∧ imm = imm' := by
  simp only [← BitVec.toNat_inj, packWord_toNat]
  omega

theorem packWord_and (op op' : BitVec 8) (rd rd' rs rs' : BitVec 2) (idx idx' : BitVec 4) (imm imm' : BitVec 16) :
    packWord op rd rs idx imm &&& packWord op' rd' rs' idx' imm' =
      packWord (op &&& op') (rd &&& rd') (rs &&& rs') (idx &&& idx') (imm &&& imm') := by
  simp only [packWord, ← BitVec.and_append]

/-- A word passes a mask exactly when each of its fields passes the mask's part for that field. -/
theorem and_packWord_eq_iff (w : CmdWord) (op op' : BitVec 8) (rd rd' rs rs' : BitVec 2) (idx idx' : BitVec 4)
    (imm imm' : BitVec 16) :
    w &&& packWord op rd rs idx imm = packWord op' rd' rs' idx' imm' ↔
      opcodeOf w &&& op = op' ∧ w.extractLsb' 22 2 &&& rd = rd' ∧ w.extractLsb' 20 2 &&& rs = rs' ∧
        csrOf w &&& idx = idx' ∧ immOf w &&& imm = imm' := by
  rw [← packWord_inj, ← packWord_and, packWord_fields]

/-! ### The fields as numbers -/

/-- `idx[3]` is zero exactly when `idx` is a slot index. -/
theorem and_idxTop_eq_zero_iff (x : BitVec 4) : x &&& 8#4 = 0#4 ↔ x.toNat < 8 := by
  revert x; decide

/-- `imm16[15:2]` is zero exactly when `imm16` is a symbol. -/
theorem and_aboveSymbol_eq_zero_iff (x : BitVec 16) : x &&& 0xFFFC#16 = 0#16 ↔ x.toNat < 4 := by
  have above : (x.toNat &&& 0xFFFC) / 2 ^ 2 = x.toNat / 2 ^ 2 := by
    rw [Nat.and_div_two_pow]
    exact (Nat.and_two_pow_sub_one_eq_mod _ 14).trans (Nat.mod_eq_of_lt (by omega))
  have below : (x.toNat &&& 0xFFFC) % 2 ^ 2 = 0 := by
    rw [Nat.and_mod_two_pow]
    exact Nat.and_zero _
  rw [← BitVec.toNat_inj, BitVec.toNat_and, show (0xFFFC#16).toNat = 0xFFFC from rfl, show (0#16).toNat = 0 from rfl]
  omega

theorem opcodeOf_eq_iff (w : CmdWord) (op : BitVec 8) : opcodeOf w = op ↔ w.toNat / 2 ^ 24 = op.toNat := by
  have := w.isLt
  rw [← BitVec.toNat_inj, opcodeOf, BitVec.extractLsb'_toNat, Nat.shiftRight_eq_div_pow]
  omega

theorem csrOf_toNat (w : CmdWord) : (csrOf w).toNat = w.toNat / 2 ^ 16 % 2 ^ 4 := by
  rw [csrOf, BitVec.extractLsb'_toNat, Nat.shiftRight_eq_div_pow]

theorem immOf_toNat (w : CmdWord) : (immOf w).toNat = w.toNat % 2 ^ 16 := by
  rw [immOf, BitVec.extractLsb'_toNat, Nat.shiftRight_zero]

theorem slotOf_eq_iff (w : CmdWord) (k : Slot) : slotOf w = k ↔ w.toNat / 2 ^ 16 % 2 ^ 3 = k.val := by
  simp [slotOf, Fin.ext_iff, Nat.shiftRight_eq_div_pow]

theorem symOf_eq_iff (w : CmdWord) (v : Symbol) : symOf w = v ↔ w.toNat % 2 ^ 2 = v.toNat := by
  simp [symOf, ← BitVec.toNat_inj]

/-- The field `rs` is zero. -/
theorem rsField_eq_zero_iff (w : CmdWord) : w.extractLsb' 20 2 = 0#2 ↔ w.toNat / 2 ^ 20 % 2 ^ 2 = 0 := by
  rw [← BitVec.toNat_inj, BitVec.extractLsb'_toNat, Nat.shiftRight_eq_div_pow, BitVec.toNat_zero]

/-! ### The words of `MOD` and `DEM` (30_encoding.md R56) -/

/-- A word of the row of `MOD` is its opcode, its register, its slot and its symbol, and nothing else. -/
theorem modWord_iff (w : CmdWord) (d : Reg) (k : Slot) (v : Symbol) :
    (w &&& 0xFF38FFFC = 0x20000000 ∧ rdOf w = d ∧ slotOf w = k ∧ symOf w = v) ↔
      w.toNat = 0x20000000 + d.val * 2 ^ 22 + k.val * 2 ^ 16 + v.toNat := by
  have row : w &&& 0xFF38FFFC = 0x20000000 ↔
      opcodeOf w = 0x20#8 ∧ w.extractLsb' 20 2 = 0#2 ∧ (csrOf w).toNat < 8 ∧ (immOf w).toNat < 4 := by
    refine (and_packWord_eq_iff w (.allOnes 8) 0x20#8 0#2 0#2 (.allOnes 2) 0#2 8#4 0#4 0xFFFC#16 0#16).trans ?_
    simp only [BitVec.and_allOnes, BitVec.and_zero, and_idxTop_eq_zero_iff, and_aboveSymbol_eq_zero_iff, true_and]
  rw [row, opcodeOf_eq_iff, rsField_eq_zero_iff, csrOf_toNat, immOf_toNat, rdOf_eq_iff, slotOf_eq_iff, symOf_eq_iff,
    BitVec.toNat_ofNat]
  omega

/-- A word of the row of `DEM` is its opcode, its registers and its slot, and nothing else. -/
theorem demWord_iff (w : CmdWord) (d s : Reg) (k : Slot) :
    (w &&& 0xFF08FFFF = 0x22000000 ∧ rdOf w = d ∧ rsOf w = s ∧ slotOf w = k) ↔
      w.toNat = 0x22000000 + d.val * 2 ^ 22 + s.val * 2 ^ 20 + k.val * 2 ^ 16 := by
  have row : w &&& 0xFF08FFFF = 0x22000000 ↔ opcodeOf w = 0x22#8 ∧ (csrOf w).toNat < 8 ∧ immOf w = 0#16 := by
    refine (and_packWord_eq_iff w (.allOnes 8) 0x22#8 0#2 0#2 0#2 0#2 8#4 0#4 (.allOnes 16) 0#16).trans ?_
    simp only [BitVec.and_allOnes, BitVec.and_zero, and_idxTop_eq_zero_iff, true_and]
  rw [row, opcodeOf_eq_iff, csrOf_toNat, ← BitVec.toNat_inj, immOf_toNat, rdOf_eq_iff, rsOf_eq_iff, slotOf_eq_iff,
    BitVec.toNat_ofNat, BitVec.toNat_ofNat]
  omega

/-- The packet of a command without payload, from the row that accepts it and the one word that the row reads as its
operands. -/
theorem encodedAs_of_row {mask opcode : CmdWord} {n : Nat} {operands : CmdWord → Prop} {i : Instr} (fitsWord : n < 2 ^ 32)
    (accepts : ∀ p : CmdPacket, decodePacket p = .command i ↔
      p.head.extractLsb' 32 32 = 0 ∧ p.word &&& mask = opcode ∧ p.payload = [] ∧ operands p.word)
    (oneWord : ∀ w : CmdWord, (w &&& mask = opcode ∧ operands w) ↔ w.toNat = n) : Machine.EncodedAs n [] i := by
  intro p
  rw [accepts, p.head_toNat_eq_iff fitsWord, ← oneWord p.word]
  tauto

end Sys2Proof
end

