-- ==== Sys2Proof/Proofs/Modem.lean ====
section
/-! PROOFS. The QPSK modem (42_qpsk_modem.md): which words decide a 1 (R78), and `MOD`, `MODV`, `DEM` and `DEMV` (R79 to R82) with
their packets, the slots or the frame they write, and all that they leave. -/

namespace Sys2Proof.Machine

/-! ### The sign of a word (42_qpsk_modem.md R78, R84) -/

section
variable (x : F64)

theorem fSign_eq : fSign x = decide (2 ^ 63 ≤ x.toNat) := BitVec.msb_eq_decide x

theorem fExp_eq : fExp x = x.toNat / 2 ^ 52 % 2 ^ 11 := by
  rw [fExp, BitVec.extractLsb'_toNat, Nat.shiftRight_eq_div_pow]

theorem fFrac_eq : fFrac x = x.toNat % 2 ^ 52 := by
  rw [fFrac, BitVec.extractLsb'_toNat, Nat.shiftRight_zero]

/-- A word is below zero from the smallest negative subnormal to minus infinity: the sign bit is set, the word below is the
negative zero, and the words above are the negative NaNs. -/
theorem fLtZero_eq : fLtZero x = decide (0x8000000000000001 ≤ x.toNat ∧ x.toNat ≤ 0xFFF0000000000000) := by
  have := x.isLt
  rw [Bool.eq_iff_iff]
  simp only [fLtZero, fIsNaN, fIsZero, fSign_eq, fExp_eq, fFrac_eq, Bool.and_eq_true, Bool.not_eq_true', Bool.and_eq_false_iff,
    beq_eq_false_iff_ne, bne_eq_false_iff_eq, decide_eq_true_eq]
  omega

end

/-! ### The two bits of a decision -/

theorem demodulate_getLsbD_one (x : Sample) : (demodulate x).getLsbD 1 = fLtZero x.re := by
  rw [demodulate, BitVec.getLsbD_append, if_neg (by decide), BitVec.getLsbD_ofBool]
  rfl

theorem demodulate_getLsbD_zero (x : Sample) : (demodulate x).getLsbD 0 = fLtZero x.im := by
  rw [demodulate, BitVec.getLsbD_append, if_pos (by decide), BitVec.getLsbD_ofBool]
  rfl

/-- Settles O36: each bit of a decision is the sign of its own axis. -/
theorem demodulateDecidesStrictlyNegative : Obligations.DemodulateDecidesStrictlyNegative := by
  intro re im
  rw [demodulate_getLsbD_one, demodulate_getLsbD_zero]
  exact ⟨fLtZero_eq re, fLtZero_eq im⟩

/-! ### A slot's two bits of a frame (30_encoding.md R45) -/

theorem sym_getLsbD_one (v : Frame) (k : Slot) : (sym v k).getLsbD 1 = v.getLsbD (15 - 2 * k.val) := by
  rw [sym_getLsbD, show symShift k + 1 = 15 - 2 * k.val by unfold symShift; omega]
  rfl

theorem sym_getLsbD_zero (v : Frame) (k : Slot) : (sym v k).getLsbD 0 = v.getLsbD (14 - 2 * k.val) :=
  sym_getLsbD v k 0

/-- Every bit of a frame after slot `k`'s symbol is written: the two bits of the slot, and the other 14. -/
theorem setSym_bit (v : Frame) (k : Slot) (y : Symbol) {n : Nat} (inFrame : n < 16) :
    (setSym v k y).getLsbD n =
      if n = 15 - 2 * k.val then y.getLsbD 1 else if n = 14 - 2 * k.val then y.getLsbD 0 else v.getLsbD n := by
  have shift : symShift k = 14 - 2 * k.val := rfl
  rw [setSym_getLsbD v k y n inFrame]
  by_cases real : n = 15 - 2 * k.val
  · rw [if_pos (by omega), if_pos real, show n - symShift k = 1 by omega]
  · by_cases imaginary : n = 14 - 2 * k.val
    · rw [if_pos (by omega), if_neg real, if_pos imaginary, show n - symShift k = 0 by omega]
    · rw [if_neg (by omega), if_neg real, if_neg imaginary]

/-! ### Constellation points (42_qpsk_modem.md R77) -/

theorem modulate_eq (v : Symbol) :
    modulate v = ⟨if v.getLsbD 1 then 0xBFE6A09E667F3BCD else 0x3FE6A09E667F3BCD,
      if v.getLsbD 0 then 0xBFE6A09E667F3BCD else 0x3FE6A09E667F3BCD⟩ := rfl

/-! ### Writing one grid or one frame and completing -/

section
variable (s : State) (d : Reg) {data : List Beat}

/-- Of a command that writes one active grid and completes, all but what it writes there. A write of one slot is a write of
the grid with that slot replaced. -/
theorem setGrid_complete_spec (x : Vector Sample 8) (fits : data.length < 256) :
    FilesKept s ((s.setGrid d x).complete data) [] [d] [] ∧ RestKept s ((s.setGrid d x).complete data) ∧
      Completed s ((s.setGrid d x).complete data) data :=
  ⟨⟨fun _ _ => rfl,
    fun r other => by rw [complete_grid, setGrid_grid, if_neg (mt List.mem_singleton.mpr other)],
    fun _ _ => rfl⟩,
    ⟨rfl, rfl, rfl⟩, ⟨rfl, rfl, complete_spec (s.setGrid d x) data fits⟩⟩

/-- Of a command that writes one symbol register and completes, all but what it writes there. -/
theorem setFrame_complete_spec (v : Frame) (fits : data.length < 256) :
    FilesKept s ((s.setFrame d v).complete data) [] [] [d] ∧ RestKept s ((s.setFrame d v).complete data) ∧
      Completed s ((s.setFrame d v).complete data) data :=
  ⟨⟨fun _ _ => rfl, fun _ _ => rfl,
    fun r other => by rw [complete_frame, setFrame_frame, if_neg (mt List.mem_singleton.mpr other)]⟩,
    ⟨rfl, rfl, rfl⟩, ⟨rfl, rfl, complete_spec (s.setFrame d v) data fits⟩⟩

end

/-! ### The packets of the four commands -/

theorem mod_encodedAs (d : Reg) (k : Slot) (v : Symbol) :
    EncodedAs (0x20000000 + d.val * 2 ^ 22 + k.val * 2 ^ 16 + v.toNat) [] (.mod d k v) := by
  refine encodedAs_of_row (by omega) (fun p => ?_) (modWord_iff · d k v)
  simp [decodePacket_eq_command_iff_row, opcodeMap, Row.selects]

theorem modv_encodedAs (d src : Reg) : EncodedAs (0x21000000 + d.val * 2 ^ 22 + src.val * 2 ^ 20) [] (.modv d src) := by
  refine encodedAs_of_twoRegRow (opcode := 0x21000000) (by decide) fun p => ?_
  simp [decodePacket_eq_command_iff_row, opcodeMap, Row.selects]

theorem dem_encodedAs (d src : Reg) (k : Slot) :
    EncodedAs (0x22000000 + d.val * 2 ^ 22 + src.val * 2 ^ 20 + k.val * 2 ^ 16) [] (.dem d src k) := by
  refine encodedAs_of_row (by omega) (fun p => ?_) (demWord_iff · d src k)
  simp [decodePacket_eq_command_iff_row, opcodeMap, Row.selects]

theorem demv_encodedAs (d src : Reg) : EncodedAs (0x23000000 + d.val * 2 ^ 22 + src.val * 2 ^ 20) [] (.demv d src) := by
  refine encodedAs_of_twoRegRow (opcode := 0x23000000) (by decide) fun p => ?_
  simp [decodePacket_eq_command_iff_row, opcodeMap, Row.selects]

/-! ### The four commands -/

theorem exec_mod (d : Reg) (k : Slot) (v : Symbol) (s : State) :
    exec (.mod d k v) s = .next ((s.setSlot d k (modulate v)).complete []) := rfl

theorem exec_modv (d src : Reg) (s : State) :
    exec (.modv d src) s =
      .next ((s.setGrid d (Vector.ofFn fun k : Slot => modulate (sym (s.frame src) k))).complete []) := rfl

theorem exec_dem (d src : Reg) (k : Slot) (s : State) :
    exec (.dem d src k) s = .next ((s.setFrame d (setSym (s.frame d) k (demodulate (s.slot src k)))).complete []) := rfl

theorem exec_demv (d src : Reg) (s : State) :
    exec (.demv d src) s = .next ((s.setFrame d (packFrame fun k => demodulate (s.slot src k))).complete []) := rfl

/-- Settles O37: the slot reads the point, and a write of one slot leaves the other seven. -/
theorem modWritesOneConstellationPoint : Obligations.ModWritesOneConstellationPoint := by
  intro d k v
  refine ⟨mod_encodedAs d k v, fun s => ⟨_, exec_mod d k v s, ?_, fun j other => ?_,
    setGrid_complete_spec s d _ (by decide)⟩⟩
  · rw [complete_slot, setSlot_slot, if_pos ⟨rfl, rfl⟩, modulate_eq]
  · rw [complete_slot, setSlot_slot, if_neg fun same => other same.2]

/-- Settles O38: lane `k` of the grid written is the point of slot `k`'s symbol. -/
theorem modvMapsEverySymbol : Obligations.ModvMapsEverySymbol := by
  intro d src
  refine ⟨modv_encodedAs d src, fun s => ⟨_, exec_modv d src s, fun k => ?_, setGrid_complete_spec s d _ (by decide)⟩⟩
  rw [complete_slot, setGrid_slot, if_pos rfl, Fin.getElem_fin, Vector.getElem_ofFn, modulate_eq,
    sym_getLsbD_one, sym_getLsbD_zero]

/-- Settles O39: the frame written is the old frame of `S[d]` with slot `k`'s symbol replaced, read bit by bit. -/
theorem demWritesTwoBits : Obligations.DemWritesTwoBits := by
  intro d src k
  refine ⟨dem_encodedAs d src k, fun s => ⟨_, exec_dem d src k s, fun n inFrame => ?_,
    setFrame_complete_spec s d _ (by decide)⟩⟩
  rw [complete_frame, setFrame_frame, if_pos rfl, setSym_bit _ _ _ inFrame]

/-- Settles O40: of a frame packed from eight decisions, each slot's two bits are its own decision. -/
theorem demvDecidesEverySlot : Obligations.DemvDecidesEverySlot := by
  intro d src
  refine ⟨demv_encodedAs d src, fun s => ⟨_, exec_demv d src s, fun k => ?_, setFrame_complete_spec s d _ (by decide)⟩⟩
  rw [complete_frame, setFrame_frame, if_pos rfl, ← sym_getLsbD_one, ← sym_getLsbD_zero, sym_packFrame]
  exact ⟨rfl, rfl⟩

end Sys2Proof.Machine
end

