-- ==== Sys2Proof/Proofs/GridMapper.lean ====
section
/-! PROOFS. `PROJ` and `EXTR` (43_grid_mapper.md R87, R88): their packets, the active and the other positions of a projected
grid, the positions that `EXTR` reads, and all that the two commands leave. -/

namespace Sys2Proof.Machine

/-! ### Active and inactive positions (43_grid_mapper.md R86) -/

theorem gridPos_eq (k : Slot) : gridPos k = 8 * k.val := Nat.zero_add _

/-- An active position of a projected grid is that slot's Sample. -/
theorem projectToGrid_active (x : Vector Sample 8) (k : Slot) : (projectToGrid x)[8 * k.val]? = some x[k] := by
  have active : 8 * k.val % 8 = 0 ∧ 8 * k.val < 64 := by omega
  have slot : 8 * k.val / 8 = k.val := by omega
  rw [projectToGrid_getElem?, dif_pos active]
  simp only [slot, Fin.getElem_fin]

/-- Every other position of a projected grid is the zero Sample. -/
theorem projectToGrid_inactive (x : Vector Sample 8) {j : Nat} (inGrid : j < 64) (inactive : j % 8 ≠ 0) :
    (projectToGrid x)[j]? = some zeroSample := by
  rw [projectToGrid_getElem?, dif_neg fun active => inactive active.1, if_pos inGrid]

/-- Of 64 Samples every active position is there, so that reading it never takes the default. -/
theorem getElem?_extractFromGrid {x : List Sample} (h : x.length = 64) (k : Slot) :
    x[8 * k.val]? = some (extractFromGrid x)[k] := by
  have inGrid : 8 * k.val < x.length := by omega
  rw [extractFromGrid, Fin.getElem_fin, Vector.getElem_ofFn, gridPos_eq, List.getElem?_eq_getElem inGrid,
    List.getD_eq_getElem _ _ inGrid]

/-! ### The packets of the two commands -/

theorem proj_encodedAs (d src : Reg) : EncodedAs (0x30000000 + d.val * 2 ^ 22 + src.val * 2 ^ 20) [] (.proj d src) := by
  refine encodedAs_of_twoRegRow (opcode := 0x30000000) (by decide) fun p => ?_
  simp [decodePacket_eq_command_iff_row, opcodeMap, Row.selects]

theorem extr_encodedAs (d src : Reg) : EncodedAs (0x31000000 + d.val * 2 ^ 22 + src.val * 2 ^ 20) [] (.extr d src) := by
  refine encodedAs_of_twoRegRow (opcode := 0x31000000) (by decide) fun p => ?_
  simp [decodePacket_eq_command_iff_row, opcodeMap, Row.selects]

/-! ### The two commands -/

theorem exec_proj (d src : Reg) (s : State) :
    exec (.proj d src) s = .next ((s.setWave d (projectToGrid (s.grid src))).complete []) := rfl

theorem exec_extr (d src : Reg) (s : State) :
    exec (.extr d src) s =
      withWaveform s src (encodeWord (.extr d src)) fun x => .next ((s.setGrid d (extractFromGrid x)).complete []) := rfl

/-- Settles O42: `W[d]` reads the projected grid, whose positions are active or zero. -/
theorem projPlacesEightSamplesInZeros : Obligations.ProjPlacesEightSamplesInZeros := by
  intro d src
  refine ⟨proj_encodedAs d src, fun s => ⟨_, exec_proj d src s, ?_⟩⟩
  rw [complete_wave, setWave_wave, if_pos rfl]
  exact ⟨projectToGrid_length _, projectToGrid_active _, fun _ => projectToGrid_inactive _,
    setWave_complete_filesKept s d _ [], setWave_complete_restKept s d _ [], setWave_complete_completed s d _ (by decide)⟩

/-- Settles O43: both sides of the length check, and on 64 Samples lane `k` of the grid written is position `8 * k`. -/
theorem extrReadsTheEightPositions : Obligations.ExtrReadsTheEightPositions := by
  intro d src
  refine ⟨extr_encodedAs d src, fun s => ?_⟩
  rw [exec_extr]
  refine ⟨fun h => ⟨_, withWaveform_of_length s src _ _ h, fun k => ?_, setGrid_complete_spec s d _ (by decide)⟩,
    fun h => withWaveform_raises h _⟩
  rw [complete_slot, setGrid_slot, if_pos rfl, getElem?_extractFromGrid h]

end Sys2Proof.Machine
end

