-- ==== Sys2Proof/Proofs/Noise.lean ====
section
/-! PROOFS. `NOISE` (44_noise_adder.md R93): its packet, the class of a sum with a draw, the Samples it writes, and its two
checks in their order. -/

namespace Sys2Proof.Machine

/-! ### The class of a word built from its fields (20_memory.md R32, 47 R178) -/

section
variable (negative : Bool) {m : Nat} (fits : m < 2 ^ 63)
include fits

theorem fOfBits_toNat : (fOfBits negative m).toNat = if negative = true then 2 ^ 63 + m else m := by
  rw [fOfBits, BitVec.toNat_ofNat, Nat.mod_eq_of_lt (by split <;> omega)]

theorem fExp_fOfBits : fExp (fOfBits negative m) = m / 2 ^ 52 := by
  rw [fExp_eq, fOfBits_toNat negative fits]
  split <;> omega

theorem fFrac_fOfBits : fFrac (fOfBits negative m) = m % 2 ^ 52 := by
  rw [fFrac_eq, fOfBits_toNat negative fits]
  split <;> omega

end

/-- The exponent field of a finite value is below 0x7FF. -/
theorem finiteBits_finite (v : Finite64) : fIsFinite (finiteBits v) = true := by
  have exponent := v.exponent.isLt
  have frac := v.frac.isLt
  rw [fIsFinite, finiteBits, fExp_fOfBits _ (by omega), bne_iff_ne]
  omega

/-- The exponent field of a NaN is 0x7FF, and its fraction is not zero. -/
theorem nanBits_nan (n : NaN64) : fIsNaN (nanBits n) = true := by
  have frac := n.frac.isLt
  have fits : fInfBits + n.frac.val + 1 < 2 ^ 63 := by unfold fInfBits; omega
  rw [fIsNaN, nanBits, fExp_fOfBits _ fits, fFrac_fOfBits _ fits, Bool.and_eq_true, beq_iff_eq, bne_iff_ne]
  unfold fInfBits
  omega

/-! ### The three classes exclude each other -/

section
variable {x : F64}

theorem not_nan_of_inf (infinite : fIsInf x = true) : fIsNaN x = false := by
  obtain ⟨-, frac⟩ := (Bool.and_eq_true _ _).mp infinite
  simp [fIsNaN, eq_of_beq frac]

theorem not_nan_of_finite (finite : fIsFinite x = true) : fIsNaN x = false := by
  simp [fIsNaN, bne_iff_ne.mp finite]

theorem not_inf_of_finite (finite : fIsFinite x = true) : fIsInf x = false := by
  simp [fIsInf, bne_iff_ne.mp finite]

end

/-! ### A sum with a finite value -/

section
variable {x y : F64}

theorem fadd_nan_left (nan : fIsNaN x = true) : fIsNaN (fadd x y) = true := by
  rw [fadd, fAddOr, nan, Bool.true_or, if_pos rfl]
  exact nanBits_nan _

theorem fadd_inf_left (infinite : fIsInf x = true) (finite : fIsFinite y = true) : fadd x y = x := by
  simp [fadd, fAddOr, infinite, not_nan_of_inf infinite, not_nan_of_finite finite, not_inf_of_finite finite]

end

/-! ### The draws (44_noise_adder.md R95) -/

theorem draw_of_zero {variance : F64} (zero : fIsZero variance = true) (position : Nat) : draw variance position = 0 :=
  if_pos zero

theorem draw_finite (variance : F64) (position : Nat) : fIsFinite (draw variance position) = true := by
  unfold draw
  split
  case isTrue zero => rfl
  case isFalse nonzero => exact finiteBits_finite _

/-- Sample `j` takes draws `2 * j` and `2 * j + 1`. -/
theorem applyNoise_getElem? (variance : F64) (position : Nat) (x : List Sample) (j : Nat) :
    (applyNoise variance position x)[j]? = x[j]?.map fun a =>
      ⟨fadd a.re (draw variance (position + 2 * j)), fadd a.im (draw variance (position + 2 * j + 1))⟩ := by
  induction x generalizing position j with
  | nil => rfl
  | cons a x ih =>
    cases j with
    | zero => rfl
    | succ j =>
      rw [applyNoise, List.getElem?_cons_succ, List.getElem?_cons_succ, ih,
        show position + 2 + 2 * j = position + 2 * (j + 1) by omega]

/-! ### The command -/

theorem noise_encodedAs (d src : Reg) : EncodedAs (0x40000000 + d.val * 2 ^ 22 + src.val * 2 ^ 20) [] (.noise d src) := by
  refine encodedAs_of_twoRegRow (opcode := 0x40000000) (by decide) fun p => ?_
  simp [decodePacket_eq_command_iff_row, opcodeMap, Row.selects]

theorem exec_noise (d src : Reg) (s : State) :
    exec (.noise d src) s = withWaveform s src (encodeWord (.noise d src)) fun x =>
      if nvarUsable s.nvar then
        .next (((s.setWave d (applyNoise s.nvar s.noisePos x)).advanceNoise drawsPerNoise).complete [])
      else .next (s.raise .invalidParameter (encodeWord (.noise d src))) := rfl

section
variable {src : Reg} {s : State} (d : Reg) (full : (s.wave src).length = 64)
include full

theorem exec_noise_of_usable (usable : nvarUsable s.nvar = true) :
    exec (.noise d src) s =
      .next (((s.setWave d (applyNoise s.nvar s.noisePos (s.wave src))).advanceNoise drawsPerNoise).complete []) := by
  rw [exec_noise, withWaveform_of_length s src _ _ full, if_pos usable]

theorem exec_noise_of_unusable (unusable : nvarUsable s.nvar = false) :
    exec (.noise d src) s = .next (s.raise .invalidParameter (encodeWord (.noise d src))) := by
  rw [exec_noise, withWaveform_of_length s src _ _ full, if_neg (by rw [unusable]; decide)]

end

/-- What a completed `NOISE` leaves: all but `W[d]` and the noise source, which is advanced. -/
theorem setWave_advanceNoise_complete_spec (s : State) (d : Reg) (x : List Sample) (n : Nat) :
    let t := ((s.setWave d x).advanceNoise n).complete []
    FilesKept s t [d] [] [] ∧ t.nvar = s.nvar ∧ t.cmd = s.cmd ∧ Completed s t [] := by
  obtain ⟨waves, grids, frames⟩ := setWave_complete_filesKept s d x []
  exact ⟨⟨waves, grids, frames⟩, rfl, rfl, rfl, rfl, complete_spec _ [] (by decide)⟩

/-- Settles O45: the two draws of Sample `j` are the finite values added to it, and the length is checked before `NVAR`. -/
theorem noiseAddsOneDrawPerComponent : Obligations.NoiseAddsOneDrawPerComponent := by
  intro d src
  refine ⟨noise_encodedAs d src, fun s => ⟨fun full usable => ?_, fun other => ?_, fun full unusable => ?_⟩⟩
  · refine ⟨_, exec_noise_of_usable d full usable, ?_⟩
    rw [complete_wave, advanceNoise_wave, setWave_wave, if_pos rfl]
    refine ⟨by rw [applyNoise_length, full], fun j x present => ?_, setWave_advanceNoise_complete_spec s d _ _⟩
    have real := draw_finite s.nvar (s.noisePos + 2 * j)
    have imaginary := draw_finite s.nvar (s.noisePos + 2 * j + 1)
    exact ⟨_, _, real, imaginary, fun zero => ⟨draw_of_zero zero _, draw_of_zero zero _⟩,
      by rw [applyNoise_getElem?, present, Option.map_some],
      fun infinite => fadd_inf_left infinite real, fun infinite => fadd_inf_left infinite imaginary,
      fadd_nan_left, fadd_nan_left⟩
  · rw [exec_noise]
    exact withWaveform_raises other _
  · exact ⟨_, exec_noise_of_unusable d full unusable, raise_spec s .invalidParameter _⟩

end Sys2Proof.Machine
end

