-- ==== Sys2Proof/Proofs/OneRegisterOperands.lean ====
section
/-! PROOFS. Which packet is a command of one register, with or without a slot, a frame or a Sample (30_encoding.md R46, R48, R49,
R51, R56). -/

namespace Sys2Proof

/-! ### Fields as numbers -/

/-- The field `rd` is zero. -/
theorem rdField_eq_zero_iff (w : CmdWord) : w.extractLsb' 22 2 = 0#2 ↔ w.toNat / 2 ^ 22 % 2 ^ 2 = 0 := by
  rw [← BitVec.toNat_inj, BitVec.extractLsb'_toNat, Nat.shiftRight_eq_div_pow, BitVec.toNat_zero]

theorem csrOf_eq_iff (w : CmdWord) (n : Csr) : csrOf w = n ↔ w.toNat / 2 ^ 16 % 2 ^ 4 = n.toNat := by
  rw [← BitVec.toNat_inj, csrOf_toNat]

theorem immOf_eq_iff (w : CmdWord) (v : Frame) : immOf w = v ↔ w.toNat % 2 ^ 16 = v.toNat := by
  rw [← BitVec.toNat_inj, immOf_toNat]

/-! ### The words of one register -/

/-- A word of a row whose one operand is `rd` is its opcode and that register, and nothing else. -/
theorem rdWord_iff (w : CmdWord) (op : BitVec 8) (d : Reg) :
    (w &&& 0xFF3FFFFF = packWord op 0 0 0 0 ∧ rdOf w = d) ↔ w.toNat = op.toNat * 2 ^ 24 + d.val * 2 ^ 22 := by
  have row : w &&& 0xFF3FFFFF = packWord op 0 0 0 0 ↔
      opcodeOf w = op ∧ w.extractLsb' 20 2 = 0#2 ∧ csrOf w = 0#4 ∧ immOf w = 0#16 := by
    refine (and_packWord_eq_iff w (.allOnes 8) op 0#2 0#2 (.allOnes 2) 0#2 (.allOnes 4) 0#4 (.allOnes 16) 0#16).trans ?_
    simp only [BitVec.and_allOnes, BitVec.and_zero, true_and]
  rw [row, opcodeOf_eq_iff, rsField_eq_zero_iff, csrOf_eq_iff, immOf_eq_iff, rdOf_eq_iff, BitVec.toNat_zero, BitVec.toNat_zero]
  omega

/-- A word of a row whose one operand is `rs` is its opcode and that register, and nothing else. -/
theorem rsWord_iff (w : CmdWord) (op : BitVec 8) (s : Reg) :
    (w &&& 0xFFCFFFFF = packWord op 0 0 0 0 ∧ rsOf w = s) ↔ w.toNat = op.toNat * 2 ^ 24 + s.val * 2 ^ 20 := by
  have row : w &&& 0xFFCFFFFF = packWord op 0 0 0 0 ↔
      opcodeOf w = op ∧ w.extractLsb' 22 2 = 0#2 ∧ csrOf w = 0#4 ∧ immOf w = 0#16 := by
    refine (and_packWord_eq_iff w (.allOnes 8) op (.allOnes 2) 0#2 0#2 0#2 (.allOnes 4) 0#4 (.allOnes 16) 0#16).trans ?_
    simp only [BitVec.and_allOnes, BitVec.and_zero, true_and]
  rw [row, opcodeOf_eq_iff, rdField_eq_zero_iff, csrOf_eq_iff, immOf_eq_iff, rsOf_eq_iff, BitVec.toNat_zero, BitVec.toNat_zero]
  omega

/-! ### The words of one register with a slot or a frame -/

/-- A word of the row of `GWR` is its opcode, its register and its slot, and nothing else. -/
theorem gwrWord_iff (w : CmdWord) (d : Reg) (k : Slot) :
    (w &&& 0xFF38FFFF = 0x53000000 ∧ rdOf w = d ∧ slotOf w = k) ↔
      w.toNat = 0x53000000 + d.val * 2 ^ 22 + k.val * 2 ^ 16 := by
  have row : w &&& 0xFF38FFFF = 0x53000000 ↔
      opcodeOf w = 0x53#8 ∧ w.extractLsb' 20 2 = 0#2 ∧ (csrOf w).toNat < 8 ∧ immOf w = 0#16 := by
    refine (and_packWord_eq_iff w (.allOnes 8) 0x53#8 0#2 0#2 (.allOnes 2) 0#2 8#4 0#4 (.allOnes 16) 0#16).trans ?_
    simp only [BitVec.and_allOnes, BitVec.and_zero, and_idxTop_eq_zero_iff, true_and]
  rw [row, opcodeOf_eq_iff, rsField_eq_zero_iff, csrOf_toNat, immOf_eq_iff, rdOf_eq_iff, slotOf_eq_iff, BitVec.toNat_ofNat,
    BitVec.toNat_zero]
  omega

/-- A word of the row of `GRD` is its opcode, its register and its slot, and nothing else. -/
theorem grdWord_iff (w : CmdWord) (s : Reg) (k : Slot) :
    (w &&& 0xFFC8FFFF = 0x54000000 ∧ rsOf w = s ∧ slotOf w = k) ↔
      w.toNat = 0x54000000 + s.val * 2 ^ 20 + k.val * 2 ^ 16 := by
  have row : w &&& 0xFFC8FFFF = 0x54000000 ↔
      opcodeOf w = 0x54#8 ∧ w.extractLsb' 22 2 = 0#2 ∧ (csrOf w).toNat < 8 ∧ immOf w = 0#16 := by
    refine (and_packWord_eq_iff w (.allOnes 8) 0x54#8 (.allOnes 2) 0#2 0#2 0#2 8#4 0#4 (.allOnes 16) 0#16).trans ?_
    simp only [BitVec.and_allOnes, BitVec.and_zero, and_idxTop_eq_zero_iff, true_and]
  rw [row, opcodeOf_eq_iff, rdField_eq_zero_iff, csrOf_toNat, immOf_eq_iff, rsOf_eq_iff, slotOf_eq_iff, BitVec.toNat_ofNat,
    BitVec.toNat_zero]
  omega

/-- A word of the row of `SLD` is its opcode, its register and its frame, and nothing else. -/
theorem sldWord_iff (w : CmdWord) (d : Reg) (v : Frame) :
    (w &&& 0xFF3F0000 = 0x55000000 ∧ rdOf w = d ∧ immOf w = v) ↔ w.toNat = 0x55000000 + d.val * 2 ^ 22 + v.toNat := by
  have row : w &&& 0xFF3F0000 = 0x55000000 ↔ opcodeOf w = 0x55#8 ∧ w.extractLsb' 20 2 = 0#2 ∧ csrOf w = 0#4 := by
    refine (and_packWord_eq_iff w (.allOnes 8) 0x55#8 0#2 0#2 (.allOnes 2) 0#2 (.allOnes 4) 0#4 0#16 0#16).trans ?_
    simp only [BitVec.and_allOnes, BitVec.and_zero, true_and, and_true]
  rw [row, opcodeOf_eq_iff, rsField_eq_zero_iff, csrOf_eq_iff, immOf_eq_iff, rdOf_eq_iff, BitVec.toNat_ofNat, BitVec.toNat_zero]
  omega

/-! ### Packets with payload (30_encoding.md R51) -/

/-- Two beats are the payload of one Sample, the real component first. -/
theorem payloadSample_eq_iff (b : List Beat) (x : Sample) :
    (b.length = 2 ∧ payloadSample b = x) ↔ b = [x.re, x.im] := by
  constructor
  · rintro ⟨twoBeats, rfl⟩
    obtain ⟨re, im, rfl⟩ := List.length_eq_two.mp twoBeats
    rfl
  · rintro rfl
    exact ⟨rfl, rfl⟩

/-- The packet of a command with payload, from the row that accepts it, the one word that the row reads as its operands, and
the one payload that it reads as its data. -/
theorem encodedAs_of_payloadRow {mask opcode : CmdWord} {n count : Nat} {payload : List Beat} {operands : CmdWord → Prop}
    {data : List Beat → Prop} {i : Instr} (fitsWord : n < 2 ^ 32)
    (accepts : ∀ p : CmdPacket, decodePacket p = .command i ↔
      p.head.extractLsb' 32 32 = 0 ∧ p.word &&& mask = opcode ∧ p.payload.length = count ∧ operands p.word ∧ data p.payload)
    (oneWord : ∀ w : CmdWord, (w &&& mask = opcode ∧ operands w) ↔ w.toNat = n)
    (onePayload : ∀ b : List Beat, (b.length = count ∧ data b) ↔ b = payload) : Machine.EncodedAs n payload i := by
  intro p
  rw [accepts, p.head_toNat_eq_iff fitsWord, ← oneWord p.word, ← onePayload p.payload]
  tauto

end Sys2Proof
end

