-- ==== Sys2Proof/Proofs/DataMovement.lean ====
section
/-! PROOFS. Data movement (45_data_movement.md R99 to R105): the packets of the seven commands, the beats of a waveform register,
and what the commands write and answer. -/

namespace Sys2Proof.Machine

/-! ### The packets of the seven commands -/

theorem wclr_encodedAs (d : Reg) : EncodedAs (0x50000000 + d.val * 2 ^ 22) [] (.wclr d) := by
  refine encodedAs_of_row (by omega) (fun p => ?_) (rdWord_iff · 0x50 d)
  simp [decodePacket_eq_command_iff_row, opcodeMap, Row.selects, packWord]

theorem wpush_encodedAs (d : Reg) (x : Sample) :
    EncodedAs (0x51000000 + d.val * 2 ^ 22) [x.re, x.im] (.wpush d x) := by
  refine encodedAs_of_payloadRow (by omega) (fun p => ?_) (rdWord_iff · 0x51 d) (payloadSample_eq_iff · x)
  simp [decodePacket_eq_command_iff_row, opcodeMap, Row.selects, packWord]

theorem wout_encodedAs (src : Reg) : EncodedAs (0x52000000 + src.val * 2 ^ 20) [] (.wout src) := by
  refine encodedAs_of_row (by omega) (fun p => ?_) (rsWord_iff · 0x52 src)
  simp [decodePacket_eq_command_iff_row, opcodeMap, Row.selects, packWord]

theorem gwr_encodedAs (d : Reg) (k : Slot) (x : Sample) :
    EncodedAs (0x53000000 + d.val * 2 ^ 22 + k.val * 2 ^ 16) [x.re, x.im] (.gwr d k x) := by
  refine encodedAs_of_payloadRow (by omega) (fun p => ?_) (gwrWord_iff · d k) (payloadSample_eq_iff · x)
  simp [decodePacket_eq_command_iff_row, opcodeMap, Row.selects, and_assoc]

theorem grd_encodedAs (src : Reg) (k : Slot) :
    EncodedAs (0x54000000 + src.val * 2 ^ 20 + k.val * 2 ^ 16) [] (.grd src k) := by
  refine encodedAs_of_row (by omega) (fun p => ?_) (grdWord_iff · src k)
  simp [decodePacket_eq_command_iff_row, opcodeMap, Row.selects]

theorem sld_encodedAs (d : Reg) (v : Frame) : EncodedAs (0x55000000 + d.val * 2 ^ 22 + v.toNat) [] (.sld d v) := by
  refine encodedAs_of_row (by omega) (fun p => ?_) (sldWord_iff · d v)
  simp [decodePacket_eq_command_iff_row, opcodeMap, Row.selects]

theorem srd_encodedAs (src : Reg) : EncodedAs (0x56000000 + src.val * 2 ^ 20) [] (.srd src) := by
  refine encodedAs_of_row (by omega) (fun p => ?_) (rsWord_iff · 0x56 src)
  simp [decodePacket_eq_command_iff_row, opcodeMap, Row.selects, packWord]

/-! ### The beats of a waveform register (45_data_movement.md R101) -/

/-- Each Sample takes two beats, so that the beats of Sample `j` start at `2 * j`. -/
theorem waveBeats_getElem? {x : List Sample} {j : Nat} {a : Sample} (present : x[j]? = some a) :
    (waveBeats x)[2 * j]? = some a.re ∧ (waveBeats x)[2 * j + 1]? = some a.im := by
  induction x generalizing j with
  | nil => cases present
  | cons b x ih =>
    cases j with
    | zero =>
      cases present
      exact ⟨rfl, rfl⟩
    | succ j => exact ih present

/-! ### Completing -/

/-- What a command that only answers leaves: every register. -/
theorem complete_only_spec (s : State) {data : List Beat} (fits : data.length < 256) :
    FilesKept s (s.complete data) [] [] [] ∧ RestKept s (s.complete data) ∧ Completed s (s.complete data) data :=
  ⟨⟨fun _ _ => rfl, fun _ _ => rfl, fun _ _ => rfl⟩, ⟨rfl, rfl, rfl⟩, ⟨rfl, rfl, complete_spec s data fits⟩⟩

/-- A command that writes one waveform register and answers no data: the register reads `x`, and all else is kept. -/
theorem setWave_complete_spec (s : State) (d : Reg) (x : List Sample) :
    let t := (s.setWave d x).complete []
    t.wave d = x ∧ FilesKept s t [d] [] [] ∧ RestKept s t ∧ Completed s t [] :=
  ⟨by rw [complete_wave, setWave_wave, if_pos rfl], setWave_complete_filesKept s d x [], setWave_complete_restKept s d x [],
    setWave_complete_completed s d x (by decide)⟩

/-! ### Waveform registers -/

theorem exec_wclr (d : Reg) (s : State) : exec (.wclr d) s = .next ((s.setWave d []).complete []) := rfl

theorem exec_wpush_of_room {d : Reg} {s : State} (x : Sample) (room : (s.wave d).length ≠ 64) :
    exec (.wpush d x) s = .next ((s.setWave d (s.wave d ++ [x])).complete []) := if_neg room

theorem exec_wpush_of_full {d : Reg} {s : State} (x : Sample) (full : (s.wave d).length = 64) :
    exec (.wpush d x) s = .next (s.raise .invalidLength (encodeWord (.wpush d x))) := if_pos full

theorem exec_wout (src : Reg) (s : State) : exec (.wout src) s = .next (s.complete (waveBeats (s.wave src))) := rfl

/-- Settles O48: `W[d]` is written with the empty sequence. -/
theorem wclrEmptiesTheRegister : Obligations.WclrEmptiesTheRegister := by
  intro d
  exact ⟨wclr_encodedAs d, fun s => ⟨_, exec_wclr d s, setWave_complete_spec s d []⟩⟩

/-- Settles O49: the two sides of the check for a full register. -/
theorem wpushAppendsOrRaisesInvalidLength : Obligations.WpushAppendsOrRaisesInvalidLength := by
  intro d x
  refine ⟨wpush_encodedAs d x, fun s => ⟨fun room => ?_, fun full => ?_⟩⟩
  · exact ⟨_, exec_wpush_of_room x room, setWave_complete_spec s d _⟩
  · exact ⟨_, exec_wpush_of_full x full, raise_spec s .invalidLength _⟩

/-- Settles O50: the data beats are those of the register, of which 64 Samples give 128, few enough for the header's count. -/
theorem woutReadsEverySample : Obligations.WoutReadsEverySample := by
  intro src
  refine ⟨wout_encodedAs src, fun s atMostFull => ?_⟩
  have beats := waveBeats_length (s.wave src)
  exact ⟨_, _, exec_wout src s, beats, fun _ _ => waveBeats_getElem?, complete_only_spec s (by omega)⟩

/-! ### Active-grid registers -/

theorem exec_gwr (d : Reg) (k : Slot) (x : Sample) (s : State) :
    exec (.gwr d k x) s = .next ((s.setSlot d k x).complete []) := rfl

theorem exec_grd (src : Reg) (k : Slot) (s : State) :
    exec (.grd src k) s = .next (s.complete [(s.slot src k).re, (s.slot src k).im]) := rfl

/-- Settles O51: slot `k` reads the Sample, and a write of one slot leaves the other seven. -/
theorem gwrWritesOneSlot : Obligations.GwrWritesOneSlot := by
  intro d k x
  refine ⟨gwr_encodedAs d k x, fun s => ⟨_, exec_gwr d k x s, ?_, fun j other => ?_,
    setGrid_complete_spec s d _ (by decide)⟩⟩
  · rw [complete_slot, setSlot_slot, if_pos ⟨rfl, rfl⟩]
  · rw [complete_slot, setSlot_slot, if_neg fun same => other same.2]

/-- Settles O52: the answer is the slot's two components. -/
theorem grdReadsOneSlot : Obligations.GrdReadsOneSlot := by
  intro src k
  exact ⟨grd_encodedAs src k, fun s => ⟨_, exec_grd src k s, complete_only_spec s (by simp)⟩⟩

/-! ### Symbol registers -/

theorem exec_sld (d : Reg) (v : Frame) (s : State) : exec (.sld d v) s = .next ((s.setFrame d v).complete []) := rfl

theorem exec_srd (src : Reg) (s : State) : exec (.srd src) s = .next (s.complete [(s.frame src).setWidth 64]) := rfl

/-- Settles O53: `S[d]` is written with the operand. -/
theorem sldLoadsTheFrame : Obligations.SldLoadsTheFrame := by
  intro d v
  refine ⟨sld_encodedAs d v, fun s => ⟨_, exec_sld d v s, ?_, setFrame_complete_spec s d v (by decide)⟩⟩
  rw [complete_frame, setFrame_frame, if_pos rfl]

/-- Settles O54: widening a frame to a beat keeps its number. -/
theorem srdReadsTheFrame : Obligations.SrdReadsTheFrame := by
  intro src
  refine ⟨srd_encodedAs src, fun s => ⟨_, _, exec_srd src s, ?_, complete_only_spec s (by simp)⟩⟩
  exact BitVec.toNat_setWidth_of_le (by decide)

end Sys2Proof.Machine
end

