-- ==== Sys2Proof/Proofs/System.lean ====
section
/-! PROOFS. The system commands `CRD` and `CWR` (46_system.md R107, R108): their packets, what each CSR number reads, and the
one register that a CSR number writes. -/

namespace Sys2Proof

/-! ### The words and the payload of a CSR command (30_encoding.md R48, R51, R56) -/

/-- A word of a row whose one operand is a CSR number is its opcode and that number, and nothing else: the row keeps all four
bits of `idx`. -/
theorem csrWord_iff (w : CmdWord) (op : BitVec 8) (n : Csr) :
    (w &&& 0xFFF0FFFF = packWord op 0 0 0 0 ∧ csrOf w = n) ↔ w.toNat = op.toNat * 2 ^ 24 + n.toNat * 2 ^ 16 := by
  have row : w &&& 0xFFF0FFFF = packWord op 0 0 0 0 ↔
      opcodeOf w = op ∧ w.extractLsb' 22 2 = 0#2 ∧ w.extractLsb' 20 2 = 0#2 ∧ immOf w = 0#16 := by
    refine (and_packWord_eq_iff w (.allOnes 8) op (.allOnes 2) 0#2 (.allOnes 2) 0#2 0#4 0#4 (.allOnes 16) 0#16).trans ?_
    simp only [BitVec.and_allOnes, BitVec.and_zero, true_and]
  rw [row, opcodeOf_eq_iff, rdField_eq_zero_iff, rsField_eq_zero_iff, immOf_eq_iff, csrOf_eq_iff, BitVec.toNat_zero]
  omega

/-- One beat is the payload of `CWR`: the value to write. -/
theorem payloadValue_eq_iff (b : List Beat) (v : BitVec 64) : (b.length = 1 ∧ b.getD 0 0 = v) ↔ b = [v] := by
  constructor
  · rintro ⟨oneBeat, rfl⟩
    obtain ⟨value, rfl⟩ := List.length_eq_one_iff.mp oneBeat
    rfl
  · rintro rfl
    exact ⟨rfl, rfl⟩

end Sys2Proof

namespace Sys2Proof.Machine

/-! ### The packets of the two commands -/

theorem crd_encodedAs (n : Csr) : EncodedAs (0x60000000 + n.toNat * 2 ^ 16) [] (.crd n) := by
  refine encodedAs_of_row (by omega) (fun p => ?_) (csrWord_iff · 0x60 n)
  simp [decodePacket_eq_command_iff_row, opcodeMap, Row.selects, packWord]

theorem cwr_encodedAs (n : Csr) (v : BitVec 64) : EncodedAs (0x61000000 + n.toNat * 2 ^ 16) [v] (.cwr n v) := by
  refine encodedAs_of_payloadRow (by omega) (fun p => ?_) (csrWord_iff · 0x61 n) (payloadValue_eq_iff · v)
  simp [decodePacket_eq_command_iff_row, opcodeMap, Row.selects, packWord]

/-! ### The register of a CSR number (10_state.md R19) -/

section
variable (s : State) {n : Csr}

theorem csr_of_assigned (assigned : n.toNat ≤ 2) :
    s.csr n = some (if n = 0 then s.nvar else if n = 1 then s.err else s.ecmd) := by
  have number : n = 0 ∨ n = 1 ∨ n = 2 := by bv_omega
  obtain rfl | rfl | rfl := number <;> rfl

theorem csr_of_unassigned (unassigned : 2 < n.toNat) : s.csr n = none := by
  obtain ⟨k, number⟩ := Nat.exists_eq_add_of_le' unassigned
  simp only [State.csr, number]

end

/-! ### Reading -/

section
variable {s : State} {n : Csr}

theorem exec_crd_of_some {v : BitVec 64} (register : s.csr n = some v) : exec (.crd n) s = .next (s.complete [v]) := by
  simp only [exec, execCrd, register]

theorem exec_crd_of_none (noRegister : s.csr n = none) :
    exec (.crd n) s = .next (s.raise .illegalCommand (encodeWord (.crd n))) := by
  simp only [exec, execCrd, noRegister]

end

/-- Settles O55: a CSR number up to 2 names a register, whose value is the answer, and every number above names none. -/
theorem crdReadsARegisterOrRaisesIllegalCommand : Obligations.CrdReadsARegisterOrRaisesIllegalCommand := by
  intro n
  refine ⟨crd_encodedAs n, fun s => ⟨fun assigned => ?_, fun unassigned => ?_⟩⟩
  · exact ⟨_, exec_crd_of_some (csr_of_assigned s assigned), complete_only_spec s (by simp)⟩
  · exact ⟨_, exec_crd_of_none (csr_of_unassigned s unassigned), raise_spec s .illegalCommand _⟩

/-! ### Writing -/

theorem exec_cwr_nvar (v : BitVec 64) (s : State) : exec (.cwr 0 v) s = .next ((s.setNvar v).complete []) := rfl

theorem exec_cwr_of_not_nvar {n : Csr} (v : BitVec 64) (s : State) (notNvar : n ≠ 0) :
    exec (.cwr n v) s = .next (s.raise .illegalCommand (encodeWord (.cwr n v))) := if_pos notNvar

/-- What writing `NVAR` and completing leaves: `NVAR` reads the value, and every other register is kept. -/
theorem setNvar_complete_spec (s : State) (v : BitVec 64) :
    let t := (s.setNvar v).complete []
    t.nvar = v ∧ FilesKept s t [] [] [] ∧ t.noisePos = s.noisePos ∧ t.cmd = s.cmd ∧ Completed s t [] :=
  ⟨rfl, ⟨fun _ _ => rfl, fun _ _ => rfl, fun _ _ => rfl⟩, rfl, rfl, ⟨rfl, rfl, complete_spec (s.setNvar v) [] (by decide)⟩⟩

/-- Settles O56: number 0 writes `NVAR` with the payload, unjudged, and every other number is refused before anything is
written. -/
theorem cwrWritesTheVarianceOrRaisesIllegalCommand : Obligations.CwrWritesTheVarianceOrRaisesIllegalCommand := by
  intro n v
  refine ⟨cwr_encodedAs n v, fun s => ⟨?_, fun notNvar => ?_⟩⟩
  · rintro rfl
    exact ⟨_, exec_cwr_nvar v s, setNvar_complete_spec s v⟩
  · exact ⟨_, exec_cwr_of_not_nvar v s notNvar, raise_spec s .illegalCommand _⟩

end Sys2Proof.Machine
end

