-- ==== Sys2Proof/Proofs/UsableVariance.lean ====
section
/-! PROOFS. Which bit patterns of `NVAR` are usable (47_numerics_and_absent_families.md R178): the fields that decide, as
numbers, and one rule per class of a word in the order in which R178 asks for them. -/

namespace Sys2Proof.Machine

section
variable {v : F64}

/-! ### The fields that decide -/

theorem fIsZero_iff : fIsZero v = true ↔ v.toNat / 2 ^ 52 % 2 ^ 11 = 0 ∧ v.toNat % 2 ^ 52 = 0 := by
  rw [fIsZero, Bool.and_eq_true, beq_iff_eq, beq_iff_eq, fExp_eq, fFrac_eq]

theorem fIsFinite_iff : fIsFinite v = true ↔ v.toNat / 2 ^ 52 % 2 ^ 11 ≠ 0x7FF := by
  rw [fIsFinite, bne_iff_ne, fExp_eq]

/-- The sign bit is what stands above the 63 other bits. -/
theorem not_fSign_eq : (!fSign v) = decide (v.toNat / 2 ^ 63 = 0) := by
  rw [fSign_eq, ← decide_not, decide_eq_decide]
  omega

/-! ### One rule per class -/

theorem nvarUsable_of_zero (zero : fIsZero v = true) : nvarUsable v = true := by
  rw [nvarUsable, zero, Bool.true_or]

/-- A word of exponent field 0x7FF is an infinity or a NaN: its fraction is zero or is not. -/
theorem nvarUsable_of_fExp_eq_0x7FF (special : fExp v = 0x7FF) : nvarUsable v = false := by
  have nonzero : fIsZero v = false := by simp [fIsZero, special]
  by_cases frac : fFrac v = 0
  · have infinite : fIsInf v = true := by simp [fIsInf, special, frac]
    simp [nvarUsable, nonzero, infinite]
  · have nan : fIsNaN v = true := by simp [fIsNaN, special, frac]
    simp [nvarUsable, nonzero, nan]

/-- Among the nonzero finite words only the sign decides. -/
theorem nvarUsable_of_nonzero_finite (nonzero : fIsZero v = false) (finite : fIsFinite v = true) :
    nvarUsable v = !fSign v := by
  simp [nvarUsable, nonzero, not_nan_of_finite finite, not_inf_of_finite finite]

end

/-- Settles O47: a zero, then an exponent field of 0x7FF, then the sign. -/
theorem usableVarianceByBitPattern : Obligations.UsableVarianceByBitPattern := by
  intro v e f
  split
  case isTrue zero => exact nvarUsable_of_zero (fIsZero_iff.mpr zero)
  case isFalse nonzero =>
    split
    case isTrue special => exact nvarUsable_of_fExp_eq_0x7FF ((fExp_eq v).trans special)
    case isFalse finite =>
      rw [← not_fSign_eq]
      exact nvarUsable_of_nonzero_finite (Bool.eq_false_iff.mpr (mt fIsZero_iff.mp nonzero)) (fIsFinite_iff.mpr finite)

end Sys2Proof.Machine
end

