-- ==== Sys2Proof/Proofs/Station.lean ====
section
/-! PROOFS. The station's allocation table (48_host_context.md section 2): what marking a run does to each slot, and the two
cases of `deallocate`. -/

namespace Sys2Proof.Machine

/-! ### The rules of the table's operations -/

@[simp] theorem mark_getElem (st : Station) (a : Allocation) (b : Bool) (i : Fin 8) :
    (st.mark a b)[i] = if a.start ≤ i.val ∧ i.val < a.start + a.count then b else st.used[i] := by
  simp [Station.mark]

section
variable {st : Station} {u : UserId}

theorem deallocate_of_none (absent : st.table[u] = none) : st.deallocate u = st := by
  rw [Station.deallocate, absent]

theorem deallocate_of_some {a : Allocation} (live : st.table[u] = some a) :
    st.deallocate u = ⟨st.mark a false, st.table.set u none⟩ := by
  rw [Station.deallocate, live]

/-! ### The two parts of the table after `deallocate` -/

/-- Of a live allocation exactly the run becomes free. -/
theorem deallocate_used {a : Allocation} (live : st.table[u] = some a) (i : Fin 8) :
    (st.deallocate u).used[i] = if a.start ≤ i.val ∧ i.val < a.start + a.count then false else st.used[i] := by
  rw [deallocate_of_some live, mark_getElem]

end

/-- With or without an allocation the user has no entry afterwards. -/
theorem deallocate_table_self (st : Station) (u : UserId) : (st.deallocate u).table[u] = none := by
  cases entry : st.table[u] with
  | none => rw [deallocate_of_none entry, entry]
  | some a =>
    rw [deallocate_of_some entry]
    exact Vector.getElem_set_self u.isLt

/-- No other user's entry changes, in either case. -/
theorem deallocate_table_of_ne (st : Station) {u v : UserId} (other : v ≠ u) :
    (st.deallocate u).table[v] = st.table[v] := by
  cases entry : st.table[u] with
  | none => rw [deallocate_of_none entry]
  | some a =>
    rw [deallocate_of_some entry]
    exact Vector.getElem_set_ne u.isLt v.isLt (Fin.val_ne_of_ne other.symm)

/-- Settles O58: without an entry nothing changes; with one, the rules of the mapping and of the bitmap. -/
theorem deallocateFreesExactlyTheRun : Obligations.DeallocateFreesExactlyTheRun := by
  intro st u
  exact ⟨deallocate_of_none, fun _ live =>
    ⟨deallocate_table_self st u, fun _ other => deallocate_table_of_ne st other, deallocate_used live⟩⟩

end Sys2Proof.Machine
end

