-- ==== Sys2Proof/Proofs/Decoding.lean ====
section
/-! PROOFS. Decoder and encoder agree (30_encoding.md sections 3 to 5): every command has exactly one packet, and the packets
accepted by mask and match are those that are well formed field by field. -/

namespace Sys2Proof

open Machine

/-! ### One packet for each command -/

@[simp] theorem regField_toNat (r : Reg) : (regField r).toNat = r.val := by simp [regField]

@[simp] theorem slotField_toNat (k : Slot) : (slotField k).toNat = k.val := by revert k; decide

@[simp] theorem symbolField_toNat (v : Symbol) : (v.setWidth 16).toNat = v.toNat := BitVec.toNat_setWidth_of_le (by decide)

/-- The packet that the encoder writes is the only one that decodes to the command: the laws of the single commands, with the
number of the word packed from its fields. -/
theorem encodedAs_encode (i : Instr) : EncodedAs (encodeWord i).toNat (encodePayload i) i := by
  cases i <;> simp only [encodeWord, packWord_toNat, encodePayload, regField_toNat, slotField_toNat, symbolField_toNat]
  case fft d s => simpa using fft_encodedAs d s
  case ifft d s => simpa using ifft_encodedAs d s
  case mod d k v => simpa using mod_encodedAs d k v
  case modv d s => simpa using modv_encodedAs d s
  case dem d s k => simpa using dem_encodedAs d s k
  case demv d s => simpa using demv_encodedAs d s
  case proj d s => simpa using proj_encodedAs d s
  case extr d s => simpa using extr_encodedAs d s
  case noise d s => simpa using noise_encodedAs d s
  case wclr d => simpa using wclr_encodedAs d
  case wpush d x => simpa using wpush_encodedAs d x
  case wout s => simpa using wout_encodedAs s
  case gwr d k x => simpa using gwr_encodedAs d k x
  case grd s k => simpa using grd_encodedAs s k
  case sld d v => simpa using sld_encodedAs d v
  case srd s => simpa using srd_encodedAs s
  case crd n => simpa using crd_encodedAs n
  case cwr n v => simpa using cwr_encodedAs n v

theorem encode_head_toNat (i : Instr) : (encode i).head.toNat = (encodeWord i).toNat :=
  BitVec.toNat_setWidth_of_le (by decide)

/-- Settles O1: the encoder's own packet has the number and the payload that the command's law asks for. -/
theorem encodedCommandsDecodeToThemselves : Obligations.EncodedCommandsDecodeToThemselves := by
  intro i
  exact (encodedAs_encode i (encode i)).mpr ⟨encode_head_toNat i, rfl⟩

/-- Settles O2: a packet that decodes has the number and the payload of the command's law, which are those of the encoder's
packet. -/
theorem acceptedPacketsAreTheEncodings : Obligations.AcceptedPacketsAreTheEncodings := by
  rintro ⟨head, payload⟩ i accepted
  obtain ⟨number, data⟩ := (encodedAs_encode i _).mp accepted
  rw [CmdPacket.mk.injEq]
  exact ⟨BitVec.eq_of_toNat_eq ((encode_head_toNat i).trans number.symm), data.symm⟩

/-! ### Disjoint rows -/

/-- Settles O3: two rows of one word are one row, and no row stands twice in the map. -/
theorem opcodeRowsAreDisjoint : Obligations.OpcodeRowsAreDisjoint := by
  intro i j r r' w atI atJ selected selected'
  obtain rfl : r = r' := Row.eq_of_selects (List.mem_of_getElem? atI) (List.mem_of_getElem? atJ) selected selected'
  have inRange : i < opcodeMap.length := (List.getElem?_eq_some_iff.mp atI).1
  exact (List.getElem?_inj inRange (List.Nodup.of_map _ opcodeMap_opcode_nodup)).mp (atI.trans atJ.symm)

/-! ### Well-formed packets (30_encoding.md R46, R49, R51, R52) -/

/-- A word selects a row exactly when each of its fields passes the mask's part for that field. -/
theorem Row.selects_iff_fields (r : Row) (w : CmdWord) :
    r.selects w = true ↔
      opcodeOf w &&& r.mask.extractLsb' 24 8 = r.pattern.extractLsb' 24 8 ∧
        w.extractLsb' 22 2 &&& r.mask.extractLsb' 22 2 = r.pattern.extractLsb' 22 2 ∧
        w.extractLsb' 20 2 &&& r.mask.extractLsb' 20 2 = r.pattern.extractLsb' 20 2 ∧
        csrOf w &&& r.mask.extractLsb' 16 4 = r.pattern.extractLsb' 16 4 ∧
        immOf w &&& r.mask.extractLsb' 0 16 = r.pattern.extractLsb' 0 16 := by
  rw [Row.selects, beq_iff_eq]
  conv_lhs => rw [← packWord_fields r.mask, ← packWord_fields r.pattern]
  exact and_packWord_eq_iff ..

/-- A mask that holds a whole field, written as the number it is. -/
theorem and_of_eq_allOnes {n : Nat} {c : BitVec n} (whole : c = .allOnes n) (x : BitVec n) : x &&& c = x :=
  whole ▸ BitVec.and_allOnes

/-- The legality of the five fields is what the masks of the 18 rows ask for, with the row's payload count: of a word with an
assigned opcode one row is left, of any other none. -/
theorem requiredPayload_eq_some_iff (w : CmdWord) (n : Nat) :
    requiredPayload (opcodeOf w) (w.extractLsb' 22 2) (w.extractLsb' 20 2) (csrOf w) (immOf w) = some n ↔
      ∃ r ∈ opcodeMap, r.selects w = true ∧ n = r.payload := by
  have byNumber (c : BitVec 8) : opcodeOf w = c ↔ (opcodeOf w).toNat = c.toNat := BitVec.toNat_inj.symm
  simp only [opcodeMap, List.mem_cons, List.not_mem_nil, or_false, exists_eq_or_imp, exists_eq_left, Row.selects_iff_fields,
    BitVec.reduceExtractLsb', and_of_eq_allOnes (c := 255#8) rfl, and_of_eq_allOnes (c := 15#4) rfl,
    and_of_eq_allOnes (c := 3#2) rfl, and_of_eq_allOnes (c := 65535#16) rfl, BitVec.and_zero, and_idxTop_eq_zero_iff,
    and_aboveSymbol_eq_zero_iff, byNumber]
  unfold requiredPayload
  split
  case h_19 => simp_all
  all_goals
    rename _ = _ => opcode
    simp [opcode, and_assoc, eq_comm (a := n)]

/-- A field of the command word is that field of the command beat. -/
theorem CmdPacket.word_field (p : CmdPacket) {lo n : Nat} (inWord : lo + n ≤ 32) :
    p.word.extractLsb' lo n = p.head.extractLsb' lo n := by
  apply BitVec.eq_of_getLsbD_eq
  intro i inField
  simp [CmdPacket.word, BitVec.getLsbD_extractLsb', show lo + i < 32 by omega]

theorem CmdPacket.wellFormed_iff (p : CmdPacket) :
    p.wellFormed = true ↔ p.head.extractLsb' 32 32 = 0 ∧
      requiredPayload (opcodeOf p.word) (p.word.extractLsb' 22 2) (p.word.extractLsb' 20 2) (csrOf p.word) (immOf p.word) =
        some p.payload.length := by
  simp [CmdPacket.wellFormed, opcodeOf, csrOf, immOf, p.word_field]

/-- Settles O4: the field rules and the masks of the rows both say that some row accepts the packet. -/
theorem decoderAcceptsExactlyWellFormedPackets : Obligations.DecoderAcceptsExactlyWellFormedPackets := by
  intro p
  rw [p.wellFormed_iff, requiredPayload_eq_some_iff]
  simp only [decodePacket_eq_command_iff_row]
  constructor
  · rintro ⟨i, upper, r, inMap, selected, count, -⟩
    exact ⟨upper, r, inMap, selected, count⟩
  · rintro ⟨upper, r, inMap, selected, count⟩
    exact ⟨_, upper, r, inMap, selected, count, rfl⟩

/-! ### Written words -/

/-- Settles O5: each word is the number of the command's law. -/
theorem writtenWordsDecode : Obligations.WrittenWordsDecode := by
  have decodes (i : Instr) {beat : Nat} (number : beat = (encodeWord i).toNat) : DecodesAs beat (encodePayload i) i :=
    fun p head data => (encodedAs_encode i p).mpr ⟨head.trans number, data⟩
  exact ⟨decodes (.fft 1 0) rfl, decodes (.mod 0 3 2) rfl, decodes (.dem 0 1 2) rfl, decodes (.extr 2 1) rfl,
    decodes (.noise 2 1) rfl, decodes (.gwr 1 7 ⟨0xBFE0000000000000, 0x3FD0000000000000⟩) rfl, decodes (.sld 0 0xAC40) rfl,
    decodes (.cwr 0 0x3F847AE147AE147B) rfl⟩

end Sys2Proof
end

