-- ==== Sys2Proof/Proofs/Steps.lean ====
section
/-! PROOFS. What a step can do, said once: a command completes, having written what 10_state.md R15 lists for it and no fault
register, or it raises a fault with its own word and has written nothing else. The claims about every step follow: progress,
precise faults, sticky bits, the variance, the frame of every command and the invariant of the state. -/

namespace Sys2Proof.Machine

/-! ### The two ways a command ends -/

/-- The state `u`, from which the command `i` completes with `data`, is `s` but for what the command may write. -/
structure Writes (i : Instr) (s u : State) (data : List Beat) : Prop where
  elsewhere : AgreeElsewhere i s u
  err : u.err = s.err
  ecmd : u.ecmd = s.ecmd
  rsp : u.rsp = s.rsp
  nvar : u.nvar ≠ s.nvar → i = .cwr 0 u.nvar
  lengths : (∀ r, (s.wave r).length ≤ 64) → (∀ r, (u.wave r).length ≤ 64) ∧ data.length ≤ 128

/-- The command completes or raises a fault. -/
def Ends (i : Instr) (s : State) (o : Result) : Prop :=
  (∃ u data, o = .next (u.complete data) ∧ Writes i s u data) ∨ ∃ c, o = .next (s.raise c (encodeWord i))

section
variable {i : Instr} {s : State} {d : Reg}

theorem AgreeElsewhere.refl (i : Instr) (s : State) : AgreeElsewhere i s s :=
  ⟨fun _ _ => rfl, fun _ _ _ => rfl, fun _ _ => rfl, fun _ => rfl, fun _ => rfl, rfl⟩

/-! ### One rule for each kind of write -/

theorem writes_nothing {data : List Beat} (count : (∀ r, (s.wave r).length ≤ 64) → data.length ≤ 128) : Writes i s s data :=
  ⟨.refl i s, rfl, rfl, rfl, fun changed => absurd rfl changed, fun short => ⟨short, count short⟩⟩

theorem setWave_length_le {x : List Sample} (bounded : x.length ≤ 64) (short : ∀ r, (s.wave r).length ≤ 64) (r : Reg) :
    ((s.setWave d x).wave r).length ≤ 64 := by
  rw [setWave_wave]
  split
  · exact bounded
  · exact short r

theorem writes_setWave {x : List Sample} (listed : d ∈ writesWave i) (bounded : (∀ r, (s.wave r).length ≤ 64) → x.length ≤ 64) :
    Writes i s (s.setWave d x) [] where
  elsewhere :=
    { AgreeElsewhere.refl i s with
      waves := fun r other => by rw [setWave_wave, if_neg (ne_of_mem_of_not_mem listed other).symm] }
  err := rfl
  ecmd := rfl
  rsp := rfl
  nvar := fun changed => absurd rfl changed
  lengths short := ⟨setWave_length_le (bounded short) short, Nat.zero_le _⟩

/-- `NOISE` writes a waveform register and advances the noise source. -/
theorem writes_setWave_advanceNoise {x : List Sample} {n : Nat} (listed : d ∈ writesWave i) (noisy : usesNoise i = true)
    (bounded : x.length ≤ 64) : Writes i s ((s.setWave d x).advanceNoise n) [] where
  elsewhere :=
    { (writes_setWave listed fun _ => bounded).elsewhere with
      noise := fun quiet => absurd (quiet.symm.trans noisy) (by decide) }
  err := rfl
  ecmd := rfl
  rsp := rfl
  nvar := fun changed => absurd rfl changed
  lengths short := ⟨setWave_length_le bounded short, Nat.zero_le _⟩

theorem writes_setGrid {x : Vector Sample 8} (listed : ∀ k, (d, k) ∈ writesSlot i) : Writes i s (s.setGrid d x) [] where
  elsewhere :=
    { AgreeElsewhere.refl i s with
      slots := fun r k other => by
        rw [setGrid_slot, if_neg]
        rintro rfl
        exact other (listed k) }
  err := rfl
  ecmd := rfl
  rsp := rfl
  nvar := fun changed => absurd rfl changed
  lengths short := ⟨short, Nat.zero_le _⟩

theorem writes_setSlot {k : Slot} {x : Sample} (listed : (d, k) ∈ writesSlot i) : Writes i s (s.setSlot d k x) [] where
  elsewhere :=
    { AgreeElsewhere.refl i s with
      slots := fun r j other => by
        rw [setSlot_slot, if_neg]
        rintro ⟨rfl, rfl⟩
        exact other listed }
  err := rfl
  ecmd := rfl
  rsp := rfl
  nvar := fun changed => absurd rfl changed
  lengths short := ⟨short, Nat.zero_le _⟩

theorem writes_setFrame {v : Frame} (listed : d ∈ writesFrame i) : Writes i s (s.setFrame d v) [] where
  elsewhere :=
    { AgreeElsewhere.refl i s with
      frames := fun r other => by rw [setFrame_frame, if_neg (ne_of_mem_of_not_mem listed other).symm] }
  err := rfl
  ecmd := rfl
  rsp := rfl
  nvar := fun changed => absurd rfl changed
  lengths short := ⟨short, Nat.zero_le _⟩

theorem writes_setNvar (v : BitVec 64) : Writes (.cwr 0 v) s (s.setNvar v) [] where
  elsewhere :=
    { AgreeElsewhere.refl _ s with
      nvar := nofun }
  err := rfl
  ecmd := rfl
  rsp := rfl
  nvar := fun _ => rfl
  lengths short := ⟨short, Nat.zero_le _⟩

/-! ### Every command ends in one of the two ways -/

theorem ends_complete {u : State} {data : List Beat} (writes : Writes i s u data) : Ends i s (.next (u.complete data)) :=
  .inl ⟨u, data, rfl, writes⟩

theorem ends_raise (c : Cause) : Ends i s (.next (s.raise c (encodeWord i))) := .inr ⟨c, rfl⟩

theorem ends_withWaveform {src : Reg} {go : List Sample → Result} (passed : (s.wave src).length = 64 → Ends i s (go (s.wave src))) :
    Ends i s (withWaveform s src (encodeWord i) go) := by
  by_cases full : (s.wave src).length = 64
  · rw [withWaveform_of_length s src _ go full]
    exact passed full
  · rw [withWaveform_of_not_length s src _ go full]
    exact ends_raise _

end

theorem mem_allSlots : ∀ k : Slot, k ∈ allSlots := by decide

theorem exec_ends (i : Instr) (s : State) : Ends i s (exec i s) := by
  cases i with
  | fft d src =>
    rw [exec_fft]
    refine ends_withWaveform fun full => ends_complete (writes_setWave (List.mem_singleton_self d) fun _ => ?_)
    rw [fft64_length full]
  | ifft d src =>
    rw [exec_ifft]
    refine ends_withWaveform fun full => ends_complete (writes_setWave (List.mem_singleton_self d) fun _ => ?_)
    rw [ifft64_length full]
  | noise d src =>
    rw [exec_noise]
    refine ends_withWaveform fun full => ?_
    split
    case isTrue usable =>
      refine ends_complete (writes_setWave_advanceNoise (List.mem_singleton_self d) rfl ?_)
      rw [applyNoise_length, full]
    case isFalse unusable => exact ends_raise _
  | extr d src =>
    rw [exec_extr]
    exact ends_withWaveform fun _ => ends_complete (writes_setGrid fun k => List.mem_map_of_mem (mem_allSlots k))
  | modv d src => exact ends_complete (writes_setGrid fun k => List.mem_map_of_mem (mem_allSlots k))
  | proj d src => exact ends_complete (writes_setWave (List.mem_singleton_self d) fun _ => (projectToGrid_length _).le)
  | wclr d => exact ends_complete (writes_setWave (List.mem_singleton_self d) fun _ => Nat.zero_le _)
  | wpush d x =>
    by_cases full : (s.wave d).length = 64
    · rw [exec_wpush_of_full x full]
      exact ends_raise _
    · rw [exec_wpush_of_room x full]
      refine ends_complete (writes_setWave (List.mem_singleton_self d) fun short => ?_)
      have := short d
      rw [List.length_append, List.length_singleton]
      omega
  | mod d k | gwr d k => exact ends_complete (writes_setSlot (List.mem_singleton_self (d, k)))
  | dem d | demv d | sld d => exact ends_complete (writes_setFrame (List.mem_singleton_self d))
  | wout src =>
    refine ends_complete (writes_nothing fun short => ?_)
    have := short src
    rw [waveBeats_length]
    omega
  | grd | srd => exact ends_complete (writes_nothing fun _ => by simp [sampleBeats])
  | crd n =>
    cases register : s.csr n with
    | some v =>
      rw [exec_crd_of_some register]
      exact ends_complete (writes_nothing fun _ => by simp)
    | none =>
      rw [exec_crd_of_none register]
      exact ends_raise _
  | cwr n v =>
    by_cases writable : n = 0
    · subst writable
      exact ends_complete (writes_setNvar v)
    · rw [exec_cwr_of_not_nvar v s writable]
      exact ends_raise _

/-! ### Every step -/

/-- A step with a packet waiting takes it, and then completes the command that the packet is, or raises a fault with the
packet's own word. -/
theorem step_ends {s : State} {p : CmdPacket} {rest : List CmdPacket} (head : s.cmd = p :: rest) :
    (∃ i u data, decodePacket p = .command i ∧ step s = .next (u.complete data) ∧ Writes i (s.takePacket rest) u data) ∨
      ∃ c, step s = .next ((s.takePacket rest).raise c p.word) := by
  obtain ⟨i, accepted, ran⟩ | ⟨why, -, raised⟩ := step_of_packet s p rest head
  · obtain ⟨u, data, ended, writes⟩ | ⟨c, ended⟩ := exec_ends i (s.takePacket rest)
    · exact .inl ⟨i, u, data, accepted, ran.trans ended, writes⟩
    · refine .inr ⟨c, ?_⟩
      rw [ran, ended, ← encode_word, acceptedPacketsAreTheEncodings p i accepted]
  · exact .inr ⟨_, raised⟩

/-- The same as an inversion of `step`, with the idle step. -/
theorem step_cases {s t : State} (stepped : step s = .next t) :
    (s.cmd = [] ∧ t = s) ∨
      ∃ p rest, s.cmd = p :: rest ∧
        ((∃ i u data, decodePacket p = .command i ∧ t = u.complete data ∧ Writes i (s.takePacket rest) u data) ∨
          ∃ c, t = (s.takePacket rest).raise c p.word) := by
  cases head : s.cmd with
  | nil =>
    rw [step_of_idle s head] at stepped
    cases stepped
    exact .inl ⟨rfl, rfl⟩
  | cons p rest =>
    refine .inr ⟨p, rest, rfl, ?_⟩
    obtain ⟨i, u, data, accepted, ended, writes⟩ | ⟨c, ended⟩ := step_ends head
    · cases stepped.symm.trans ended
      exact .inl ⟨i, u, data, accepted, rfl, writes⟩
    · cases stepped.symm.trans ended
      exact .inr ⟨c, rfl⟩

/-- Settles O8: a packet that the decoder rejects is no command. -/
theorem packetsThatAreNoCommandRaiseIllegalCommand : Obligations.PacketsThatAreNoCommandRaiseIllegalCommand := by
  intro s p rest why head rejected
  exact stepRaises_of_not_command head fun i accepted => by cases rejected.symm.trans accepted

/-- Settles O9: of the two cases of a step with a packet, that of a decoded command. -/
theorem stepRunsTheDecodedCommand : Obligations.StepRunsTheDecodedCommand := by
  intro s p rest i head accepted
  obtain ⟨j, accepted', ran⟩ | ⟨why, rejected, -⟩ := step_of_packet s p rest head
  · cases accepted.symm.trans accepted'
    exact ⟨ran, rfl⟩
  · cases accepted.symm.trans rejected

/-- Settles O10. -/
theorem idleStepKeepsTheState : Obligations.IdleStepKeepsTheState := step_of_idle

/-- Settles O11: the idle step and both ends of a command answer a next state. -/
theorem everyStepGoesOn : Obligations.EveryStepGoesOn := by
  intro s
  cases head : s.cmd with
  | nil => exact ⟨s, step_of_idle s head⟩
  | cons p rest =>
    obtain ⟨t, -, stepped, -⟩ := step_respondsOnce head
    exact ⟨t, stepped⟩

/-! ### Faults -/

theorem causeCode_ne_zero (c : Cause) : causeCode c ≠ 0 := by cases c <;> decide

theorem causeCode_le_three (c : Cause) : (causeCode c).toNat ≤ 3 := by cases c <;> decide

/-- Settles O16: a completed command answers cause 0, so that the step raised a fault, with the packet's word. -/
theorem faultsArePrecise : Obligations.FaultsArePrecise := by
  intro s t p rest r head stepped answered fault
  obtain ⟨i, u, data, -, ended, writes⟩ | ⟨c, ended⟩ := step_ends head
  · cases stepped.symm.trans ended
    rw [complete_rsp, writes.rsp, takePacket_rsp, List.append_cancel_left_eq] at answered
    cases answered
    exact absurd (rspCause_response completed data) fault
  · cases stepped.symm.trans ended
    rw [raise_rsp, takePacket_rsp, List.append_cancel_left_eq] at answered
    cases answered
    rw [rspCause_response]
    exact ⟨causeCode_le_three c, raise_spec _ c p.word⟩

/-- Settles O17: completing leaves both fault registers, and a raised fault only sets its own bit. -/
theorem errorBitsAreSticky : Obligations.ErrorBitsAreSticky := by
  intro s t stepped
  obtain ⟨-, rfl⟩ | ⟨p, rest, -, ⟨i, u, data, -, rfl, writes⟩ | ⟨c, rfl⟩⟩ := step_cases stepped
  · exact ⟨fun _ set => set, fun _ => ⟨rfl, rfl⟩⟩
  · have err : (u.complete data).err = s.err := writes.err
    exact ⟨fun j set => err ▸ set, fun _ => ⟨err, writes.ecmd⟩⟩
  · refine ⟨fun j set => ?_, fun completes => ?_⟩
    · rw [raise_err, errWith_getLsbD, takePacket_err, set, Bool.true_or]
    · exact absurd ((rspCause_response _ _).symm.trans (completes _ rfl)) (causeCode_ne_zero c)

/-- Settles O18: of the writes of a completed command only that of `CWR 0` reaches `NVAR`. -/
theorem onlyCwrChangesTheVariance : Obligations.OnlyCwrChangesTheVariance := by
  intro s t stepped changed
  obtain ⟨-, rfl⟩ | ⟨p, rest, head, ⟨i, u, data, accepted, rfl, writes⟩ | ⟨c, rfl⟩⟩ := step_cases stepped
  · exact absurd rfl changed
  · obtain rfl := writes.nvar changed
    exact ⟨p, rest, head, accepted⟩
  · exact absurd rfl changed

/-! ### The frame of every command (10_state.md R15) -/

/-- Settles O19: on both ends the command agrees with the table, and a raised fault is no response of cause 0. -/
theorem commandsWriteOnlyWhatTheTableLists : Obligations.CommandsWriteOnlyWhatTheTableLists := by
  intro i s t ran
  obtain ⟨u, data, ended, writes⟩ | ⟨c, ended⟩ := exec_ends i s
  · cases ran.symm.trans ended
    obtain ⟨⟨waves, slots, frames, nvar, noise, cmd⟩, err, ecmd, -⟩ := writes
    exact ⟨⟨waves, slots, frames, nvar, noise, cmd⟩, fun _ _ _ => ⟨err, ecmd⟩⟩
  · cases ran.symm.trans ended
    refine ⟨⟨fun _ _ => rfl, fun _ _ _ => rfl, fun _ _ => rfl, fun _ => rfl, fun _ => rfl, rfl⟩, fun r answered completes => ?_⟩
    rw [raise_rsp, List.append_cancel_left_eq] at answered
    cases answered
    exact absurd ((rspCause_response _ _).symm.trans completes) (causeCode_ne_zero c)

/-! ### The invariant -/

/-- A response of a cause up to 3 and at most 128 data beats, none with a cause, is well formed. -/
theorem response_wellFormed {c : BitVec 8} {data : List Beat} (cause : c.toNat ≤ 3) (count : data.length ≤ 128)
    (noData : c ≠ 0 → data = []) : rspWellFormed (response c data) := by
  have number := rspHeader_toNat c data.length (by omega)
  refine ⟨?_, ?_, ?_, count, ?_⟩
  · apply BitVec.eq_of_toNat_eq
    simp only [response, BitVec.extractLsb'_toNat, number, Nat.shiftRight_eq_div_pow, BitVec.ofNat_eq_ofNat, BitVec.toNat_ofNat]
    omega
  · rwa [rspCause_response]
  · simp only [rspCount, response, BitVec.extractLsb'_toNat, number, Nat.shiftRight_eq_div_pow]
    omega
  · rwa [rspCause_response]

/-- Setting the bit of a cause leaves the reserved bits of `ERR`. -/
theorem errWith_reserved {e : BitVec 64} (reserved : e.extractLsb' 3 61 = 0) (c : Cause) :
    (errWith e c).extractLsb' 3 61 = 0 := by
  rw [errWith, BitVec.extractLsb'_or, reserved]
  cases c <;> rfl

/-- Settles O14. -/
theorem resetHasTheInvariant : Obligations.ResetHasTheInvariant :=
  ⟨fun r => by rw [reset_wave]; exact Nat.zero_le _, rfl, rfl, nofun⟩

/-- Settles O13: completing keeps the register lengths and the fault registers and sends at most 128 beats; raising a fault
touches `ERR` and `ECMD` below their reserved bits and sends none. -/
theorem everyStepKeepsTheInvariant : Obligations.EveryStepKeepsTheInvariant := by
  intro s t inv stepped
  obtain ⟨short, err, ecmd, sent⟩ := inv
  obtain ⟨-, rfl⟩ | ⟨p, rest, -, ⟨i, u, data, -, rfl, writes⟩ | ⟨c, rfl⟩⟩ := step_cases stepped
  · exact ⟨short, err, ecmd, sent⟩
  · obtain ⟨lengths, count⟩ := writes.lengths short
    refine ⟨lengths, ?_, ?_, ?_⟩
    · rw [complete_err, writes.err]
      exact err
    · rw [complete_ecmd, writes.ecmd]
      exact ecmd
    · rw [complete_rsp, writes.rsp, List.forall_mem_append, List.forall_mem_singleton]
      exact ⟨sent, response_wellFormed (by decide) count fun fault => absurd rfl fault⟩
  · refine ⟨short, errWith_reserved err c, beat_upper p.word, ?_⟩
    rw [raise_rsp, List.forall_mem_append, List.forall_mem_singleton]
    exact ⟨sent, response_wellFormed (causeCode_le_three c) (Nat.zero_le _) fun _ => rfl⟩

end Sys2Proof.Machine
end

