-- ==== Sys2Proof/Proofs/Noninterference.lean ====
section
/-! PROOFS. A command depends on nothing but what 10_state.md R15 lists as read: two states that agree there take the same branch,
write the same values and answer the same. -/

namespace Sys2Proof.Machine

/-- Two runs of the command `i`, from `s` and from `s'`, send the same response and, if it is no fault, leave the same values in
what the command writes. -/
def SameEffect (i : Instr) (s s' : State) (o o' : Result) : Prop :=
  ∃ t t' r, o = .next t ∧ o' = .next t' ∧ t.rsp = s.rsp ++ [r] ∧ t'.rsp = s'.rsp ++ [r] ∧ (rspCause r = 0 → AgreeOnWrites i t t')

section
variable {i : Instr} {s s' : State} {d : Reg}

/-! ### The two ways a command ends -/

theorem sameEffect_complete {u u' : State} (data : List Beat) (rsp : u.rsp = s.rsp) (rsp' : u'.rsp = s'.rsp)
    (agree : AgreeOnWrites i u u') : SameEffect i s s' (.next (u.complete data)) (.next (u'.complete data)) := by
  obtain ⟨waves, slots, frames, nvar, noise⟩ := agree
  exact ⟨_, _, response completed data, rfl, rfl, by rw [complete_rsp, rsp], by rw [complete_rsp, rsp'],
    fun _ => ⟨waves, slots, frames, nvar, noise⟩⟩

theorem sameEffect_raise (c : Cause) (word : CmdWord) : SameEffect i s s' (.next (s.raise c word)) (.next (s'.raise c word)) :=
  ⟨_, _, response (causeCode c) [], rfl, rfl, rfl, rfl, fun completes =>
    absurd ((rspCause_response _ _).symm.trans completes) (causeCode_ne_zero c)⟩

theorem sameEffect_withWaveform {src : Reg} {word : CmdWord} {go go' : List Sample → Result} (same : s.wave src = s'.wave src)
    (passed : ∀ x, SameEffect i s s' (go x) (go' x)) :
    SameEffect i s s' (withWaveform s src word go) (withWaveform s' src word go') := by
  by_cases full : (s.wave src).length = 64
  · rw [withWaveform_of_length s src word go full, withWaveform_of_length s' src word go' (same ▸ full), same]
    exact passed _
  · rw [withWaveform_of_not_length s src word go full, withWaveform_of_not_length s' src word go' (same ▸ full)]
    exact sameEffect_raise _ _

/-! ### Writing the same value into the same place -/

theorem setWave_wave_congr {x x' : List Sample} (same : x = x') : ∀ r ∈ [d], (s.setWave d x).wave r = (s'.setWave d x').wave r := by
  simp [same]

theorem setGrid_slot_congr {x x' : Vector Sample 8} (same : x = x') :
    ∀ q ∈ allSlots.map fun k => (d, k), (s.setGrid d x).slot q.1 q.2 = (s'.setGrid d x').slot q.1 q.2 := by
  simp [same]

theorem setSlot_slot_congr (k : Slot) (x : Sample) :
    ∀ q ∈ [(d, k)], (s.setSlot d k x).slot q.1 q.2 = (s'.setSlot d k x).slot q.1 q.2 := by
  simp

theorem setFrame_frame_congr {v v' : Frame} (same : v = v') :
    ∀ r ∈ [d], (s.setFrame d v).frame r = (s'.setFrame d v').frame r := by
  simp [same]

/-- Grids that agree in every slot are equal. -/
theorem grid_congr {src : Reg} (same : ∀ q ∈ allSlots.map fun k => (src, k), s.slot q.1 q.2 = s'.slot q.1 q.2) :
    s.grid src = s'.grid src :=
  Vector.ext fun k inGrid => same (src, ⟨k, inGrid⟩) (List.mem_map_of_mem (mem_allSlots _))

end

/-- Settles O20: command by command, the values read are the same, and with them the branch, the data and the values written. -/
theorem effectsDependOnlyOnTheListedReads : Obligations.EffectsDependOnlyOnTheListedReads := by
  intro i s s' agree
  change SameEffect i s s' (exec i s) (exec i s')
  obtain ⟨waves, slots, frames, csrs, noise⟩ := agree
  cases i with
  | fft d src =>
    rw [exec_fft, exec_fft]
    exact sameEffect_withWaveform (waves src (List.mem_singleton_self src)) fun x =>
      sameEffect_complete [] rfl rfl ⟨setWave_wave_congr rfl, nofun, nofun, nofun, nofun⟩
  | ifft d src =>
    rw [exec_ifft, exec_ifft]
    exact sameEffect_withWaveform (waves src (List.mem_singleton_self src)) fun x =>
      sameEffect_complete [] rfl rfl ⟨setWave_wave_congr rfl, nofun, nofun, nofun, nofun⟩
  | extr d src =>
    rw [exec_extr, exec_extr]
    exact sameEffect_withWaveform (waves src (List.mem_singleton_self src)) fun x =>
      sameEffect_complete [] rfl rfl ⟨nofun, setGrid_slot_congr rfl, nofun, nofun, nofun⟩
  | noise d src =>
    have nvar : s.nvar = s'.nvar := Option.some.inj (csrs 0 (List.mem_singleton_self 0))
    have position : s.noisePos = s'.noisePos := noise rfl
    rw [exec_noise, exec_noise, ← nvar, ← position]
    refine sameEffect_withWaveform (waves src (List.mem_singleton_self src)) fun x => ?_
    split
    · exact sameEffect_complete [] rfl rfl
        ⟨setWave_wave_congr rfl, nofun, nofun, nofun, fun _ => congrArg (· + drawsPerNoise) position⟩
    · exact sameEffect_raise _ _
  | proj d src =>
    exact sameEffect_complete [] rfl rfl ⟨setWave_wave_congr (congrArg projectToGrid (grid_congr slots)), nofun, nofun, nofun, nofun⟩
  | wclr d => exact sameEffect_complete [] rfl rfl ⟨setWave_wave_congr rfl, nofun, nofun, nofun, nofun⟩
  | wpush d x =>
    have same : s.wave d = s'.wave d := waves d (List.mem_singleton_self d)
    by_cases full : (s.wave d).length = 64
    · rw [exec_wpush_of_full x full, exec_wpush_of_full x (same ▸ full)]
      exact sameEffect_raise _ _
    · rw [exec_wpush_of_room x full, exec_wpush_of_room x (same ▸ full), same]
      exact sameEffect_complete [] rfl rfl ⟨setWave_wave_congr rfl, nofun, nofun, nofun, nofun⟩
  | mod d k | gwr d k => exact sameEffect_complete [] rfl rfl ⟨nofun, setSlot_slot_congr k _, nofun, nofun, nofun⟩
  | modv d src =>
    have same : s.frame src = s'.frame src := frames src (List.mem_singleton_self src)
    rw [exec_modv, exec_modv, same]
    exact sameEffect_complete [] rfl rfl ⟨nofun, setGrid_slot_congr rfl, nofun, nofun, nofun⟩
  | dem d src k =>
    have same : s.frame d = s'.frame d := frames d (List.mem_singleton_self d)
    have sample : s.slot src k = s'.slot src k := slots (src, k) (List.mem_singleton_self _)
    rw [exec_dem, exec_dem, same, sample]
    exact sameEffect_complete [] rfl rfl ⟨nofun, nofun, setFrame_frame_congr rfl, nofun, nofun⟩
  | demv d src =>
    have decisions : (fun k => demodulate (s.slot src k)) = fun k => demodulate (s'.slot src k) := by
      funext k
      exact congrArg (fun x : Vector Sample 8 => demodulate x[k]) (grid_congr slots)
    exact sameEffect_complete [] rfl rfl ⟨nofun, nofun, setFrame_frame_congr (congrArg packFrame decisions), nofun, nofun⟩
  | sld d v => exact sameEffect_complete [] rfl rfl ⟨nofun, nofun, setFrame_frame_congr rfl, nofun, nofun⟩
  | wout src =>
    rw [exec_wout, exec_wout, waves src (List.mem_singleton_self src)]
    exact sameEffect_complete _ rfl rfl ⟨nofun, nofun, nofun, nofun, nofun⟩
  | grd src k =>
    rw [exec_grd, exec_grd, slots (src, k) (List.mem_singleton_self _)]
    exact sameEffect_complete _ rfl rfl ⟨nofun, nofun, nofun, nofun, nofun⟩
  | srd src =>
    rw [exec_srd, exec_srd, frames src (List.mem_singleton_self src)]
    exact sameEffect_complete _ rfl rfl ⟨nofun, nofun, nofun, nofun, nofun⟩
  | crd n =>
    have same : s.csr n = s'.csr n := csrs n (List.mem_singleton_self n)
    cases register : s.csr n with
    | some v =>
      rw [exec_crd_of_some register, exec_crd_of_some (same ▸ register)]
      exact sameEffect_complete _ rfl rfl ⟨nofun, nofun, nofun, nofun, nofun⟩
    | none =>
      rw [exec_crd_of_none register, exec_crd_of_none (same ▸ register)]
      exact sameEffect_raise _ _
  | cwr n v =>
    by_cases writable : n = 0
    · subst writable
      exact sameEffect_complete [] rfl rfl ⟨nofun, nofun, nofun, fun _ => rfl, nofun⟩
    · rw [exec_cwr_of_not_nvar v s writable, exec_cwr_of_not_nvar v s' writable]
      exact sameEffect_raise _ _

end Sys2Proof.Machine
end

