-- ==== Sys2Proof/Proofs/Allocations.lean ====
section
/-! PROOFS. Soundness of the station's allocation table (48_host_context.md section 2): what a search can find, and that granting
and freeing a run keep the live runs in range, marked used and apart. -/

namespace Sys2Proof.Machine

/-- The slots of a run. -/
def Allocation.Covers (a : Allocation) (i : Nat) : Prop := a.start ≤ i ∧ i < a.start + a.count

/-! ### What a search finds (48_host_context.md R119, R120) -/

/-- A run that may be granted: in range, and every slot of it free. -/
structure Grantable (st : Station) (a : Allocation) : Prop where
  startPos : 1 ≤ a.start
  countPos : 1 ≤ a.count
  inRange : a.start + a.count ≤ 8
  free : ∀ i : Fin 8, a.Covers i → st.used[i] = false

section
variable {st : Station} {u : UserId} {a b : Allocation}

theorem runFree_used {start count : Nat} (free : st.runFree start count = true) (i : Fin 8) (covered : (⟨start, count⟩ : Allocation).Covers i) :
    st.used[i] = false := by
  obtain ⟨fromStart, beforeEnd⟩ : start ≤ i.val ∧ i.val < start + count := covered
  have free' := List.all_eq_true.mp free (i.val - start) (List.mem_range.mpr (by omega))
  rw [beq_iff_eq, Nat.add_sub_cancel' fromStart] at free'
  exact Vector.getElem_eq_iff.mpr free'

theorem firstRun_grantable {start count : Nat} (countPos : 1 ≤ count) (found : st.firstRun count = some start) :
    Grantable st ⟨start, count⟩ := by
  have free : st.runFree start count = true := List.find?_some (p := fun a => st.runFree a count) found
  obtain ⟨startPos, beforeEnd⟩ := List.mem_range'_1.mp (List.mem_of_find?_eq_some found)
  exact ⟨startPos, countPos, show start + count ≤ 8 by omega, runFree_used free⟩

theorem search_grantable {count : Nat} (found : st.search count = some a) : Grantable st a ∧ a.count ≤ count := by
  induction count with
  | zero => cases found
  | succ count ih =>
    rw [Station.search] at found
    cases run : st.firstRun (count + 1) with
    | some start =>
      rw [run] at found
      cases found
      exact ⟨firstRun_grantable (Nat.succ_pos _) run, le_rfl⟩
    | none =>
      rw [run] at found
      obtain ⟨grantable, short⟩ := ih found
      exact ⟨grantable, Nat.le_succ_of_le short⟩

/-! ### Granting a run -/

/-- A request is granted a free run of at most three slots, or nothing changes. -/
theorem allocate_cases (st : Station) (u : UserId) (requested : Nat) :
    (∃ a, st.allocate u requested = (some a, ⟨st.mark a true, st.table.set u (some a)⟩) ∧ Grantable st a ∧ a.count ≤ 3) ∨
      st.allocate u requested = (none, st) := by
  unfold Station.allocate
  cases found : st.search (clampCount requested) with
  | some a =>
    obtain ⟨grantable, short⟩ := search_grantable found
    have clamped : clampCount requested ≤ 3 := by unfold clampCount; omega
    exact .inl ⟨a, rfl, grantable, short.trans clamped⟩
  | none => exact .inr rfl

theorem table_set_getElem (table : Vector (Option Allocation) 4) (u v : UserId) (x : Option Allocation) :
    (table.set u x)[v] = if v = u then x else table[v] := by
  simp [Vector.getElem_set, Fin.ext_iff, eq_comm]

/-- A free run shares no slot with a live one, whose slots are marked used: the later of the two starts is no slot of both. -/
theorem apart_of_grantable (sound : Sound st) (live : st.table[u] = some a) (grantable : Grantable st b) :
    a.start + a.count ≤ b.start ∨ b.start + b.count ≤ a.start := by
  by_contra overlap
  obtain ⟨countPos, -, -, inRange⟩ := sound.range u a live
  have countPos' := grantable.countPos
  have inRange' := grantable.inRange
  have used := sound.used u a live ⟨max a.start b.start, by omega⟩ (by simp) (by simp only; omega)
  have free := grantable.free ⟨max a.start b.start, by omega⟩ ⟨by simp, by simp only; omega⟩
  exact absurd (used.symm.trans free) (by decide)

theorem sound_allocate (sound : Sound st) (u : UserId) (requested : Nat) : Sound (st.allocate u requested).2 := by
  obtain ⟨b, granted, grantable, short⟩ | kept := allocate_cases st u requested
  · rw [granted]
    refine ⟨fun v a live => ?_, fun v a live i fromStart beforeEnd => ?_, fun v w a a' other live live' => ?_⟩
    · rw [table_set_getElem] at live
      split at live
      · cases live
        exact ⟨grantable.countPos, short, grantable.startPos, grantable.inRange⟩
      · exact sound.range v a live
    · rw [mark_getElem]
      split
      · rfl
      · rename_i notGranted
        rw [table_set_getElem] at live
        split at live
        · cases live
          exact absurd ⟨fromStart, beforeEnd⟩ notGranted
        · exact sound.used v a live i fromStart beforeEnd
    · rw [table_set_getElem] at live live'
      split at live
      · subst_vars
        cases live
        rw [if_neg other.symm] at live'
        exact (apart_of_grantable sound live' grantable).symm
      · split at live'
        · cases live'
          exact apart_of_grantable sound live grantable
        · exact sound.apart v w a a' other live live'
  · rw [kept]
    exact sound

/-! ### Freeing a run -/

theorem sound_deallocate (sound : Sound st) (u : UserId) : Sound (st.deallocate u) := by
  have older {v : UserId} {a : Allocation} (live : (st.deallocate u).table[v] = some a) : v ≠ u ∧ st.table[v] = some a := by
    by_cases same : v = u
    · rw [same, deallocate_table_self] at live
      cases live
    · exact ⟨same, deallocate_table_of_ne st same ▸ live⟩
  refine ⟨fun v a live => ?_, fun v a live i fromStart beforeEnd => ?_, fun v w a a' other live live' => ?_⟩
  · exact sound.range v a (older live).2
  · obtain ⟨other, live⟩ := older live
    have used := sound.used v a live i fromStart beforeEnd
    cases entry : st.table[u] with
    | none => rwa [deallocate_of_none entry]
    | some b =>
      have apart := sound.apart v u a b other live entry
      rw [deallocate_used entry, if_neg (by omega), used]
  · exact sound.apart v w a a' other (older live).2 (older live').2

end

/-! ### Frames -/

/-- One inbound frame allocates, deallocates, or leaves the table. -/
theorem dispatch_table (st : Station) (f : Frame) :
    (∃ u requested, (st.dispatch f).2 = (st.allocate u requested).2) ∨ (∃ u, (st.dispatch f).2 = st.deallocate u) ∨
      (st.dispatch f).2 = st := by
  unfold Station.dispatch
  split
  · refine .inl ⟨userOf (sym f 1), (sym f 2).toNat, ?_⟩
    cases st.allocate (userOf (sym f 1)) (sym f 2).toNat
    rfl
  · refine .inr (.inr ?_)
    split <;> rfl
  · exact .inr (.inl ⟨userOf (sym f 1), rfl⟩)
  · exact .inr (.inr rfl)

theorem sound_dispatch {st : Station} (sound : Sound st) (f : Frame) : Sound (st.dispatch f).2 := by
  obtain ⟨u, requested, after⟩ | ⟨u, after⟩ | after := dispatch_table st f <;> rw [after]
  · exact sound_allocate sound u requested
  · exact sound_deallocate sound u
  · exact sound

theorem sound_foldl_dispatch (frames : List Frame) {st : Station} (sound : Sound st) :
    Sound (frames.foldl (fun st f => (st.dispatch f).2) st) := by
  induction frames generalizing st with
  | nil => exact sound
  | cons f frames ih => exact ih (sound_dispatch sound f)

theorem sound_allFree : Sound Station.allFree := by
  have empty (u : UserId) (a : Allocation) : Station.allFree.table[u] ≠ some a := by
    simp [Station.allFree]
  exact ⟨fun u a live => absurd live (empty u a), fun u a live => absurd live (empty u a),
    fun u v a b _ live => absurd live (empty u a)⟩

/-- Settles O57: the all-free table is sound, every frame keeps it so, and a grant marks a free run, which is none of the slots of
the user's old run, without freeing any slot. -/
theorem stationAllocationsNeverOverlap : Obligations.StationAllocationsNeverOverlap := by
  refine ⟨sound_allFree, fun st f sound => sound_dispatch sound f, fun frames => sound_foldl_dispatch frames sound_allFree,
    fun st u requested a b sound live granted => ?_⟩
  obtain ⟨b', outcome, grantable, -⟩ | kept := allocate_cases st u requested
  · rw [outcome] at granted ⊢
    cases granted
    refine ⟨by rw [table_set_getElem, if_pos rfl], fun i fromStart beforeEnd => ?_⟩
    have used := sound.used u a live i fromStart beforeEnd
    have outside := apart_of_grantable sound live grantable
    refine ⟨?_, by omega⟩
    rw [mark_getElem, if_neg (by omega), used]
  · rw [kept] at granted
    cases granted

end Sys2Proof.Machine
end

