-- ==== Sys2Proof/Proofs/Payloads.lean ====
section
/-! PROOFS. Payloads and forwarded frames (48_host_context.md R126, R139): a payload as a bit field of the frame, and the slots of the
field formula beside those of a forwarded frame. -/

namespace Sys2Proof.Machine

/-! ### Reading a payload -/

theorem sym_toNat (f : Frame) (k : Slot) : (sym f k).toNat = f.toNat / 2 ^ (14 - 2 * k.val) % 4 := by
  rw [sym, BitVec.extractLsb'_toNat, Nat.shiftRight_eq_div_pow]
  rfl

/-- One slot more is one symbol more at the low end. -/
theorem readPayload_succ (f : Frame) (a c : Nat) :
    readPayload f ⟨a, c + 1⟩ = 4 * readPayload f ⟨a, c⟩ + (sym f (Fin.ofNat 8 (a + c))).toNat := by
  simp only [readPayload, List.range_succ, List.foldl_append, List.foldl_cons, List.foldl_nil]

theorem readPayload_eq (f : Frame) {a c : Nat} (inRange : a + c ≤ 8) :
    readPayload f ⟨a, c⟩ = f.toNat / 2 ^ (16 - 2 * (a + c)) % 4 ^ c := by
  induction c with
  | zero => exact (Nat.mod_one _).symm
  | succ c ih =>
    have slot : (Fin.ofNat 8 (a + c)).val = a + c := Nat.mod_eq_of_lt (by omega)
    have next : 2 ^ (16 - 2 * (a + c)) = 2 ^ (14 - 2 * (a + c)) * 4 := by
      rw [show 16 - 2 * (a + c) = 14 - 2 * (a + c) + 2 by omega, Nat.pow_add]
    rw [readPayload_succ, ih (by omega), sym_toNat, slot, next, ← Nat.div_div_eq_div_mul,
      show 16 - 2 * (a + (c + 1)) = 14 - 2 * (a + c) by omega, Nat.pow_succ', Nat.mod_mul, Nat.add_comm]

/-! ### The bits of the field formula -/

theorem fieldFrame_eq (dest sender : Symbol) (q : Nat) (a : Allocation) :
    fieldFrame dest sender q a = 0x4000#16 ||| (dest.setWidth 16 <<< 12) ||| (sender.setWidth 16 <<< 10) |||
      (BitVec.ofNat 16 q <<< (16 - 2 * (a.start + a.count))) := rfl

theorem fieldFrame_getLsbD (dest sender : Symbol) (q : Nat) (a : Allocation) {m : Nat} (inFrame : m < 16) :
    (fieldFrame dest sender q a).getLsbD m =
      (decide (m = 14) || (decide (12 ≤ m) && dest.getLsbD (m - 12)) || (decide (10 ≤ m) && sender.getLsbD (m - 10)) ||
        (decide (16 - 2 * (a.start + a.count) ≤ m) && q.testBit (m - (16 - 2 * (a.start + a.count))))) := by
  have code : (0x4000#16).getLsbD m = decide (m = 14) := by revert m; decide
  rw [fieldFrame_eq, BitVec.getLsbD_or, BitVec.getLsbD_or, BitVec.getLsbD_or, code, BitVec.getLsbD_shiftLeft,
    BitVec.getLsbD_shiftLeft, BitVec.getLsbD_shiftLeft, BitVec.getLsbD_setWidth, BitVec.getLsbD_setWidth, BitVec.getLsbD_ofNat]
  simp only [inFrame, decide_true, Bool.true_and, show ∀ n, m - n < 16 from fun n => by omega, ← Nat.not_le, decide_not,
    Bool.not_not]

section
variable {dest sender : Symbol} {q a c : Nat}

theorem payloadSymbol_getLsbD (q : Nat) (a : Allocation) (k : Slot) {n : Nat} (inSymbol : n < 2) :
    (payloadSymbol q a k).getLsbD n =
      (decide (a.start ≤ k.val ∧ k.val < a.start + a.count) && q.testBit (2 * (a.start + a.count - 1 - k.val) + n)) := by
  unfold payloadSymbol
  split
  case isTrue inside =>
    rw [BitVec.getLsbD_ofNat, show 4 = 2 ^ 2 from rfl, ← Nat.pow_mul, Nat.testBit_div_two_pow, decide_eq_true inSymbol,
      decide_eq_true inside, Nat.add_comm n]
  case isFalse outside => rw [decide_eq_false outside, Bool.false_and]; exact BitVec.getLsbD_zero

/-- Bits of a payload above its slots are zero. -/
theorem testBit_of_lt_four_pow (fits : q < 4 ^ c) {m : Nat} (above : 2 * c ≤ m) : q.testBit m = false := by
  refine Nat.testBit_lt_two_pow (lt_of_lt_of_le fits ?_)
  rw [show 4 = 2 ^ 2 from rfl, ← Nat.pow_mul]
  exact Nat.pow_le_pow_right (by decide) above

/-- From slot 3 on the formula holds the payload's symbols alone. -/
theorem sym_fieldFrame_of_three_le (inRange : a + c ≤ 8) (fits : q < 4 ^ c) {k : Slot} (fromThree : 3 ≤ k.val) :
    sym (fieldFrame dest sender q ⟨a, c⟩) k = payloadSymbol q ⟨a, c⟩ k := by
  apply BitVec.eq_of_getLsbD_eq
  intro n inSymbol
  have shift : symShift k = 14 - 2 * k.val := rfl
  rw [sym_getLsbD, decide_eq_true inSymbol, Bool.true_and, fieldFrame_getLsbD _ _ _ _ (by omega), payloadSymbol_getLsbD _ _ _ inSymbol,
    decide_eq_false (by omega : ¬ symShift k + n = 14), decide_eq_false (by omega : ¬ 12 ≤ symShift k + n),
    decide_eq_false (by omega : ¬ 10 ≤ symShift k + n)]
  simp only [Bool.false_and, Bool.false_or]
  by_cases before : k.val < a + c
  · rw [show symShift k + n - (16 - 2 * (a + c)) = 2 * (a + c - 1 - k.val) + n by omega,
      decide_eq_true (by omega : 16 - 2 * (a + c) ≤ symShift k + n)]
    by_cases inside : a ≤ k.val
    · rw [decide_eq_true ⟨inside, before⟩]
    · rw [testBit_of_lt_four_pow fits (by omega), Bool.and_false, Bool.and_false]
  · rw [decide_eq_false (by omega : ¬ 16 - 2 * (a + c) ≤ symShift k + n), decide_eq_false fun inside => before inside.2,
      Bool.false_and, Bool.false_and]

/-! ### Forwarded frames -/

/-- The slots of a forwarded frame: the code, the destination, the sender, and the payload's symbols. -/
theorem sym_dataFrame (q : Nat) (a : Allocation) (k : Slot) :
    sym (dataFrame dest sender q a) k =
      if k.val = 0 then 1 else if k.val = 1 then dest else if k.val = 2 then sender else payloadSymbol q a k := by
  rw [dataFrame, sym_packFrame]
  fin_cases k <;> rfl

/-- The payload of a run that begins at slot 3 or above stays below the identifiers. -/
theorem payload_lt (fromThree : 3 ≤ a) (inRange : a + c ≤ 8) (fits : q < 4 ^ c) : q * 2 ^ (16 - 2 * (a + c)) < 2 ^ 10 :=
  calc q * 2 ^ (16 - 2 * (a + c))
      < 4 ^ c * 2 ^ (16 - 2 * (a + c)) := Nat.mul_lt_mul_of_pos_right fits (Nat.two_pow_pos _)
    _ = 2 ^ (2 * c + (16 - 2 * (a + c))) := by rw [show 4 = 2 ^ 2 from rfl, ← Nat.pow_mul, Nat.pow_add]
    _ ≤ 2 ^ 10 := Nat.pow_le_pow_right (by decide) (by omega)

/-- An identifier shifted to its place. -/
theorem shiftedField_toNat (v : Symbol) {n : Nat} (inFrame : n ≤ 14) : (v.setWidth 16 <<< n).toNat = 2 ^ n * v.toNat := by
  have fits : v.toNat * 2 ^ n < 2 ^ 16 :=
    calc v.toNat * 2 ^ n
        < 2 ^ 2 * 2 ^ n := Nat.mul_lt_mul_of_pos_right v.isLt (Nat.two_pow_pos _)
      _ = 2 ^ (2 + n) := (Nat.pow_add ..).symm
      _ ≤ 2 ^ 16 := Nat.pow_le_pow_right (by decide) (by omega)
  rw [BitVec.toNat_shiftLeft, symbolField_toNat, Nat.shiftLeft_eq, Nat.mod_eq_of_lt fits, Nat.mul_comm]

/-- Of such a run the fields of the formula do not meet: joining them by or is adding them. -/
theorem fieldFrame_toNat (fromThree : 3 ≤ a) (inRange : a + c ≤ 8) (fits : q < 4 ^ c) :
    (fieldFrame dest sender q ⟨a, c⟩).toNat =
      2 ^ 14 + dest.toNat * 2 ^ 12 + sender.toNat * 2 ^ 10 + q * 2 ^ (16 - 2 * (a + c)) := by
  have payload := payload_lt fromThree inRange fits
  have q16 : q < 2 ^ 16 :=
    calc q < 4 ^ c := fits
      _ ≤ 4 ^ 8 := Nat.pow_le_pow_right (by decide) (by omega)
      _ = 2 ^ 16 := by decide
  have number : (BitVec.ofNat 16 q).toNat = q := Nat.mod_eq_of_lt q16
  have destBound := dest.isLt
  have senderBound := sender.isLt
  have identifiers : 2 ^ 10 * sender.toNat + q * 2 ^ (16 - 2 * (a + c)) < 2 ^ 12 := by omega
  have belowCode : 2 ^ 12 * dest.toNat + (2 ^ 10 * sender.toNat + q * 2 ^ (16 - 2 * (a + c))) < 2 ^ 14 := by omega
  rw [fieldFrame_eq]
  simp only [BitVec.toNat_or, shiftedField_toNat dest (by decide : 12 ≤ 14), shiftedField_toNat sender (by decide : 10 ≤ 14),
    BitVec.toNat_shiftLeft, number, Nat.shiftLeft_eq, Nat.lor_assoc, show (0x4000#16).toNat = 2 ^ 14 * 1 from rfl]
  rw [Nat.mod_eq_of_lt (payload.trans (by decide)), ← Nat.two_pow_add_eq_or_of_lt payload,
    ← Nat.two_pow_add_eq_or_of_lt identifiers, ← Nat.two_pow_add_eq_or_of_lt belowCode]
  omega

theorem dataFrame_eq_fieldFrame (fromThree : 3 ≤ a) (inRange : a + c ≤ 8) (fits : q < 4 ^ c) :
    dataFrame dest sender q ⟨a, c⟩ = fieldFrame dest sender q ⟨a, c⟩ := by
  have payload := payload_lt fromThree inRange fits
  have destBound := dest.isLt
  have senderBound := sender.isLt
  refine frame_ext fun k => ?_
  rw [sym_dataFrame]
  by_cases fromThreeOn : 3 ≤ k.val
  · rw [sym_fieldFrame_of_three_le inRange fits fromThreeOn, if_neg (by omega), if_neg (by omega), if_neg (by omega)]
  · apply BitVec.eq_of_toNat_eq
    rw [sym_toNat, fieldFrame_toNat fromThree inRange fits]
    have slot : k.val = 0 ∨ k.val = 1 ∨ k.val = 2 := by omega
    obtain zero | one | two := slot
    · rw [if_pos zero, zero, show (1 : Symbol).toNat = 1 from rfl]
      omega
    · rw [if_neg (by omega), if_pos one, one]
      omega
    · rw [if_neg (by omega), if_neg (by omega), if_pos two, two]
      omega

end

/-- Settles O59: a payload read symbol by symbol; the formula's fields, which are the slots of the forwarded frame where the run
begins at slot 3 or above; and for every run the slots 0, 1, 2 and those from 3 on. -/
theorem payloadIsABitFieldOfTheFrame : Obligations.PayloadIsABitFieldOfTheFrame := by
  refine ⟨fun f a c _ inRange => readPayload_eq f inRange, fun dest sender q a c fromThree inRange fits => ?_,
    fun dest sender q a c _ inRange fits => ?_⟩
  · rw [dataFrame_eq_fieldFrame fromThree inRange fits]
    exact ⟨rfl, fieldFrame_toNat fromThree inRange fits⟩
  · refine ⟨sym_dataFrame q _ 0, sym_dataFrame q _ 1, sym_dataFrame q _ 2, fun k above => ?_⟩
    rw [sym_fieldFrame_of_three_le inRange fits above, sym_dataFrame, if_neg (by omega), if_neg (by omega), if_neg (by omega)]

end Sys2Proof.Machine
end

