-- ==== Sys2Proof/Proofs/InversePairs.lean ====
section
/-! PROOFS. Pairs of commands that undo each other: mapping and deciding (42_qpsk_modem.md R83), projecting and extracting
(43_grid_mapper.md R89). -/

namespace Sys2Proof.Machine

/-! ### Mapping and deciding -/

theorem fLtZero_qpskAxis (bit : Bool) : fLtZero (qpskAxis bit) = bit := by revert bit; decide

theorem demodulate_modulate (v : Symbol) : demodulate (modulate v) = v := by
  apply BitVec.eq_of_getLsbD_eq
  intro n inSymbol
  obtain rfl | rfl : n = 0 ∨ n = 1 := by omega
  · rw [demodulate_getLsbD_zero, modulate, fLtZero_qpskAxis]
  · rw [demodulate_getLsbD_one, modulate, fLtZero_qpskAxis]

/-- Deciding every point of a mapped frame and packing the decisions gives the frame. -/
theorem packFrame_demodulate_modulate (v : Frame) : packFrame (fun k => demodulate (modulate (sym v k))) = v :=
  frame_ext fun k => by rw [sym_packFrame, demodulate_modulate]

/-- What `MODV` leaves in its grid. -/
theorem exec_modv_slot (d src : Reg) (s : State) :
    ∃ t, exec (.modv d src) s = .next t ∧ ∀ k, t.slot d k = modulate (sym (s.frame src) k) := by
  refine ⟨_, exec_modv d src s, fun k => ?_⟩
  rw [complete_slot, setGrid_slot, if_pos rfl, Fin.getElem_fin, Vector.getElem_ofFn]

/-- What `DEMV` leaves in its frame. -/
theorem exec_demv_frame (d src : Reg) (s : State) :
    ∃ t, exec (.demv d src) s = .next t ∧ t.frame d = packFrame fun k => demodulate (s.slot src k) := by
  refine ⟨_, exec_demv d src s, ?_⟩
  rw [complete_frame, setFrame_frame, if_pos rfl]

/-- Settles O41: a point's axes have the signs of its symbol's bits, slot by slot; the Sample (1, 1) is no point. -/
theorem modulateThenDemodulateIsTheIdentity : Obligations.ModulateThenDemodulateIsTheIdentity := by
  refine ⟨demodulate_modulate, fun a b c v s => ?_, fun a b c s => ?_, ⟨0x3FF0000000000000, 0x3FF0000000000000⟩, by decide⟩
  · obtain ⟨t2, mapped, points⟩ := exec_modv_slot b a ((s.setFrame a v).complete [])
    obtain ⟨t3, decided, frame⟩ := exec_demv_frame c b t2
    refine ⟨_, t2, t3, exec_sld a v s, mapped, decided, ?_⟩
    simp only [frame, points, complete_frame, setFrame_frame, if_pos]
    exact packFrame_demodulate_modulate v
  · obtain ⟨t1, decided, frame⟩ := exec_demv_frame a b s
    obtain ⟨t2, mapped, points⟩ := exec_modv_slot c a t1
    exact ⟨t1, t2, decided, mapped, fun k => by rw [points, frame, sym_packFrame]⟩

/-! ### Projecting and extracting -/

theorem extractFromGrid_projectToGrid (x : Vector Sample 8) : extractFromGrid (projectToGrid x) = x := by
  refine Vector.ext fun k inGrid => ?_
  have lane := (getElem?_extractFromGrid (projectToGrid_length x) ⟨k, inGrid⟩).symm.trans (projectToGrid_active x ⟨k, inGrid⟩)
  exact Option.some.inj lane

/-- Extracting and projecting keeps the active positions of a Waveform and zeroes the others. -/
theorem projectToGrid_extractFromGrid {x : List Sample} (full : x.length = 64) {j : Nat} (inGrid : j < 64) :
    (projectToGrid (extractFromGrid x))[j]? = if j % 8 = 0 then x[j]? else some ⟨0, 0⟩ := by
  by_cases active : j % 8 = 0
  · obtain ⟨k, rfl⟩ : ∃ k : Slot, j = 8 * k.val := ⟨⟨j / 8, by omega⟩, by simp only; omega⟩
    rw [projectToGrid_active, if_pos active, getElem?_extractFromGrid full]
  · rw [projectToGrid_inactive _ inGrid active, if_neg active]
    rfl

/-- What `PROJ` leaves in its register. -/
theorem exec_proj_wave (d src : Reg) (s : State) :
    ∃ t, exec (.proj d src) s = .next t ∧ t.wave d = projectToGrid (s.grid src) := by
  refine ⟨_, exec_proj d src s, ?_⟩
  rw [complete_wave, setWave_wave, if_pos rfl]

/-- What `EXTR` leaves in its grid, from 64 Samples. -/
theorem exec_extr_grid (d : Reg) {src : Reg} {s : State} (full : (s.wave src).length = 64) :
    ∃ t, exec (.extr d src) s = .next t ∧ t.grid d = extractFromGrid (s.wave src) := by
  refine ⟨_, (exec_extr d src s).trans (withWaveform_of_length s src _ _ full), ?_⟩
  rw [complete_grid, setGrid_grid, if_pos rfl]

/-- Settles O44: of the two operations on grids, for the registers that the second command reads from the first. -/
theorem projectThenExtractIsTheIdentity : Obligations.ProjectThenExtractIsTheIdentity := by
  refine ⟨fun a d src s => ?_, fun a d src s full => ?_⟩
  · obtain ⟨t1, projected, wave⟩ := exec_proj_wave a src s
    obtain ⟨t2, extracted, grid⟩ := exec_extr_grid d (src := a) (s := t1) (by rw [wave, projectToGrid_length])
    exact ⟨t1, t2, projected, extracted, by rw [grid, wave, extractFromGrid_projectToGrid]⟩
  · obtain ⟨t1, extracted, grid⟩ := exec_extr_grid a full
    obtain ⟨t2, projected, wave⟩ := exec_proj_wave d a t1
    exact ⟨t1, t2, extracted, projected, fun j inGrid => by rw [wave, grid, projectToGrid_extractFromGrid full inGrid]⟩

end Sys2Proof.Machine
end

