-- ==== Sys2Proof/Proofs/Recursion.lean ====
section
/-! PROOFS. The recursion of the transform (41_transform.md R69) over any butterfly: which element of the input stands at each place
of the two halves, what a combining step puts at each place of the output, and the iterative form. -/

namespace Sys2Proof.Machine

variable {α β : Type}

/-! ### The two halves -/

theorem evens_getElem? : (x : List α) → (j : Nat) → (evens x)[j]? = x[2 * j]?
  | [], _ => rfl
  | [_], 0 => rfl
  | [_], _ + 1 => rfl
  | _ :: _ :: _, 0 => rfl
  | _ :: _ :: rest, j + 1 => evens_getElem? rest j

theorem odds_getElem? : (x : List α) → (j : Nat) → (odds x)[j]? = x[2 * j + 1]?
  | [], _ => rfl
  | [_], _ => rfl
  | _ :: _ :: _, 0 => rfl
  | _ :: _ :: rest, j + 1 => odds_getElem? rest j

theorem evens_getD (x : List α) (j : Nat) (d : α) : (evens x).getD j d = x.getD (2 * j) d := by
  rw [List.getD_eq_getElem?_getD, List.getD_eq_getElem?_getD, evens_getElem?]

theorem odds_getD (x : List α) (j : Nat) (d : α) : (odds x).getD j d = x.getD (2 * j + 1) d := by
  rw [List.getD_eq_getElem?_getD, List.getD_eq_getElem?_getD, odds_getElem?]

theorem evens_map (f : α → β) : (x : List α) → evens (x.map f) = (evens x).map f
  | [] => rfl
  | [_] => rfl
  | _ :: _ :: rest => congrArg (_ :: ·) (evens_map f rest)

theorem mem_of_mem_evens {x : List α} {a : α} (mem : a ∈ evens x) : a ∈ x := by
  obtain ⟨j, present⟩ := List.mem_iff_getElem?.mp mem
  exact List.mem_iff_getElem?.mpr ⟨2 * j, evens_getElem? x j ▸ present⟩

theorem mem_of_mem_odds {x : List α} {a : α} (mem : a ∈ odds x) : a ∈ x := by
  obtain ⟨j, present⟩ := List.mem_iff_getElem?.mp mem
  exact List.mem_iff_getElem?.mpr ⟨2 * j + 1, odds_getElem? x j ▸ present⟩

/-- Every element stands in one of the halves. -/
theorem mem_evens_or_odds {x : List α} {a : α} (mem : a ∈ x) : a ∈ evens x ∨ a ∈ odds x := by
  obtain ⟨j, present⟩ := List.mem_iff_getElem?.mp mem
  obtain even | odd := Nat.mod_two_eq_zero_or_one j
  · refine .inl (List.mem_iff_getElem?.mpr ⟨j / 2, ?_⟩)
    rw [evens_getElem?, show 2 * (j / 2) = j by omega, present]
  · refine .inr (List.mem_iff_getElem?.mpr ⟨j / 2, ?_⟩)
    rw [odds_getElem?, show 2 * (j / 2) + 1 = j by omega, present]

section
variable {x : List α} {n : Nat} (size : x.length = 2 ^ (n + 1))
include size

theorem evens_size : (evens x).length = 2 ^ n := by rw [evens_length, size, Nat.pow_succ]; omega

theorem odds_size : (odds x).length = 2 ^ n := by rw [odds_length, size, Nat.pow_succ]; omega

end

/-! ### One combining step -/

theorem butterflies_getElem? {bf : Nat → α → α → α × α} {e o : List α} {j : Nat} {a b : α} (k : Nat)
    (even : e[j]? = some a) (odd : o[j]? = some b) : (butterflies bf k e o)[j]? = some (bf (k + j) a b) := by
  induction j generalizing k e o with
  | zero =>
    cases e with
    | nil => cases even
    | cons a' e =>
      cases o with
      | nil => cases odd
      | cons b' o => cases even; cases odd; rfl
  | succ j ih =>
    cases e with
    | nil => cases even
    | cons a' e =>
      cases o with
      | nil => cases odd
      | cons b' o =>
        rw [butterflies, List.getElem?_cons_succ, ih (k + 1) even odd, show k + 1 + j = k + (j + 1) by omega]

/-- The first results of the pairs. -/
theorem combine_getElem?_low {bf : Nat → α → α → α × α} {e o : List α} {k : Nat} {a b : α} (even : e[k]? = some a)
    (odd : o[k]? = some b) : (combine bf e o)[k]? = some (bf k a b).1 := by
  have pair := butterflies_getElem? (bf := bf) 0 even odd
  rw [Nat.zero_add] at pair
  have inList : k < (butterflies bf 0 e o).length := (List.getElem?_eq_some_iff.mp pair).1
  rw [combine, List.getElem?_append_left (by rwa [List.length_map]), List.getElem?_map, pair, Option.map_some]

/-- The second results of the pairs. -/
theorem combine_getElem?_high {bf : Nat → α → α → α × α} {e o : List α} {k m : Nat} {a b : α} (evenSize : e.length = m)
    (oddSize : o.length = m) (even : e[k]? = some a) (odd : o[k]? = some b) : (combine bf e o)[m + k]? = some (bf k a b).2 := by
  have pair := butterflies_getElem? (bf := bf) 0 even odd
  rw [Nat.zero_add] at pair
  have size : ((butterflies bf 0 e o).map Prod.fst).length = m := by rw [List.length_map, butterflies_length]; omega
  rw [combine, List.getElem?_append_right (by omega), size, Nat.add_sub_cancel_left, List.getElem?_map, pair, Option.map_some]

/-- Every output is a result of the butterfly of one pair. -/
theorem mem_combine {bf : Nat → α → α → α × α} {e o : List α} {c : α} (mem : c ∈ combine bf e o) :
    ∃ k, ∃ a ∈ e, ∃ b ∈ o, k < e.length ∧ (c = (bf k a b).1 ∨ c = (bf k a b).2) := by
  have pairs : ∃ p ∈ butterflies bf 0 e o, c = p.1 ∨ c = p.2 := by
    obtain low | high := List.mem_append.mp mem
    · obtain ⟨p, inPairs, rfl⟩ := List.mem_map.mp low
      exact ⟨p, inPairs, .inl rfl⟩
    · obtain ⟨p, inPairs, rfl⟩ := List.mem_map.mp high
      exact ⟨p, inPairs, .inr rfl⟩
  obtain ⟨p, inPairs, result⟩ := pairs
  obtain ⟨k, at_k⟩ := List.mem_iff_getElem?.mp inPairs
  have inList : k < (butterflies bf 0 e o).length := (List.getElem?_eq_some_iff.mp at_k).1
  rw [butterflies_length] at inList
  have even := List.getElem?_eq_getElem (show k < e.length by omega)
  have odd := List.getElem?_eq_getElem (show k < o.length by omega)
  rw [butterflies_getElem? 0 even odd, Nat.zero_add, Option.some.injEq] at at_k
  exact ⟨k, _, List.getElem_mem _, _, List.getElem_mem _, by omega, at_k ▸ result⟩

/-- Every place of an output of two halves is a place of the lower or of the upper half. -/
theorem low_or_high {j n : Nat} (inRange : j < 2 ^ (n + 1)) : ∃ k, k < 2 ^ n ∧ (j = k ∨ j = 2 ^ n + k) := by
  rw [Nat.pow_succ] at inRange
  by_cases low : j < 2 ^ n
  · exact ⟨j, low, .inl rfl⟩
  · exact ⟨j - 2 ^ n, by omega, .inr (by omega)⟩

/-- The transform of twice the size at the two places of one pair: the results of its butterfly on the transforms of the halves. -/
theorem fftWith_succ_getElem? (bf : Nat → Nat → α → α → α × α) {n k : Nat} {x : List α} (size : x.length = 2 ^ (n + 1))
    (small : k < 2 ^ n) :
    ∃ a b, (fftWith bf n (evens x))[k]? = some a ∧ (fftWith bf n (odds x))[k]? = some b ∧
      (fftWith bf (n + 1) x)[k]? = some (bf (n + 1) k a b).1 ∧ (fftWith bf (n + 1) x)[2 ^ n + k]? = some (bf (n + 1) k a b).2 := by
  have evenSize := fftWith_length bf n _ (evens_size size)
  have oddSize := fftWith_length bf n _ (odds_size size)
  have even := List.getElem?_eq_getElem (evenSize ▸ small)
  have odd := List.getElem?_eq_getElem (oddSize ▸ small)
  exact ⟨_, _, even, odd, combine_getElem?_low even odd, combine_getElem?_high evenSize oddSize even odd⟩

/-- Two transforms over butterflies that carry a relation from each level to the next carry it from the inputs to the outputs. -/
theorem fftWith_related {R : Nat → α → β → Prop} {bf : Nat → Nat → α → α → α × α} {bf' : Nat → Nat → β → β → β × β} {top : Nat}
    (step : ∀ level k a b a' b', level < top → k < 2 ^ level → R level a a' → R level b b' →
      R (level + 1) (bf (level + 1) k a b).1 (bf' (level + 1) k a' b').1 ∧
        R (level + 1) (bf (level + 1) k a b).2 (bf' (level + 1) k a' b').2)
    {n : Nat} (below : n ≤ top) {x : List α} {y : List β} (size : x.length = 2 ^ n) (size' : y.length = 2 ^ n)
    (related : ∀ (j : Nat) a b, x[j]? = some a → y[j]? = some b → R 0 a b) :
    ∀ (j : Nat) a b, (fftWith bf n x)[j]? = some a → (fftWith bf' n y)[j]? = some b → R n a b := by
  induction n generalizing x y with
  | zero => exact related
  | succ n ih =>
    have even := ih (by omega) (evens_size size) (evens_size size') fun j a b ha hb =>
      related (2 * j) a b (evens_getElem? x j ▸ ha) (evens_getElem? y j ▸ hb)
    have odd := ih (by omega) (odds_size size) (odds_size size') fun j a b ha hb =>
      related (2 * j + 1) a b (odds_getElem? x j ▸ ha) (odds_getElem? y j ▸ hb)
    intro j a b ha hb
    obtain ⟨k, small, place⟩ := low_or_high (fftWith_length bf (n + 1) x size ▸ (List.getElem?_eq_some_iff.mp ha).1)
    obtain ⟨e, o, he, ho, low, high⟩ := fftWith_succ_getElem? bf size small
    obtain ⟨e', o', he', ho', low', high'⟩ := fftWith_succ_getElem? bf' size' small
    obtain ⟨first, second⟩ := step n k e o e' o' below small (even k e e' he he') (odd k o o' ho ho')
    obtain rfl | rfl := place
    · cases low.symm.trans ha
      cases low'.symm.trans hb
      exact first
    · cases high.symm.trans ha
      cases high'.symm.trans hb
      exact second

end Sys2Proof.Machine
end

