-- ==== Sys2Proof/Proofs/Iterative.lean ====
section
/-! PROOFS. The iterative transform (41_transform.md R69): in bit-reversed order the even half stands before the odd half, a pass
below the top works on each half alone, and the top pass is the combining step. -/

namespace Sys2Proof.Machine

open Claims

variable {α : Type} (bf : Nat → Nat → α → α → α × α) (d : α)

/-! ### Bit-reversed order -/

/-- The input in bit-reversed order, for any size `2 ^ bits`. -/
def bitReversed (bits : Nat) (x : List α) : List α := (List.range (2 ^ bits)).map fun i => x.getD (reverseBits bits i) d

/-- The passes of block sizes 2, 4, …, `2 ^ levels`. -/
def passes (levels : Nat) (y : List α) : List α := (List.range' 1 levels).foldl (fun y level => iterativePass bf d level y) y

theorem iterativeFft_eq_passes (x : List α) : iterativeFft bf d x = passes bf d 6 (bitReversed d 6 x) := rfl

theorem reverseBits_low {bits i : Nat} (low : i < 2 ^ bits) : reverseBits (bits + 1) i = 2 * reverseBits bits i := by
  induction bits generalizing i with
  | zero =>
    obtain rfl : i = 0 := by omega
    rfl
  | succ bits ih =>
    rw [Nat.pow_succ] at low
    rw [reverseBits, ih (by omega), reverseBits, Nat.pow_succ]
    ring

theorem reverseBits_high {bits i : Nat} (low : i < 2 ^ bits) :
    reverseBits (bits + 1) (2 ^ bits + i) = 2 * reverseBits bits i + 1 := by
  induction bits generalizing i with
  | zero =>
    obtain rfl : i = 0 := by omega
    rfl
  | succ bits ih =>
    rw [Nat.pow_succ] at low
    rw [reverseBits, show (2 ^ (bits + 1) + i) / 2 = 2 ^ bits + i / 2 by omega, ih (by omega), reverseBits,
      show (2 ^ (bits + 1) + i) % 2 = i % 2 by omega, Nat.pow_succ]
    ring

theorem bitReversed_succ (bits : Nat) (x : List α) :
    bitReversed d (bits + 1) x = bitReversed d bits (evens x) ++ bitReversed d bits (odds x) := by
  rw [bitReversed, Nat.pow_succ, Nat.mul_two, List.range_add, List.map_append, List.map_map]
  congr 1
  · refine List.map_congr_left fun i inRange => ?_
    rw [evens_getD, reverseBits_low (List.mem_range.mp inRange)]
  · refine List.map_congr_left fun i inRange => ?_
    rw [odds_getD, Function.comp_apply, reverseBits_high (List.mem_range.mp inRange)]

theorem bitReversed_length (bits : Nat) (x : List α) : (bitReversed d bits x).length = 2 ^ bits := by
  rw [bitReversed, List.length_map, List.length_range]

/-! ### Passes -/

theorem iterativePass_length (level : Nat) (y : List α) : (iterativePass bf d level y).length = y.length := by
  rw [iterativePass, List.length_map, List.length_range]

theorem passes_length (levels : Nat) (y : List α) : (passes bf d levels y).length = y.length := by
  unfold passes
  generalize List.range' 1 levels = order
  induction order generalizing y with
  | nil => rfl
  | cons level order ih => rw [List.foldl_cons, ih, iterativePass_length]

theorem iterativePass_getElem? (level : Nat) (y : List α) {i : Nat} (inList : i < y.length) :
    (iterativePass bf d level y)[i]? =
      some (if i / 2 ^ (level - 1) % 2 = 0
        then (bf level (i % 2 ^ (level - 1)) (y.getD i d) (y.getD (i + 2 ^ (level - 1)) d)).1
        else (bf level (i % 2 ^ (level - 1)) (y.getD (i - 2 ^ (level - 1)) d) (y.getD i d)).2) := by
  rw [iterativePass, List.getElem?_map, List.getElem?_range inList, Option.map_some]

section
variable {n : Nat} {y z : List α} (ySize : y.length = 2 ^ n) (zSize : z.length = 2 ^ n)
include ySize

theorem getD_append_low {i : Nat} (low : i < 2 ^ n) : (y ++ z).getD i d = y.getD i d := by
  rw [List.getD_append _ _ _ _ (ySize ▸ low)]

theorem getD_append_high (i : Nat) : (y ++ z).getD (2 ^ n + i) d = z.getD i d := by
  rw [List.getD_append_right _ _ _ _ (by omega), ySize, Nat.add_sub_cancel_left]

include zSize

/-- A pass whose blocks fit into the halves works on each half alone: the partner of a place stands in the same half. -/
theorem iterativePass_append {level : Nat} (positive : 1 ≤ level) (fits : level ≤ n) :
    iterativePass bf d level (y ++ z) = iterativePass bf d level y ++ iterativePass bf d level z := by
  obtain ⟨m, blocks⟩ : ∃ m, 2 ^ n = 2 ^ (level - 1) * (2 * m) := by
    refine ⟨2 ^ (n - level), ?_⟩
    rw [← Nat.pow_succ', ← Nat.pow_add]
    congr 1
    omega
  have halfPos : 0 < 2 ^ (level - 1) := Nat.two_pow_pos _
  have partner {j : Nat} (inHalf : j < 2 ^ n) (lower : j / 2 ^ (level - 1) % 2 = 0) : j + 2 ^ (level - 1) < 2 ^ n := by
    have block : j / 2 ^ (level - 1) < 2 * m := Nat.div_lt_of_lt_mul (blocks ▸ inHalf)
    rw [blocks, Nat.mul_comm, ← Nat.div_lt_iff_lt_mul halfPos, Nat.add_div_right j halfPos]
    omega
  refine List.ext_getElem? fun i => ?_
  by_cases low : i < 2 ^ n
  · rw [List.getElem?_append_left (by rwa [iterativePass_length, ySize]),
      iterativePass_getElem? bf d level _ (by rw [List.length_append]; omega), iterativePass_getElem? bf d level _ (by omega),
      getD_append_low d ySize low, getD_append_low d ySize (lt_of_le_of_lt (Nat.sub_le ..) low)]
    split
    case isTrue lower => rw [getD_append_low d ySize (partner low lower)]
    case isFalse => rfl
  · obtain ⟨j, rfl⟩ := Nat.exists_eq_add_of_le (Nat.not_lt.mp low)
    rw [List.getElem?_append_right (by rw [iterativePass_length]; omega), iterativePass_length, ySize, Nat.add_sub_cancel_left]
    by_cases inList : j < 2 ^ n
    · have place : (2 ^ n + j) / 2 ^ (level - 1) % 2 = j / 2 ^ (level - 1) % 2 := by
        rw [blocks, Nat.mul_add_div halfPos]
        omega
      rw [iterativePass_getElem? bf d level _ (by rw [List.length_append]; omega), iterativePass_getElem? bf d level _ (by omega),
        place, show (2 ^ n + j) % 2 ^ (level - 1) = j % 2 ^ (level - 1) by rw [blocks, Nat.mul_add_mod], Nat.add_assoc,
        getD_append_high d ySize, getD_append_high d ySize]
      split
      case isTrue => rfl
      case isFalse upper =>
        have wide : 2 ^ (level - 1) ≤ j := by
          by_contra narrow
          rw [Nat.div_eq_of_lt (Nat.not_le.mp narrow)] at upper
          exact upper rfl
        rw [Nat.add_sub_assoc wide, getD_append_high d ySize]
    · rw [List.getElem?_eq_none (by rw [iterativePass_length, List.length_append]; omega),
        List.getElem?_eq_none (by rw [iterativePass_length]; omega)]

/-- The pass of the full size is the combining step. -/
theorem iterativePass_top : iterativePass bf d (n + 1) (y ++ z) = combine (bf (n + 1)) y z := by
  have size : (combine (bf (n + 1)) y z).length = 2 ^ (n + 1) := by rw [combine_length, ySize, zSize, Nat.pow_succ]; omega
  have total : (y ++ z).length = 2 ^ (n + 1) := by rw [List.length_append, ySize, zSize, Nat.pow_succ]; omega
  have positive : 0 < 2 ^ n := Nat.two_pow_pos n
  refine List.ext_getElem? fun i => ?_
  by_cases inRange : i < 2 ^ (n + 1)
  · obtain ⟨k, small, place⟩ := low_or_high inRange
    have even := List.getElem?_eq_getElem (ySize ▸ small)
    have odd := List.getElem?_eq_getElem (zSize ▸ small)
    have evenD : y.getD k d = y[k] := List.getD_eq_getElem _ _ (ySize ▸ small)
    have oddD : z.getD k d = z[k] := List.getD_eq_getElem _ _ (zSize ▸ small)
    rw [iterativePass_getElem? bf d _ _ (by omega), Nat.add_sub_cancel]
    obtain rfl | rfl := place
    · rw [combine_getElem?_low even odd, if_pos (by rw [Nat.div_eq_of_lt small]), Nat.mod_eq_of_lt small, getD_append_low d ySize small,
        Nat.add_comm i, getD_append_high d ySize, evenD, oddD]
    · rw [combine_getElem?_high ySize zSize even odd, if_neg (by rw [Nat.add_div_left k positive, Nat.div_eq_of_lt small]; decide),
        Nat.add_mod_left, Nat.mod_eq_of_lt small, Nat.add_sub_cancel_left, getD_append_low d ySize small,
        getD_append_high d ySize, evenD, oddD]
  · rw [List.getElem?_eq_none (by rw [iterativePass_length]; omega), List.getElem?_eq_none (by omega)]

end

theorem passes_succ (levels : Nat) (y : List α) :
    passes bf d (levels + 1) y = iterativePass bf d (levels + 1) (passes bf d levels y) := by
  rw [passes, List.range'_1_concat, List.foldl_append, Nat.add_comm levels 1]
  rfl

theorem passes_append {n levels : Nat} {y z : List α} (ySize : y.length = 2 ^ n) (zSize : z.length = 2 ^ n) (fits : levels ≤ n) :
    passes bf d levels (y ++ z) = passes bf d levels y ++ passes bf d levels z := by
  induction levels with
  | zero => rfl
  | succ levels ih =>
    rw [passes_succ, passes_succ, passes_succ, ih (by omega),
      iterativePass_append bf d ((passes_length ..).trans ySize) ((passes_length ..).trans zSize) (Nat.succ_pos _) fits]

/-- On any size the passes on the bit-reversed input are the recursion. -/
theorem passes_bitReversed {n : Nat} {x : List α} (size : x.length = 2 ^ n) : passes bf d n (bitReversed d n x) = fftWith bf n x := by
  induction n generalizing x with
  | zero =>
    obtain ⟨a, rfl⟩ := List.length_eq_one_iff.mp size
    rfl
  | succ n ih =>
    have evenSize := bitReversed_length d n (evens x)
    have oddSize := bitReversed_length d n (odds x)
    rw [passes_succ, bitReversed_succ, passes_append bf d evenSize oddSize le_rfl, ih (evens_size size), ih (odds_size size),
      iterativePass_top bf d (fftWith_length bf n _ (evens_size size)) (fftWith_length bf n _ (odds_size size)), fftWith]

/-- Settles O28: the general fact at size 64. -/
theorem iterativeTransformGivesTheSameBits : Obligations.IterativeTransformGivesTheSameBits := by
  intro x full
  rw [iterativeFft_eq_passes]
  exact passes_bitReversed stepButterfly zeroSample (n := 6) full

end Sys2Proof.Machine
end

