-- ==== Sys2Proof/Proofs/Fourier.lean ====
section
/-! PROOFS. Over exact complex numbers the recursion is the discrete Fourier transform (41_transform.md R64): the sum over an input
of twice the size is the sum over its even half and the twiddle factor times the sum over its odd half. -/

namespace Sys2Proof.Machine

open Claims Complex

/-! ### The exact twiddle factors -/

theorem exactTw_add (n a b : Nat) : exactTw n (a + b) = exactTw n a * exactTw n b := by
  rw [exactTw, exactTw, exactTw, ← Complex.exp_add]
  push_cast
  ring_nf

/-- A whole turn. -/
theorem exactTw_turn (n m : Nat) : exactTw n (m * 2 ^ n) = 1 := by
  rw [exactTw, Complex.exp_eq_one_iff]
  refine ⟨-m, ?_⟩
  push_cast
  field_simp

/-- Half a turn. -/
theorem exactTw_half_turn (n : Nat) : exactTw (n + 1) (2 ^ n) = -1 := by
  rw [exactTw, ← Complex.exp_neg_pi_mul_I]
  push_cast
  congr 1
  field_simp
  ring

/-- An even step of the finer circle is a step of the coarser one. -/
theorem exactTw_succ_two_mul (n k : Nat) : exactTw (n + 1) (2 * k) = exactTw n k := by
  rw [exactTw, exactTw, pow_succ]
  push_cast
  congr 1
  field_simp

theorem norm_exactTw (n k : Nat) : ‖exactTw n k‖ = 1 := by
  rw [exactTw, show -(2 * Real.pi * Complex.I * k / 2 ^ n : ℂ) = ((-(2 * Real.pi * k / 2 ^ n) : ℝ) : ℂ) * Complex.I by push_cast; ring]
  exact Complex.norm_exp_ofReal_mul_I _

theorem conj_exactTw (n k : Nat) : starRingEnd ℂ (exactTw n k) = Complex.exp (2 * Real.pi * Complex.I * k / 2 ^ n) := by
  rw [exactTw, ← Complex.exp_conj]
  simp [map_ofNat, neg_div]

/-! ### The transform as a sum -/

/-- A sum over twice a range is the sums over its even and its odd places. -/
theorem sum_range_two_mul (f : Nat → ℂ) (m : Nat) :
    ∑ j ∈ Finset.range (2 * m), f j = ∑ j ∈ Finset.range m, f (2 * j) + ∑ j ∈ Finset.range m, f (2 * j + 1) := by
  induction m with
  | zero => simp
  | succ m ih =>
    rw [show 2 * (m + 1) = 2 * m + 1 + 1 by ring, Finset.sum_range_succ, Finset.sum_range_succ, ih, Finset.sum_range_succ,
      Finset.sum_range_succ]
    ring

/-- The discrete Fourier transform of `2 ^ n` values. -/
noncomputable def dft (n : Nat) (x : List ℂ) (k : Nat) : ℂ := ∑ j ∈ Finset.range (2 ^ n), x.getD j 0 * exactTw n (j * k)

/-- The sum over the even half and, turned by the factor of the place, the sum over the odd half. -/
theorem dft_succ (n : Nat) (x : List ℂ) (k : Nat) :
    dft (n + 1) x k = dft n (evens x) k + exactTw (n + 1) k * dft n (odds x) k := by
  rw [dft, pow_succ', sum_range_two_mul, dft, dft, Finset.mul_sum]
  congr 1
  · refine Finset.sum_congr rfl fun j _ => ?_
    rw [evens_getD, Nat.mul_assoc, exactTw_succ_two_mul]
  · refine Finset.sum_congr rfl fun j _ => ?_
    rw [odds_getD, show (2 * j + 1) * k = k + 2 * (j * k) by ring, exactTw_add, exactTw_succ_two_mul]
    ring

/-- The transform repeats after `2 ^ n` places. -/
theorem dft_add_turn (n : Nat) (x : List ℂ) (k : Nat) : dft n x (2 ^ n + k) = dft n x k := by
  refine Finset.sum_congr rfl fun j _ => ?_
  rw [Nat.mul_add, exactTw_add, exactTw_turn, one_mul]

theorem fftWith_exactButterfly {n : Nat} {x : List ℂ} (size : x.length = 2 ^ n) {k : Nat} (inRange : k < 2 ^ n) :
    (fftWith exactButterfly n x)[k]? = some (dft n x k) := by
  induction n generalizing x k with
  | zero =>
    obtain ⟨a, rfl⟩ := List.length_eq_one_iff.mp size
    obtain rfl : k = 0 := by omega
    simp [fftWith, dft, exactTw]
  | succ n ih =>
    obtain ⟨j, small, place⟩ := low_or_high inRange
    obtain ⟨a, b, even, odd, low, high⟩ := fftWith_succ_getElem? exactButterfly size small
    rw [ih (evens_size size) small, Option.some.injEq] at even
    rw [ih (odds_size size) small, Option.some.injEq] at odd
    obtain rfl | rfl := place
    · rw [low, dft_succ, even, odd, exactButterfly]
    · rw [high, dft_succ, dft_add_turn, dft_add_turn, exactTw_add, exactTw_half_turn, even, odd, exactButterfly]
      congr 1
      ring

/-! ### The forward and the inverse transform of 64 values -/

theorem dft_six (x : List ℂ) (k : Nat) :
    dft 6 x k = ∑ j ∈ Finset.range 64, x.getD j 0 * Complex.exp (-(2 * Real.pi * Complex.I * j * k / 64)) := by
  refine Finset.sum_congr rfl fun j _ => ?_
  rw [exactTw]
  push_cast
  ring_nf

/-- Conjugating before and after the transform turns the exponent's sign. -/
theorem conj_dft_conj (x : List ℂ) (k : Nat) :
    starRingEnd ℂ (dft 6 (x.map (starRingEnd ℂ)) k) =
      ∑ j ∈ Finset.range 64, x.getD j 0 * Complex.exp (2 * Real.pi * Complex.I * j * k / 64) := by
  rw [dft, map_sum]
  refine Finset.sum_congr rfl fun j _ => ?_
  have entry : (x.map (starRingEnd ℂ)).getD j 0 = starRingEnd ℂ (x.getD j 0) := by
    rw [← map_zero (starRingEnd ℂ), List.getD_map, map_zero]
  rw [entry, map_mul, Complex.conj_conj, conj_exactTw]
  push_cast
  ring_nf

theorem ifft64_getElem? (x : List Sample) (j : Nat) : (ifft64 x)[j]? = (fft64 (x.map conj))[j]?.map fun b => cdiv64 (conj b) := by
  rw [ifft64, List.getElem?_map, List.getElem?_map, Option.map_map]
  rfl

/-- Settles O25: the recursion over exact numbers is the sum by induction on its levels, and on Samples both transforms are the
recursion by definition. -/
theorem recursionOverExactNumbersIsTheFourierTransform : Obligations.RecursionOverExactNumbersIsTheFourierTransform := by
  refine ⟨fun x full k inRange => ⟨?_, ?_⟩, fun _ => rfl, fun x j _ => ifft64_getElem? x j⟩
  · rw [fftWith_exactButterfly (n := 6) full inRange, dft_six]
  · have full' : (x.map (starRingEnd ℂ)).length = 2 ^ 6 := (List.length_map _).trans full
    rw [List.getElem?_map, fftWith_exactButterfly full' inRange, Option.map_some, conj_dft_conj, div_eq_inv_mul, one_div]

end Sys2Proof.Machine
end

