-- ==== Sys2Proof/Proofs/Rounding.lean ====
section
/-! PROOFS. Rounding (41_transform.md R65). A finite value is `n * 2 ^ s` units, its scaled form, and between two neighbours of one
binade no value lies; `fRound` takes the nearer neighbour of its exact argument, and on a tie the even one. -/

namespace Sys2Proof.Machine

/-! ### Words from their sign and their magnitude -/

section
variable (negative : Bool) {m : Nat} (fits : m < 2 ^ 63)
include fits

theorem fSign_fOfBits : fSign (fOfBits negative m) = negative := by
  rw [fSign_eq, fOfBits_toNat negative fits]
  cases negative
  · exact decide_eq_false (by simp only [Bool.false_eq_true, if_false]; omega)
  · exact decide_eq_true (by simp only [if_true]; omega)

theorem fIsFinite_fOfBits : fIsFinite (fOfBits negative m) = decide (m < fInfBits) := by
  rw [Bool.eq_iff_iff, fIsFinite, bne_iff_ne, fExp_fOfBits negative fits, decide_eq_true_iff, fInfBits]
  omega

theorem getLsbD_zero_fOfBits : (fOfBits negative m).getLsbD 0 = decide (m % 2 = 1) := by
  rw [BitVec.getLsbD, Nat.testBit_zero, fOfBits_toNat negative fits]
  congr 1
  rw [eq_iff_iff]
  split <;> omega

end

theorem fneg_toNat (x : F64) : (fneg x).toNat = if 2 ^ 63 ≤ x.toNat then x.toNat - 2 ^ 63 else x.toNat + 2 ^ 63 := by
  have bound := x.isLt
  have low : (x.toNat ^^^ 2 ^ 63) % 2 ^ 63 = x.toNat % 2 ^ 63 := by
    rw [Nat.xor_mod_two_pow, Nat.mod_self, Nat.xor_zero]
  have top : (x.toNat ^^^ 2 ^ 63) / 2 ^ 63 = x.toNat / 2 ^ 63 ^^^ 1 := by
    rw [Nat.xor_div_two_pow, Nat.div_self (Nat.two_pow_pos 63)]
  rw [fneg, BitVec.toNat_xor, show (0x8000000000000000 : F64).toNat = 2 ^ 63 from rfl]
  split
  case isTrue negative =>
    rw [show x.toNat / 2 ^ 63 = 1 by omega, Nat.xor_self] at top
    omega
  case isFalse positive =>
    rw [show x.toNat / 2 ^ 63 = 0 by omega, Nat.zero_xor] at top
    omega

section
variable (x : F64)

theorem fSign_fneg : fSign (fneg x) = !fSign x := by
  have bound := x.isLt
  rw [fSign_eq, fSign_eq, fneg_toNat, ← decide_not, decide_eq_decide]
  split <;> omega

theorem fExp_fneg : fExp (fneg x) = fExp x := by
  rw [fExp_eq, fExp_eq, fneg_toNat]
  split <;> omega

theorem fFrac_fneg : fFrac (fneg x) = fFrac x := by
  rw [fFrac_eq, fFrac_eq, fneg_toNat]
  split <;> omega

theorem fIsNaN_fneg : fIsNaN (fneg x) = fIsNaN x := by rw [fIsNaN, fIsNaN, fExp_fneg, fFrac_fneg]

theorem fIsZero_fneg : fIsZero (fneg x) = fIsZero x := by rw [fIsZero, fIsZero, fExp_fneg, fFrac_fneg]

theorem fIsFinite_fneg : fIsFinite (fneg x) = fIsFinite x := by rw [fIsFinite, fIsFinite, fExp_fneg]

theorem fUnits_fneg : fUnits (fneg x) = fUnits x := by rw [fUnits, fUnits, fExp_fneg, fFrac_fneg]

theorem fInt_fneg : fInt (fneg x) = -fInt x := by
  rw [fInt, fInt, fSign_fneg, fUnits_fneg]
  cases fSign x <;> simp

theorem natAbs_fInt : (fInt x).natAbs = fUnits x := by
  unfold fInt
  split <;> omega

end

theorem fneg_fOfBits_false {m : Nat} (fits : m < 2 ^ 63) : fneg (fOfBits false m) = fOfBits true m := by
  apply BitVec.eq_of_toNat_eq
  rw [fneg_toNat, fOfBits_toNat _ fits, fOfBits_toNat _ fits, if_neg Bool.false_ne_true, if_pos rfl, if_neg (by omega),
    Nat.add_comm]

/-! ### The scaled form -/

/-- `n` at binade `s` is in scaled form: a subnormal has binade 0, and in every other binade the leading bit is there. -/
def Scaled (s n : Nat) : Prop := s = 0 ∨ 2 ^ 52 ≤ n

/-- A rounding up to `2 ^ 53` has carried into the next binade and stands for the same units. -/
theorem fUnits_fOfBits {s n : Nat} (negative : Bool) (scaled : Scaled s n) (carried : n ≤ 2 ^ 53) (fits : s * 2 ^ 52 + n < 2 ^ 63) :
    fUnits (fOfBits negative (s * 2 ^ 52 + n)) = n * 2 ^ s := by
  rw [fUnits, fExp_fOfBits _ fits, fFrac_fOfBits _ fits]
  have place : n < 2 ^ 52 ∨ (2 ^ 52 ≤ n ∧ n < 2 ^ 53) ∨ n = 2 ^ 53 := by omega
  obtain subnormal | ⟨leading, normal⟩ | rfl := place
  · obtain rfl : s = 0 := scaled.resolve_right (by omega)
    rw [if_pos (by omega), Nat.pow_zero]
    omega
  · rw [if_neg (by omega), show (s * 2 ^ 52 + n) / 2 ^ 52 - 1 = s by omega, show 2 ^ 52 + (s * 2 ^ 52 + n) % 2 ^ 52 = n by omega]
  · rw [if_neg (by omega), show (s * 2 ^ 52 + 2 ^ 53) / 2 ^ 52 - 1 = s + 1 by omega,
      show 2 ^ 52 + (s * 2 ^ 52 + 2 ^ 53) % 2 ^ 52 = 2 ^ 52 by omega, Nat.pow_succ 2 s]
    ring

/-- Every word has a scaled form. -/
theorem exists_scaled (x : F64) :
    ∃ s n, n < 2 ^ 53 ∧ Scaled s n ∧ s * 2 ^ 52 + n < 2 ^ 63 ∧ x = fOfBits (fSign x) (s * 2 ^ 52 + n) ∧ fUnits x = n * 2 ^ s := by
  have bound := x.isLt
  have word {s n : Nat} (magnitude : s * 2 ^ 52 + n = x.toNat % 2 ^ 63) : x = fOfBits (fSign x) (s * 2 ^ 52 + n) := by
    apply BitVec.eq_of_toNat_eq
    rw [fOfBits_toNat _ (by omega), fSign_eq, magnitude]
    split <;> simp_all <;> omega
  by_cases subnormal : fExp x = 0
  · refine ⟨0, fFrac x, ?_, .inl rfl, ?_, word ?_, ?_⟩
    · rw [fFrac_eq]; omega
    · rw [fFrac_eq]; omega
    · rw [fExp_eq] at subnormal; rw [fFrac_eq]; omega
    · rw [fUnits, if_pos subnormal, Nat.pow_zero, Nat.mul_one]
  · refine ⟨fExp x - 1, 2 ^ 52 + fFrac x, ?_, .inr (by omega), ?_, word ?_, ?_⟩
    · rw [fFrac_eq]; omega
    · rw [fFrac_eq, fExp_eq]; omega
    · rw [fExp_eq] at subnormal ⊢; rw [fFrac_eq]; omega
    · rw [fUnits, if_neg subnormal]

/-- No value lies between two neighbours of one binade. -/
theorem fUnits_gap {s low : Nat} (scaled : Scaled s low) (v : F64) : fUnits v ≤ low * 2 ^ s ∨ (low + 1) * 2 ^ s ≤ fUnits v := by
  obtain ⟨s', n', small, -, -, -, units⟩ := exists_scaled v
  rw [units]
  by_cases coarser : s ≤ s'
  · obtain ⟨k, rfl⟩ := Nat.exists_eq_add_of_le coarser
    rw [Nat.pow_add, Nat.mul_comm (2 ^ s), ← Nat.mul_assoc]
    obtain le | lt := Nat.lt_or_ge low (n' * 2 ^ k)
    · exact .inr (Nat.mul_le_mul_right _ le)
    · exact .inl (Nat.mul_le_mul_right _ lt)
  · have leading : 2 ^ 52 ≤ low := scaled.resolve_left (by omega)
    left
    calc n' * 2 ^ s' ≤ 2 ^ 53 * 2 ^ s' := Nat.mul_le_mul_right _ small.le
      _ = 2 ^ 52 * 2 ^ (s' + 1) := by rw [Nat.pow_succ 2 s']; ring
      _ ≤ low * 2 ^ s := Nat.mul_le_mul leading (Nat.pow_le_pow_right (by decide) (by omega))

/-- Sign and units determine the word. -/
theorem eq_of_fUnits_eq {x y : F64} (sign : fSign x = fSign y) (units : fUnits x = fUnits y) : x = y := by
  obtain ⟨s, n, small, scaled, -, wordX, unitsX⟩ := exists_scaled x
  obtain ⟨s', n', small', scaled', -, wordY, unitsY⟩ := exists_scaled y
  have binade {s s' n n' : Nat} (small : n < 2 ^ 53) (scaled' : Scaled s' n') (same : n * 2 ^ s = n' * 2 ^ s') : s' ≤ s := by
    by_contra finer
    have leading : 2 ^ 52 ≤ n' := scaled'.resolve_left (by omega)
    have : n * 2 ^ s < n' * 2 ^ s' :=
      calc n * 2 ^ s < 2 ^ 53 * 2 ^ s := Nat.mul_lt_mul_of_pos_right small (Nat.two_pow_pos s)
        _ = 2 ^ 52 * 2 ^ (s + 1) := by rw [Nat.pow_succ 2 s]; ring
        _ ≤ n' * 2 ^ s' := Nat.mul_le_mul leading (Nat.pow_le_pow_right (by decide) (by omega))
    omega
  have same : n * 2 ^ s = n' * 2 ^ s' := unitsX.symm.trans (units.trans unitsY)
  obtain rfl : s = s' := Nat.le_antisymm (binade small' scaled same.symm) (binade small scaled' same)
  obtain rfl : n = n' := Nat.eq_of_mul_eq_mul_right (Nat.two_pow_pos s) same
  rw [wordX, wordY, sign]

/-! ### What `fRound` computes -/

/-- `n` at binade `s` is `p / q` rounded: `low` and `low + 1` are its neighbours, and `n` is the nearer, on a tie the even one. -/
structure Rounds (p q s low n : Nat) : Prop where
  scaled : Scaled s low
  low_lt : low < 2 ^ 53
  below : q * 2 ^ s * low ≤ p
  above : p < q * 2 ^ s * low + q * 2 ^ s
  nearest : (n = low ∧ 2 * p ≤ 2 * (q * 2 ^ s * low) + q * 2 ^ s ∧ (2 * p = 2 * (q * 2 ^ s * low) + q * 2 ^ s → low % 2 = 0)) ∨
    (n = low + 1 ∧ 2 * (q * 2 ^ s * low) + q * 2 ^ s ≤ 2 * p ∧ (2 * p = 2 * (q * 2 ^ s * low) + q * 2 ^ s → low % 2 = 1))

/-- The binade that `fRound` takes brings the quotient into scaled form. -/
theorem quotient_scaled (z : Nat) : Scaled (Nat.log2 z - 52) (z / 2 ^ (Nat.log2 z - 52)) ∧ z / 2 ^ (Nat.log2 z - 52) < 2 ^ 53 := by
  have upper : z < 2 ^ (z.log2 + 1) := Nat.lt_log2_self
  by_cases small : z.log2 ≤ 52
  · rw [Nat.sub_eq_zero_of_le small, Nat.pow_zero, Nat.div_one]
    exact ⟨.inl rfl, lt_of_lt_of_le upper (Nat.pow_le_pow_right (by decide) (by omega))⟩
  · have nonzero : z ≠ 0 := by
      rintro rfl
      simp at small
    obtain ⟨s, large⟩ : ∃ s, z.log2 = 52 + s := ⟨z.log2 - 52, by omega⟩
    have lower : 2 ^ z.log2 ≤ z := Nat.log2_self_le nonzero
    rw [large] at lower upper ⊢
    rw [Nat.add_sub_cancel_left]
    refine ⟨.inr ?_, ?_⟩
    · rwa [Nat.le_div_iff_mul_le (Nat.two_pow_pos s), ← Nat.pow_add]
    · rwa [Nat.div_lt_iff_lt_mul (Nat.two_pow_pos s), ← Nat.pow_add, show 53 + s = 52 + s + 1 by omega]

/-- The rounding of `fRound` to a multiple of the step of its binade. -/
def roundedCount (p step : Nat) : Nat :=
  if step < 2 * (p % step) ∨ (2 * (p % step) = step ∧ p / step % 2 = 1) then p / step + 1 else p / step

theorem roundedCount_nearest {p step : Nat} :
    (roundedCount p step = p / step ∧ 2 * (p % step) ≤ step ∧ (2 * (p % step) = step → p / step % 2 = 0)) ∨
      (roundedCount p step = p / step + 1 ∧ step ≤ 2 * (p % step) ∧ (2 * (p % step) = step → p / step % 2 = 1)) := by
  unfold roundedCount
  split
  case isTrue up => exact .inr ⟨rfl, by omega, by omega⟩
  case isFalse down => exact .inl ⟨rfl, by omega, by omega⟩

theorem fRound_spec {p q : Nat} (positive : 0 < q) :
    ∃ s low n, Rounds p q s low n ∧ ∀ negative, fRound negative p q =
      fOfBits negative (if fInfBits ≤ s * 2 ^ 52 + n then fInfBits else s * 2 ^ 52 + n) := by
  obtain ⟨scaled, low_lt⟩ := quotient_scaled (p / q)
  rw [Nat.div_div_eq_div_mul] at scaled low_lt
  refine ⟨_, _, roundedCount p (q * 2 ^ (Nat.log2 (p / q) - 52)), ⟨scaled, low_lt, ?_, ?_, ?_⟩, fun negative => rfl⟩
  all_goals
    have stepPos : 0 < q * 2 ^ (Nat.log2 (p / q) - 52) := Nat.mul_pos positive (Nat.two_pow_pos _)
    generalize q * 2 ^ (Nat.log2 (p / q) - 52) = step at *
    have division := Nat.div_add_mod p step
    have rest := Nat.mod_lt p stepPos
  · omega
  · omega
  · have nearest := roundedCount_nearest (p := p) (step := step)
    omega

section
variable {p q s low n : Nat} (rounds : Rounds p q s low n)
include rounds

theorem Rounds.le_carried : n ≤ 2 ^ 53 := by
  have small := rounds.low_lt
  obtain ⟨rfl, -, -⟩ | ⟨rfl, -, -⟩ := rounds.nearest <;> omega

theorem Rounds.scaled_result : Scaled s n := by
  obtain rfl | leading := rounds.scaled
  · exact .inl rfl
  · refine .inr ?_
    obtain ⟨rfl, -, -⟩ | ⟨rfl, -, -⟩ := rounds.nearest <;> omega

/-- The magnitude reaches the exponent field 0x7FF exactly from half a unit above the largest finite value on: above binade 2045,
and in it where all 53 bits are ones and half a step is reached. -/
theorem Rounds.overflow_iff (positive : 0 < q) : fInfBits ≤ s * 2 ^ 52 + n ↔ (2 ^ 54 - 1) * 2 ^ 2044 * q ≤ p := by
  obtain ⟨scaled, low_lt, below, above, nearest⟩ := rounds
  obtain ⟨e, exponent⟩ : ∃ e, 2044 = e := ⟨_, rfl⟩
  have coarse (finer : e + 2 ≤ s) : 2 * (q * 2 ^ (e + 1)) ≤ q * 2 ^ s :=
    calc 2 * (q * 2 ^ (e + 1)) = q * 2 ^ (e + 2) := by rw [Nat.pow_succ 2 (e + 1)]; ring
      _ ≤ q * 2 ^ s := Nat.mul_le_mul_left q (Nat.pow_le_pow_right (by decide) finer)
  have fine (coarser : s ≤ e) : 2 * (q * 2 ^ s) ≤ q * 2 ^ (e + 1) :=
    calc 2 * (q * 2 ^ s) = q * 2 ^ (s + 1) := by rw [Nat.pow_succ 2 s]; ring
      _ ≤ q * 2 ^ (e + 1) := Nat.mul_le_mul_left q (Nat.pow_le_pow_right (by decide) (by omega))
  have top : s = e + 1 → q * 2 ^ s = q * 2 ^ (e + 1) := fun h => by rw [h]
  have stepPos : 0 < q * 2 ^ (e + 1) := Nat.mul_pos positive (Nat.two_pow_pos _)
  have threshold : 2 * ((2 ^ 54 - 1) * 2 ^ e * q) = 18014398509481983 * (q * 2 ^ (e + 1)) := by
    rw [Nat.pow_succ 2 e, show 2 ^ 54 - 1 = 18014398509481983 from rfl]
    ring
  rw [exponent, ← Nat.mul_le_mul_left_iff (n := (2 ^ 54 - 1) * 2 ^ e * q) Nat.two_pos, threshold]
  clear threshold
  generalize q * 2 ^ (e + 1) = half at *
  generalize q * 2 ^ s = step at *
  unfold fInfBits
  obtain above2045 | at2045 | below2045 : e + 2 ≤ s ∨ s = e + 1 ∨ s ≤ e := by omega
  · have leading : 2 ^ 52 ≤ low := scaled.resolve_left (by omega)
    have := Nat.mul_le_mul (coarse above2045) leading
    omega
  · obtain rfl := top at2045
    by_cases ones : low = 9007199254740991
    · obtain ⟨down, near, tie⟩ | ⟨up, near, -⟩ := nearest
      · replace near : 2 * p < 2 * (step * low) + step :=
          lt_of_le_of_ne near fun atTie => absurd (ones ▸ tie atTie) (by decide)
        clear tie
        subst ones
        omega
      · subst ones
        omega
    · have := Nat.mul_le_mul_left step (show low ≤ 9007199254740990 by omega)
      omega
  · have := Nat.mul_le_mul_left step (show low ≤ 9007199254740991 by omega)
    have := fine below2045
    omega

end

/-- The result is an infinity from half a unit above the largest finite value on. -/
theorem fRound_of_overflow {p q : Nat} (positive : 0 < q) (overflow : Claims.overflowUnits * q ≤ p) (negative : Bool) :
    fRound negative p q = fInf negative := by
  obtain ⟨s, low, n, rounds, result⟩ := fRound_spec (p := p) positive
  rw [result, if_pos ((rounds.overflow_iff positive).mpr overflow), fInf]

/-- Below that it is a finite value, `n` at binade `s`. -/
theorem fRound_of_not_overflow {p q : Nat} (positive : 0 < q) (small : p < Claims.overflowUnits * q) :
    ∃ s low n, Rounds p q s low n ∧ ∀ negative, fIsFinite (fRound negative p q) = true ∧ fSign (fRound negative p q) = negative ∧
      fUnits (fRound negative p q) = n * 2 ^ s ∧ (fRound negative p q).getLsbD 0 = decide (n % 2 = 1) := by
  obtain ⟨s, low, n, rounds, result⟩ := fRound_spec (p := p) positive
  have finite : s * 2 ^ 52 + n < fInfBits := Nat.not_le.mp fun large => absurd ((rounds.overflow_iff positive).mp large) (Nat.not_le.mpr small)
  have fits : s * 2 ^ 52 + n < 2 ^ 63 := by unfold fInfBits at finite; omega
  refine ⟨s, low, n, rounds, fun negative => ?_⟩
  rw [result, if_neg (Nat.not_le.mpr finite)]
  refine ⟨?_, fSign_fOfBits _ fits, fUnits_fOfBits _ rounds.scaled_result rounds.le_carried fits, ?_⟩
  · rw [fIsFinite_fOfBits _ fits, decide_eq_true finite]
  · rw [getLsbD_zero_fOfBits _ fits, show (s * 2 ^ 52 + n) % 2 = n % 2 by omega]

/-! ### Nearest, ties to even -/

section
variable {p q s low n : Nat} (rounds : Rounds p q s low n)
include rounds

/-- Every value lies beyond one of the two neighbours of the argument. -/
theorem Rounds.beyond (v : F64) : q * fUnits v ≤ q * 2 ^ s * low ∨ q * 2 ^ s * low + q * 2 ^ s ≤ q * fUnits v := by
  obtain below | above := fUnits_gap rounds.scaled v
  · left
    calc q * fUnits v ≤ q * (low * 2 ^ s) := Nat.mul_le_mul_left q below
      _ = q * 2 ^ s * low := by ring
  · right
    calc q * 2 ^ s * low + q * 2 ^ s = q * ((low + 1) * 2 ^ s) := by ring
      _ ≤ q * fUnits v := Nat.mul_le_mul_left q above

/-- The result is one of the two neighbours. -/
theorem Rounds.neighbour : (n = low ∧ q * (n * 2 ^ s) = q * 2 ^ s * low) ∨
    (n = low + 1 ∧ q * (n * 2 ^ s) = q * 2 ^ s * low + q * 2 ^ s) := by
  obtain ⟨rfl, -, -⟩ | ⟨rfl, -, -⟩ := rounds.nearest
  · exact .inl ⟨rfl, by ring⟩
  · exact .inr ⟨rfl, by ring⟩

/-- No value lies nearer than the result. -/
theorem Rounds.natAbs_le (v : F64) : ((p : Int) - (q * (n * 2 ^ s) : Nat)).natAbs ≤ ((p : Int) - (q * fUnits v : Nat)).natAbs := by
  have beyond := rounds.beyond v
  have neighbour := rounds.neighbour
  obtain ⟨-, -, below, above, nearest⟩ := rounds
  generalize q * (n * 2 ^ s) = result at *
  generalize q * fUnits v = other at *
  generalize q * 2 ^ s * low = lower at *
  generalize q * 2 ^ s = step at *
  omega

/-- Where another value lies as near, the result is even. -/
theorem Rounds.even_of_tie (v : F64) (other : q * fUnits v ≠ q * (n * 2 ^ s))
    (tie : ((p : Int) - (q * fUnits v : Nat)).natAbs = ((p : Int) - (q * (n * 2 ^ s) : Nat)).natAbs) : n % 2 = 0 := by
  have beyond := rounds.beyond v
  have neighbour := rounds.neighbour
  obtain ⟨-, -, below, above, nearest⟩ := rounds
  generalize q * (n * 2 ^ s) = result at *
  generalize q * fUnits v = other at *
  generalize q * 2 ^ s * low = lower at *
  generalize q * 2 ^ s = step at *
  omega

/-- The result is within half a step, and a step is small beside the argument or is one unit. -/
theorem Rounds.error_le : 2 ^ 53 * ((p : Int) - (q * (n * 2 ^ s) : Nat)).natAbs ≤ p + 2 ^ 52 * q := by
  have neighbour := rounds.neighbour
  obtain ⟨scaled, -, below, above, nearest⟩ := rounds
  have half : 2 * ((p : Int) - (q * (n * 2 ^ s) : Nat)).natAbs ≤ q * 2 ^ s := by
    generalize q * (n * 2 ^ s) = result at *
    generalize q * 2 ^ s * low = lower at *
    generalize q * 2 ^ s = step at *
    omega
  obtain rfl | leading := scaled
  · rw [Nat.pow_zero, Nat.mul_one] at half
    omega
  · have := Nat.mul_le_mul_left (q * 2 ^ s) leading
    omega

end

theorem fInf_infinite (negative : Bool) : fIsFinite (fInf negative) = false := by revert negative; decide

/-- Both signs round the same magnitude. -/
theorem fRound_true {p q : Nat} (positive : 0 < q) : fRound true p q = fneg (fRound false p q) := by
  obtain ⟨s, low, n, -, result⟩ := fRound_spec (p := p) positive
  rw [result, result, fneg_fOfBits_false]
  unfold fInfBits
  split <;> omega

/-- Settles O21: the two sides of the threshold; below it the rules of the two neighbours. -/
theorem roundingIsNearestTiesToEven : Obligations.RoundingIsNearestTiesToEven := by
  intro p q positive r off
  obtain small | overflow := Nat.lt_or_ge p ((2 ^ 54 - 1) * 2 ^ 2044 * q)
  · obtain ⟨s, low, n, rounds, result⟩ := fRound_of_not_overflow positive small
    obtain ⟨finite, sign, units, even⟩ := result false
    refine ⟨iff_of_false (by simp [r, finite]) (Nat.not_le.mpr small), fun infinite => absurd finite (by simp [infinite, r]),
      fun _ => ⟨sign, fun v _ => ⟨?_, fun different tie => ?_⟩⟩, fRound_true positive⟩
    · simpa [off, r, units] using rounds.natAbs_le v
    · have notSame : q * fUnits v ≠ q * (n * 2 ^ s) := fun same => different ((Nat.eq_of_mul_eq_mul_left positive same).trans units.symm)
      have isEven := rounds.even_of_tie v notSame (by simpa [off, r, units] using tie)
      exact even.trans (decide_eq_false (by omega))
  · have infinite : r = fInf false := fRound_of_overflow positive overflow false
    have notFinite : fIsFinite r = false := infinite ▸ fInf_infinite false
    exact ⟨iff_of_true notFinite overflow, fun _ => infinite, fun finite => absurd (finite.symm.trans notFinite) (by decide),
      fRound_true positive⟩

/-- The signed value of a word, `q` times. -/
theorem fInt_mul (v : F64) (q : Nat) : fInt v * q = if fSign v then -((q * fUnits v : Nat) : Int) else (q * fUnits v : Nat) := by
  unfold fInt
  split <;> push_cast <;> ring

/-- The distance of two signed magnitudes: values of the other sign lie beyond zero. -/
theorem natAbs_signed_sub (sign negative : Bool) (p result : Nat) :
    ((if sign then -(result : Int) else result) - (if negative then -(p : Int) else p)).natAbs =
      if sign = negative then ((p : Int) - result).natAbs else p + result := by
  cases sign <;> cases negative <;> simp only [if_true, if_false, Bool.false_eq_true, reduceCtorEq] <;> omega

/-- A rounded result as a signed value: nearest among all signed values, and even on a tie. -/
theorem fRound_isRounded {p q : Nat} (positive : 0 < q) (negative : Bool) :
    Claims.IsRounded (fRound negative p q) (if negative then -(p : Int) else p) q := by
  have magnitude : (if negative then -(p : Int) else p).natAbs = p := by split <;> omega
  obtain small | overflow := Nat.lt_or_ge p (Claims.overflowUnits * q)
  · obtain ⟨s, low, n, rounds, result⟩ := fRound_of_not_overflow positive small
    obtain ⟨finite, sign, units, even⟩ := result negative
    have zero := rounds.natAbs_le 0
    rw [show fUnits 0 = 0 from rfl, Nat.mul_zero] at zero
    refine ⟨fun _ => finite, fun _ v _ => ?_, fun _ v _ different tie => ?_, fun overflow => ?_⟩
    · have nearest := rounds.natAbs_le v
      rw [fInt_mul, fInt_mul, natAbs_signed_sub, natAbs_signed_sub, sign, units, if_pos rfl]
      split
      case isTrue => exact nearest
      case isFalse => omega
    · have different' : fInt v * q ≠ fInt (fRound negative p q) * q := fun same =>
        different (Int.eq_of_mul_eq_mul_right (by omega) same)
      rw [fInt_mul, fInt_mul, sign, units] at different'
      rw [fInt_mul, fInt_mul, natAbs_signed_sub, natAbs_signed_sub, sign, units, if_pos rfl] at tie
      have isEven : n % 2 = 0 := by
        by_cases sameSign : fSign v = negative
        · rw [if_pos sameSign] at tie
          rw [sameSign] at different'
          exact rounds.even_of_tie v (fun same => different' (by rw [same])) tie
        · rw [if_neg sameSign] at tie
          have otherZero : q * fUnits v = 0 := by omega
          refine rounds.even_of_tie v (fun same => different' ?_) ?_
          · rw [← same, otherZero]
            split <;> split <;> rfl
          · rw [otherZero]
            omega
      exact even.trans (decide_eq_false (by omega))
    · exact absurd (magnitude ▸ overflow) (Nat.not_le.mpr small)
  · refine ⟨fun small => ?_, fun small => ?_, fun small => ?_, fun _ => ?_⟩
    iterate 3 exact absurd (magnitude ▸ small) (Nat.not_lt.mpr overflow)
    have pPos : 0 < p := lt_of_lt_of_le (Nat.mul_pos (by decide +kernel) positive) overflow
    rw [fRound_of_overflow positive overflow]
    cases negative
    · rw [if_neg Bool.false_ne_true, if_neg (by omega)]
      rfl
    · rw [if_pos rfl, if_pos (by omega)]
      rfl

end Sys2Proof.Machine
end

