-- ==== Sys2Proof/Proofs/Operations.lean ====
section
/-! PROOFS. The operations on finite values (41_transform.md R65): each is one rounding of its exact result in units. -/

namespace Sys2Proof.Machine

open Claims

/-! ### Exact zeros, signs and scales -/

theorem overflowUnits_pos : 0 < overflowUnits := by decide +kernel

theorem unitsOfOne_eq : unitsOfOne = 2 ^ 1074 := by decide +kernel

theorem unitsOfOne_pos : 0 < unitsOfOne := by decide +kernel

theorem fInt_fZero (negative : Bool) : fInt (fZero negative) = 0 := by revert negative; decide

/-- A zero of either sign is the exact zero rounded. -/
theorem fZero_isRounded (negative : Bool) {q : Nat} (positive : 0 < q) : IsRounded (fZero negative) 0 q where
  finite _ := by revert negative; decide
  nearest _ v _ := by simp [fInt_fZero]
  even _ _ _ _ _ := by clear * -; revert negative; decide
  overflow large := absurd large (Nat.not_le.mpr (Nat.mul_pos overflowUnits_pos positive))

/-- A product of signed values is the product of the units, with the sign that `fmul` gives. -/
theorem fInt_mul_fInt (x y : F64) :
    fInt x * fInt y = if fSign x != fSign y then -((fUnits x * fUnits y : Nat) : Int) else (fUnits x * fUnits y : Nat) := by
  unfold fInt
  cases fSign x <;> cases fSign y <;> simp

/-- Rounding depends on the fraction alone. -/
theorem fRound_mul_right (negative : Bool) (p q : Nat) {k : Nat} (positive : 0 < k) :
    fRound negative (p * k) (q * k) = fRound negative p q := by
  have step (s : Nat) : q * k * 2 ^ s = q * 2 ^ s * k := by ring
  have twice (rest : Nat) : 2 * (rest * k) = 2 * rest * k := by ring
  simp only [fRound, Nat.mul_div_mul_right _ _ positive, step, Nat.mul_mod_mul_right, twice, Nat.mul_lt_mul_right positive,
    Nat.mul_left_inj positive.ne']

/-! ### The four operations -/

section
variable {x y : F64} (finiteX : fIsFinite x = true)
include finiteX

section
variable (finiteY : fIsFinite y = true)
include finiteY

/-- A sum of finite values: the exact sum rounded, or a zero. -/
theorem fAddOr_of_finite (nan : F64) :
    fAddOr nan x y = if fInt x + fInt y = 0 then fZero (fSign x && fSign y)
      else fRound (decide (fInt x + fInt y < 0)) (fInt x + fInt y).natAbs 1 := by
  simp [fAddOr, not_nan_of_finite finiteX, not_nan_of_finite finiteY, not_inf_of_finite finiteX, not_inf_of_finite finiteY]

theorem fAddOr_isRounded (nan : F64) : IsRounded (fAddOr nan x y) (fInt x + fInt y) 1 := by
  rw [fAddOr_of_finite finiteX finiteY]
  split
  case isTrue zero => rw [zero]; exact fZero_isRounded _ Nat.one_pos
  case isFalse nonzero =>
    have rounded := fRound_isRounded (p := (fInt x + fInt y).natAbs) Nat.one_pos (decide (fInt x + fInt y < 0))
    have signed : (if decide (fInt x + fInt y < 0) = true then -((fInt x + fInt y).natAbs : Int) else (fInt x + fInt y).natAbs) =
        fInt x + fInt y := by
      simp only [decide_eq_true_eq]
      split <;> omega
    rwa [signed] at rounded

theorem fadd_isRounded : IsRounded (fadd x y) (fInt x + fInt y) 1 := fAddOr_isRounded finiteX finiteY _

theorem fsub_isRounded : IsRounded (fsub x y) (fInt x - fInt y) 1 := by
  have rounded := fAddOr_isRounded finiteX ((fIsFinite_fneg y).trans finiteY) (freeNaN .sub x y)
  rwa [fInt_fneg, ← sub_eq_add_neg] at rounded

theorem fmul_of_finite : fmul x y = fRound (fSign x != fSign y) (fUnits x * fUnits y) unitsOfOne := by
  simp [fmul, not_nan_of_finite finiteX, not_nan_of_finite finiteY, not_inf_of_finite finiteX, not_inf_of_finite finiteY]

theorem fmul_isRounded : IsRounded (fmul x y) (fInt x * fInt y) (2 ^ 1074) := by
  rw [fmul_of_finite finiteX finiteY, fInt_mul_fInt, ← unitsOfOne_eq]
  exact fRound_isRounded unitsOfOne_pos _

end

theorem fdiv_sixtyFour_of_finite : fdiv x sixtyFour = fRound (fSign x) (fUnits x) 64 := by
  have units : fUnits sixtyFour = 64 * unitsOfOne := by decide +kernel
  have sign : (fSign x != fSign sixtyFour) = fSign x := by rw [show fSign sixtyFour = false from rfl, Bool.bne_false]
  have divided : fdiv x sixtyFour = fRound (fSign x != fSign sixtyFour) (fUnits x * unitsOfOne) (fUnits sixtyFour) := by
    simp [fdiv, not_nan_of_finite finiteX, not_inf_of_finite finiteX, show fIsNaN sixtyFour = false from rfl,
      show fIsInf sixtyFour = false from rfl, show fIsZero sixtyFour = false from rfl]
  rw [divided, sign, units, fRound_mul_right _ _ _ unitsOfOne_pos]

theorem fdiv_sixtyFour_isRounded : IsRounded (fdiv x sixtyFour) (fInt x) 64 := by
  rw [fdiv_sixtyFour_of_finite finiteX]
  exact fRound_isRounded (by decide) (fSign x)

end

/-- Settles O22: the four operations one by one. -/
theorem operationsAreCorrectlyRounded : Obligations.OperationsAreCorrectlyRounded := fun _ _ finiteX finiteY =>
  ⟨fadd_isRounded finiteX finiteY, fsub_isRounded finiteX finiteY, fmul_isRounded finiteX finiteY, fdiv_sixtyFour_isRounded finiteX⟩

end Sys2Proof.Machine
end

