-- ==== Sys2Proof/Proofs/Classes.lean ====
section
/-! PROOFS. What the operations do to the classes of values: a NaN operand gives a NaN, zeros give zeros, and adding a zero keeps
every value numerically (00_scope.md R9, 41_transform.md R65, 47 R178). -/

namespace Sys2Proof.Machine

/-! ### Exact rounding -/

theorem fUnits_lt_of_finite {x : F64} (finite : fIsFinite x = true) : fUnits x < Claims.overflowUnits := by
  obtain ⟨s, n, small, scaled, fits, word, units⟩ := exists_scaled x
  rw [word, fIsFinite_fOfBits _ fits, decide_eq_true_eq, fInfBits] at finite
  have binade : s ≤ 2045 := by
    by_contra above
    have leading : 2 ^ 52 ≤ n := scaled.resolve_left (by omega)
    omega
  rw [units]
  calc n * 2 ^ s ≤ (2 ^ 53 - 1) * 2 ^ 2045 := Nat.mul_le_mul (by omega) (Nat.pow_le_pow_right (by decide) binade)
    _ < Claims.overflowUnits := by decide +kernel

/-- A finite value is its own rounding. -/
theorem fRound_fUnits {x : F64} (finite : fIsFinite x = true) : fRound (fSign x) (fUnits x) 1 = x := by
  have small : fUnits x < Claims.overflowUnits * 1 := by
    rw [Nat.mul_one]
    exact fUnits_lt_of_finite finite
  obtain ⟨s, low, n, rounds, result⟩ := fRound_of_not_overflow Nat.one_pos small
  obtain ⟨-, sign, units, -⟩ := result (fSign x)
  have exact := rounds.natAbs_le x
  exact eq_of_fUnits_eq sign (by omega)

theorem fRound_zero (negative : Bool) (q : Nat) : fRound negative 0 q = fZero negative := by
  simp [fRound, fZero, fInfBits]

/-! ### NaNs -/

theorem freeNaN_nan (op : FOp) (x y : F64) : fIsNaN (freeNaN op x y) = true := nanBits_nan _

section
variable {nan x y : F64}

theorem fAddOr_of_nan (operand : fIsNaN x = true ∨ fIsNaN y = true) : fAddOr nan x y = nan := by
  rw [fAddOr, if_pos ((Bool.or_eq_true _ _).mpr operand)]

theorem fadd_nan (operand : fIsNaN x = true ∨ fIsNaN y = true) : fIsNaN (fadd x y) = true := by
  rw [fadd, fAddOr_of_nan operand]
  exact freeNaN_nan _ _ _

theorem fsub_nan (operand : fIsNaN x = true ∨ fIsNaN y = true) : fIsNaN (fsub x y) = true := by
  rw [fsub, fAddOr_of_nan (by rwa [fIsNaN_fneg])]
  exact freeNaN_nan _ _ _

theorem fmul_nan (operand : fIsNaN x = true ∨ fIsNaN y = true) : fIsNaN (fmul x y) = true := by
  simp only [fmul, if_pos ((Bool.or_eq_true _ _).mpr operand)]
  exact freeNaN_nan _ _ _

theorem fdiv_nan (operand : fIsNaN x = true) : fIsNaN (fdiv x y) = true := by
  simp only [fdiv, operand, Bool.true_or, if_true]
  exact freeNaN_nan _ _ _

end

/-! ### Zeros -/

section
variable {x y : F64}

theorem fZero_zero (negative : Bool) : fIsZero (fZero negative) = true := by revert negative; decide

theorem fUnits_eq_zero_iff : fUnits x = 0 ↔ fIsZero x = true := by
  rw [fIsZero, Bool.and_eq_true, beq_iff_eq, beq_iff_eq, fUnits]
  split
  case isTrue subnormal => simp [subnormal]
  case isFalse normal => simp [normal]

theorem fInt_eq_zero_iff : fInt x = 0 ↔ fIsZero x = true := by
  rw [← fUnits_eq_zero_iff, ← natAbs_fInt, Int.natAbs_eq_zero]

theorem finite_of_zero (zero : fIsZero x = true) : fIsFinite x = true := by
  obtain ⟨exponent, -⟩ := (Bool.and_eq_true _ _).mp zero
  simp [fIsFinite, eq_of_beq exponent]

/-- There are two zeros. -/
theorem eq_of_zero (zero : fIsZero x = true) : x = fZero (fSign x) := by
  refine eq_of_fUnits_eq (by cases fSign x <;> rfl) ?_
  rw [fUnits_eq_zero_iff.mpr zero, fUnits_eq_zero_iff.mpr (fZero_zero _)]

theorem fAddOr_zeros (nan : F64) (zeroX : fIsZero x = true) (zeroY : fIsZero y = true) : fIsZero (fAddOr nan x y) = true := by
  rw [fAddOr_of_finite (finite_of_zero zeroX) (finite_of_zero zeroY), fInt_eq_zero_iff.mpr zeroX, fInt_eq_zero_iff.mpr zeroY,
    if_pos (Int.add_zero 0)]
  exact fZero_zero _

theorem fsub_zeros (zeroX : fIsZero x = true) (zeroY : fIsZero y = true) : fIsZero (fsub x y) = true :=
  fAddOr_zeros _ zeroX ((fIsZero_fneg y).trans zeroY)

theorem fmul_zero (finite : fIsFinite x = true) (zero : fIsZero y = true) : fIsZero (fmul x y) = true := by
  rw [fmul_of_finite finite (finite_of_zero zero), fUnits_eq_zero_iff.mpr zero, Nat.mul_zero, fRound_zero]
  exact fZero_zero _

theorem fdiv_zero (zero : fIsZero x = true) : fIsZero (fdiv x sixtyFour) = true := by
  rw [fdiv_sixtyFour_of_finite (finite_of_zero zero), fUnits_eq_zero_iff.mpr zero, fRound_zero]
  exact fZero_zero _

/-! ### Adding a zero -/

/-- A nonzero finite value and a zero add up to the value. -/
theorem fAddOr_zero_of_finite (nan : F64) (finite : fIsFinite x = true) (nonzero : fIsZero x = false) (zero : fIsZero y = true) :
    fAddOr nan x y = x := by
  have different : fInt x ≠ 0 := mt fInt_eq_zero_iff.mp (by simp [nonzero])
  have sign : decide (fInt x < 0) = fSign x := by
    unfold fInt at different ⊢
    cases fSign x
    · exact decide_eq_false (by simp only [Bool.false_eq_true, if_false]; omega)
    · exact decide_eq_true (by simp only [if_true] at different ⊢; omega)
  rw [fAddOr_of_finite finite (finite_of_zero zero), fInt_eq_zero_iff.mpr zero, Int.add_zero, if_neg different, sign, natAbs_fInt,
    fRound_fUnits finite]

theorem fAddOr_zero_of_inf (nan : F64) (infinite : fIsInf x = true) (zero : fIsZero y = true) : fAddOr nan x y = x := by
  have finite := finite_of_zero zero
  simp [fAddOr, infinite, not_nan_of_inf infinite, not_nan_of_finite finite, not_inf_of_finite finite]

theorem nan_or_inf_or_finite (x : F64) : fIsNaN x = true ∨ fIsInf x = true ∨ fIsFinite x = true := by
  by_cases special : fExp x = 0x7FF
  · by_cases frac : fFrac x = 0
    · exact .inr (.inl (by simp [fIsInf, special, frac]))
    · exact .inl (by simp [fIsNaN, special, frac])
  · exact .inr (.inr (by simp [fIsFinite, special]))

/-- Adding a zero keeps every value numerically, and every NaN a NaN. -/
theorem fSame_fAddOr_zero {nan : F64} (isNaN : fIsNaN nan = true) (zero : fIsZero y = true) : fSame (fAddOr nan x y) x = true := by
  obtain isNaN' | infinite | finite := nan_or_inf_or_finite x
  · simp [fSame, fAddOr_of_nan (.inl isNaN'), isNaN, isNaN']
  · simp [fSame, fAddOr_zero_of_inf nan infinite zero]
  · cases zeroX : fIsZero x with
    | true => simp [fSame, fAddOr_zeros nan zeroX zero, zeroX]
    | false => simp [fSame, fAddOr_zero_of_finite nan finite zeroX zero]

/-- Adding positive zero turns the negative zero and keeps every other word that is no NaN. -/
theorem fadd_posZero (notNaN : fIsNaN x = false) : fadd x 0 = if x = 0x8000000000000000 then 0 else x := by
  split
  case isTrue negativeZero => subst negativeZero; decide +kernel
  case isFalse other =>
    obtain isNaN | infinite | finite := nan_or_inf_or_finite x
    · exact absurd (isNaN.symm.trans notNaN) (by decide)
    · exact fAddOr_zero_of_inf _ infinite rfl
    · cases zero : fIsZero x with
      | false => exact fAddOr_zero_of_finite _ finite zero rfl
      | true =>
        have word := eq_of_zero zero
        cases sign : fSign x with
        | false => rw [word, sign]; decide +kernel
        | true => rw [sign] at word; exact absurd word other

end

end Sys2Proof.Machine
end

