-- ==== Sys2Proof/Proofs/SpecialInputs.lean ====
section
/-! PROOFS. The transforms on inputs with a NaN (41_transform.md R74), of zeros (R76 (a)) and on the multiples of 8 alone (R76 (e)),
and `NOISE` of zero variance (44_noise_adder.md R95). -/

namespace Sys2Proof.Machine

open Claims

/-! ### NaNs reach every output -/

section
variable {e o w : Sample}

theorem hasNaN_iff (x : Sample) : hasNaN x = true ↔ fIsNaN x.re = true ∨ fIsNaN x.im = true := by
  rw [hasNaN, Bool.or_eq_true]

/-- Both components of a product take part in both components of its operands. -/
theorem cmul_nan (operand : hasNaN o = true) : fIsNaN (cmul w o).re = true ∧ fIsNaN (cmul w o).im = true := by
  obtain re | im := (hasNaN_iff o).mp operand
  · exact ⟨fsub_nan (.inl (fmul_nan (.inr re))), fadd_nan (.inr (fmul_nan (.inr re)))⟩
  · exact ⟨fsub_nan (.inr (fmul_nan (.inr im))), fadd_nan (.inl (fmul_nan (.inr im)))⟩

theorem butterfly_nan (operand : hasNaN e = true ∨ hasNaN o = true) :
    hasNaN (butterfly e o w).1 = true ∧ hasNaN (butterfly e o w).2 = true := by
  simp only [hasNaN_iff, butterfly, cadd, csub]
  obtain even | odd := operand
  · obtain re | im := (hasNaN_iff e).mp even
    · exact ⟨.inl (fadd_nan (.inl re)), .inl (fsub_nan (.inl re))⟩
    · exact ⟨.inr (fadd_nan (.inl im)), .inr (fsub_nan (.inl im))⟩
  · obtain ⟨re, -⟩ := cmul_nan (w := w) odd
    exact ⟨.inl (fadd_nan (.inr re)), .inl (fsub_nan (.inr re))⟩

theorem hasNaN_conj (x : Sample) : hasNaN (conj x) = hasNaN x := by rw [hasNaN, hasNaN, conj, fIsNaN_fneg]

theorem hasNaN_cdiv64 {x : Sample} (operand : hasNaN x = true) : hasNaN (cdiv64 x) = true :=
  (hasNaN_iff _).mpr (((hasNaN_iff x).mp operand).imp fdiv_nan fdiv_nan)

end

/-- A NaN stands in one of the halves, so that all outputs of that half have one. -/
theorem fftN_nan {n : Nat} {x : List Sample} (size : x.length = 2 ^ n) (input : ∃ a ∈ x, hasNaN a = true) :
    ∀ b ∈ fftN n x, hasNaN b = true := by
  induction n generalizing x with
  | zero =>
    obtain ⟨a, rfl⟩ := List.length_eq_one_iff.mp size
    obtain ⟨_, single, nan⟩ := input
    obtain rfl := List.mem_singleton.mp single
    exact fun b single' => List.mem_singleton.mp single' ▸ nan
  | succ n ih =>
    intro c output
    obtain ⟨k, a, even, b, odd, -, result⟩ := mem_combine output
    obtain ⟨v, inInput, nan⟩ := input
    have operand : hasNaN a = true ∨ hasNaN b = true :=
      (mem_evens_or_odds inInput).imp (fun inEvens => ih (evens_size size) ⟨v, inEvens, nan⟩ a even)
        fun inOdds => ih (odds_size size) ⟨v, inOdds, nan⟩ b odd
    obtain ⟨first, second⟩ := butterfly_nan (w := tw (n + 1) k) operand
    obtain rfl | rfl := result
    · exact first
    · exact second

/-- Settles O29: by the levels of the recursion; conjugating and dividing keep a NaN. -/
theorem naNInputReachesEveryOutput : Obligations.NaNInputReachesEveryOutput := by
  rintro x full ⟨a, inInput, nan⟩
  refine ⟨fftN_nan (n := 6) full ⟨a, inInput, nan⟩, fun b output => ?_⟩
  obtain ⟨b', output', rfl⟩ := List.mem_map.mp output
  obtain ⟨b'', output'', rfl⟩ := List.mem_map.mp output'
  have conjugated : ∃ c ∈ x.map conj, hasNaN c = true := ⟨_, List.mem_map_of_mem inInput, (hasNaN_conj a).trans nan⟩
  have outputNaN := fftN_nan (n := 6) ((List.length_map _).trans full) conjugated b'' output''
  exact hasNaN_cdiv64 ((hasNaN_conj b'').trans outputNaN)

/-! ### Zeros give zeros -/

/-- Both components are zeros, of either sign. -/
def ZeroSample (x : Sample) : Prop := fIsZero x.re = true ∧ fIsZero x.im = true

theorem fSame_iff (x y : F64) :
    fSame x y = true ↔ (fIsNaN x = true ∧ fIsNaN y = true) ∨ (fIsZero x = true ∧ fIsZero y = true) ∨ x = y := by
  simp [fSame, or_assoc]

theorem fSame_zero_iff (x : F64) : fSame x 0 = true ↔ fIsZero x = true := by
  rw [fSame_iff]
  constructor
  · rintro (⟨-, nan⟩ | ⟨zero, -⟩ | rfl)
    · exact absurd nan (by decide)
    · exact zero
    · rfl
  · exact fun zero => .inr (.inl ⟨zero, rfl⟩)

theorem sampleSame_zero_iff (x : Sample) : sampleSame x zeroSample = true ↔ ZeroSample x := by
  rw [sampleSame, Bool.and_eq_true]
  exact and_congr (fSame_zero_iff x.re) (fSame_zero_iff x.im)

theorem twiddleRom_finite : ∀ T ∈ twiddleRom, finiteSample T = true := by decide

/-- Every factor the butterfly can be given is finite. -/
theorem tw_finite (level k : Nat) : fIsFinite (tw level k).re = true ∧ fIsFinite (tw level k).im = true := by
  rw [← Bool.and_eq_true, tw, List.getD_eq_getElem?_getD]
  cases entry : twiddleRom[k * (Config.fftSize / 2 ^ level)]? with
  | none => rfl
  | some T => exact twiddleRom_finite T (List.mem_of_getElem? entry)

section
variable {e o w : Sample}

theorem cmul_zero (finite : fIsFinite w.re = true ∧ fIsFinite w.im = true) (zero : ZeroSample o) : ZeroSample (cmul w o) := by
  obtain ⟨re, im⟩ := zero
  exact ⟨fsub_zeros (fmul_zero finite.1 re) (fmul_zero finite.2 im), fAddOr_zeros _ (fmul_zero finite.1 im) (fmul_zero finite.2 re)⟩

theorem butterfly_zeros (finite : fIsFinite w.re = true ∧ fIsFinite w.im = true) (even : ZeroSample e) (odd : ZeroSample o) :
    ZeroSample (butterfly e o w).1 ∧ ZeroSample (butterfly e o w).2 := by
  obtain ⟨re, im⟩ := even
  obtain ⟨re', im'⟩ := cmul_zero finite odd
  exact ⟨⟨fAddOr_zeros _ re re', fAddOr_zeros _ im im'⟩, ⟨fsub_zeros re re', fsub_zeros im im'⟩⟩

theorem zeroSample_conj {x : Sample} (zero : ZeroSample x) : ZeroSample (conj x) := ⟨zero.1, (fIsZero_fneg _).trans zero.2⟩

end

theorem fftN_zeros (n : Nat) {x : List Sample} (input : ∀ a ∈ x, ZeroSample a) : ∀ b ∈ fftN n x, ZeroSample b := by
  induction n generalizing x with
  | zero => exact input
  | succ n ih =>
    intro c output
    obtain ⟨k, a, even, b, odd, -, result⟩ := mem_combine output
    have zeroEven := ih (fun v inEvens => input v (mem_of_mem_evens inEvens)) a even
    have zeroOdd := ih (fun v inOdds => input v (mem_of_mem_odds inOdds)) b odd
    obtain ⟨first, second⟩ := butterfly_zeros (tw_finite (n + 1) k) zeroEven zeroOdd
    obtain rfl | rfl := result
    · exact first
    · exact second

/-- Settles O30: by the levels of the recursion; conjugating and dividing keep a zero. -/
theorem transformOfZerosIsZeros : Obligations.TransformOfZerosIsZeros := by
  intro x _ input
  simp only [sampleSame_zero_iff] at input ⊢
  refine ⟨fftN_zeros 6 input, fun b output => ?_⟩
  obtain ⟨b', output', rfl⟩ := List.mem_map.mp output
  obtain ⟨b'', output'', rfl⟩ := List.mem_map.mp output'
  have conjugated : ∀ c ∈ x.map conj, ZeroSample c := by
    intro c inConjugated
    obtain ⟨a, inInput, rfl⟩ := List.mem_map.mp inConjugated
    exact zeroSample_conj (input a inInput)
  obtain ⟨re, im⟩ := zeroSample_conj (fftN_zeros 6 conjugated b'' output'')
  exact ⟨fdiv_zero re, fdiv_zero im⟩

/-! ### Numeric equality -/

theorem fSame_trans {x y z : F64} (first : fSame x y = true) (second : fSame y z = true) : fSame x z = true := by
  rw [fSame_iff] at *
  have exclusive (v : F64) (nan : fIsNaN v = true) (zero : fIsZero v = true) : False := by
    have := not_nan_of_finite (finite_of_zero zero)
    rw [nan] at this
    cases this
  obtain ⟨nan, nan'⟩ | ⟨zero, zero'⟩ | rfl := first
  · obtain ⟨-, nan''⟩ | ⟨zero, -⟩ | rfl := second
    · exact .inl ⟨nan, nan''⟩
    · exact absurd zero (exclusive y nan')
    · exact .inl ⟨nan, nan'⟩
  · obtain ⟨nan, -⟩ | ⟨-, zero''⟩ | rfl := second
    · exact absurd zero' (exclusive y nan)
    · exact .inr (.inl ⟨zero, zero''⟩)
    · exact .inr (.inl ⟨zero, zero'⟩)
  · exact second

theorem fSame_fneg {x y : F64} (same : fSame x y = true) : fSame (fneg x) (fneg y) = true := by
  rw [fSame_iff] at *
  rw [fIsNaN_fneg, fIsNaN_fneg, fIsZero_fneg, fIsZero_fneg]
  exact same.imp_right (Or.imp_right (congrArg fneg))

theorem fSame_fdiv {x y : F64} (same : fSame x y = true) : fSame (fdiv x sixtyFour) (fdiv y sixtyFour) = true := by
  rw [fSame_iff] at *
  obtain ⟨nan, nan'⟩ | ⟨zero, zero'⟩ | rfl := same
  · exact .inl ⟨fdiv_nan nan, fdiv_nan nan'⟩
  · exact .inr (.inl ⟨fdiv_zero zero, fdiv_zero zero'⟩)
  · exact .inr (.inr rfl)

theorem sampleSame_iff (a b : Sample) : sampleSame a b = true ↔ fSame a.re b.re = true ∧ fSame a.im b.im = true :=
  Bool.and_eq_true_iff

theorem sampleSame_trans {a b c : Sample} (first : sampleSame a b = true) (second : sampleSame b c = true) :
    sampleSame a c = true := by
  rw [sampleSame_iff] at *
  exact ⟨fSame_trans first.1 second.1, fSame_trans first.2 second.2⟩

theorem sampleSame_cdiv64_conj {a b : Sample} (same : sampleSame a b = true) :
    sampleSame (cdiv64 (conj a)) (cdiv64 (conj b)) = true := by
  rw [sampleSame_iff] at *
  exact ⟨fSame_fdiv same.1, fSame_fdiv (fSame_fneg same.2)⟩

/-! ### Sparse inputs -/

/-- With a zero odd operand both results are the even one, numerically. -/
theorem butterfly_zero_odd {e o w : Sample} (finite : fIsFinite w.re = true ∧ fIsFinite w.im = true) (odd : ZeroSample o) :
    sampleSame (butterfly e o w).1 e = true ∧ sampleSame (butterfly e o w).2 e = true := by
  obtain ⟨re, im⟩ := cmul_zero finite odd
  rw [sampleSame_iff, sampleSame_iff]
  exact ⟨⟨fSame_fAddOr_zero (freeNaN_nan _ _ _) re, fSame_fAddOr_zero (freeNaN_nan _ _ _) im⟩,
    ⟨fSame_fAddOr_zero (freeNaN_nan _ _ _) ((fIsZero_fneg _).trans re),
      fSame_fAddOr_zero (freeNaN_nan _ _ _) ((fIsZero_fneg _).trans im)⟩⟩

/-- With zeros on the odd places the transform repeats that of the even places. -/
theorem fftN_of_odds_zero {n : Nat} {x : List Sample} (size : x.length = 2 ^ (n + 1)) (zeros : ∀ a ∈ odds x, ZeroSample a) {j : Nat}
    (inRange : j < 2 ^ (n + 1)) :
    sampleSame ((fftN (n + 1) x).getD j zeroSample) ((fftN n (evens x)).getD (j % 2 ^ n) zeroSample) = true := by
  obtain ⟨k, small, place⟩ := low_or_high inRange
  obtain ⟨a, b, even, odd, low, high⟩ := fftWith_succ_getElem? stepButterfly size small
  have zero : ZeroSample b := fftN_zeros n zeros b (List.mem_of_getElem? odd)
  obtain ⟨first, second⟩ := butterfly_zero_odd (e := a) (tw_finite (n + 1) k) zero
  rw [List.getD_eq_getElem?_getD, List.getD_eq_getElem?_getD, fftN, fftN]
  obtain rfl | rfl := place
  · rwa [Nat.mod_eq_of_lt small, low, even]
  · rwa [Nat.add_mod_left, Nat.mod_eq_of_lt small, high, even]

/-- The elements at the multiples of 8, halving three times. -/
theorem evens_evens_evens {x : List Sample} (full : x.length = 64) : evens (evens (evens x)) = everyEighth x := by
  have size : (evens (evens (evens x))).length = 8 := by rw [evens_length, evens_length, evens_length, full]
  refine List.ext_getElem? fun k => ?_
  by_cases inRange : k < 8
  · rw [evens_getElem?, evens_getElem?, evens_getElem?, everyEighth, List.getElem?_map, List.getElem?_range inRange, Option.map_some,
      List.getD_eq_getElem _ _ (by omega), show 2 * (2 * (2 * k)) = 8 * k by omega, List.getElem?_eq_getElem]
  · rw [List.getElem?_eq_none (by omega), List.getElem?_eq_none (by simp [everyEighth]; omega)]

/-- The odd places of the input and of its first two halvings are off the multiples of 8. -/
theorem odds_zero_of_sparse {x y : List Sample} {stride : Nat} (full : x.length = 64)
    (zeros : ∀ j < 64, j % 8 ≠ 0 → ZeroSample (x.getD j zeroSample)) (short : stride = 1 ∨ stride = 2 ∨ stride = 4)
    (place : ∀ i, (odds y)[i]? = x[stride * (2 * i + 1)]?) : ∀ a ∈ odds y, ZeroSample a := by
  intro a odd
  obtain ⟨i, present⟩ := List.mem_iff_getElem?.mp odd
  rw [place] at present
  have inRange : stride * (2 * i + 1) < 64 := full ▸ (List.getElem?_eq_some_iff.mp present).1
  have off : stride * (2 * i + 1) % 8 ≠ 0 := by obtain rfl | rfl | rfl := short <;> omega
  have zero := zeros _ inRange off
  rwa [List.getD_eq_getElem?_getD, present] at zero

/-- With zeros off the multiples of 8 the transform of 64 repeats that of 8. -/
theorem fft64_sparse {x : List Sample} (full : x.length = 64)
    (zeros : ∀ j < 64, j % 8 ≠ 0 → ZeroSample (x.getD j zeroSample)) {j : Nat} (inRange : j < 64) :
    sampleSame ((fft64 x).getD j zeroSample) ((fftN 3 (everyEighth x)).getD (j % 8) zeroSample) = true := by
  have size6 : x.length = 2 ^ 6 := full
  have size5 : (evens x).length = 2 ^ 5 := evens_size size6
  have size4 : (evens (evens x)).length = 2 ^ 4 := evens_size size5
  have zeros6 := odds_zero_of_sparse full zeros (.inl rfl) (y := x) fun i => by rw [odds_getElem?, Nat.one_mul]
  have zeros5 := odds_zero_of_sparse full zeros (.inr (.inl rfl)) (y := evens x) fun i => by rw [odds_getElem?, evens_getElem?]
  have zeros4 := odds_zero_of_sparse full zeros (.inr (.inr rfl)) (y := evens (evens x)) fun i => by
    rw [odds_getElem?, evens_getElem?, evens_getElem?, ← Nat.mul_assoc]
  have from6 := fftN_of_odds_zero size6 zeros6 inRange
  have from5 := fftN_of_odds_zero size5 zeros5 (Nat.mod_lt j (by decide : 0 < 2 ^ 5))
  have from4 := fftN_of_odds_zero size4 zeros4 (Nat.mod_lt (j % 2 ^ 5) (by decide : 0 < 2 ^ 4))
  rw [evens_evens_evens full, show j % 2 ^ 5 % 2 ^ 4 % 2 ^ 3 = j % 8 by omega] at from4
  exact sampleSame_trans from6 (sampleSame_trans from5 from4)

/-- Settles O35: the forward transform of the Samples and of their conjugates, whose zeros stand at the same places. -/
theorem sparseInputRepeatsWithPeriodEight : Obligations.SparseInputRepeatsWithPeriodEight := by
  intro x full zeros _ j inRange
  simp only [sampleSame_zero_iff] at zeros
  refine ⟨fft64_sparse full zeros inRange, ?_⟩
  have conjugated (i : Nat) (small : i < 64) : (x.map conj).getD i zeroSample = conj (x.getD i zeroSample) := by
    rw [List.getD_eq_getElem _ _ (by simp [full, small]), List.getD_eq_getElem _ _ (by omega), List.getElem_map]
  have zeros' : ∀ i < 64, i % 8 ≠ 0 → ZeroSample ((x.map conj).getD i zeroSample) := fun i small off =>
    conjugated i small ▸ zeroSample_conj (zeros i small off)
  have full' : (x.map conj).length = 64 := (List.length_map _).trans full
  have same := fft64_sparse full' zeros' inRange
  have eighths : everyEighth (x.map conj) = (everyEighth x).map conj := by
    rw [← evens_evens_evens full', ← evens_evens_evens full, evens_map, evens_map, evens_map]
  have inList : j < (fft64 (x.map conj)).length := by rwa [fft64_length full']
  rw [eighths] at same
  rw [List.getD_eq_getElem?_getD (l := ifft64 x), ifft64_getElem?, List.getElem?_eq_getElem inList, Option.map_some, Option.getD_some]
  rw [List.getD_eq_getElem _ _ inList] at same
  exact sampleSame_cdiv64_conj same

/-! ### Noise of zero variance -/

/-- Adding positive zero keeps every value numerically. -/
theorem fSame_fadd_posZero (x : F64) : fSame (fadd x 0) x = true := fSame_fAddOr_zero (freeNaN_nan _ _ _) rfl

/-- Settles O46: every draw is positive zero. -/
theorem noiseOfZeroVarianceKeepsEveryValue : Obligations.NoiseOfZeroVarianceKeepsEveryValue := by
  intro d src s full variance
  have zero : fIsZero s.nvar = true := by obtain h | h := variance <;> rw [h] <;> rfl
  refine ⟨_, exec_noise_of_usable d full (nvarUsable_of_zero zero), ?_⟩
  rw [complete_wave, advanceNoise_wave, setWave_wave, if_pos rfl]
  refine ⟨(applyNoise_length ..).trans full, fun j x y source result => ?_⟩
  rw [applyNoise_getElem?, source, Option.map_some, draw_of_zero zero, draw_of_zero zero, Option.some.injEq] at result
  subst result
  exact ⟨(sampleSame_iff _ _).mpr ⟨fSame_fadd_posZero x.re, fSame_fadd_posZero x.im⟩, fadd_posZero, fadd_posZero⟩

end Sys2Proof.Machine
end

