-- ==== Sys2Proof/Proofs/Vectors.lean ====
section
/-! PROOFS. The test vectors of the transform (95_test_vectors.md T1, T2, T6 to T8, T11 to T13, and the examples of 41_transform.md R72
and R76): statements about fixed words, evaluated in the kernel. The kernel counts the bits of a magnitude one by one, which for
magnitudes of a thousand bits is nearly all of the work; the operations are evaluated in a form that finds the leading bit by halving. -/

namespace Sys2Proof.Machine

/-! ### The leading bit by halving -/

/-- The leading bit of `n`, taking off `2 ^ k` for each `k` of the list where it can. -/
def leadingBit : List Nat → Nat → Nat
  | [], n => n.log2
  | k :: rest, n => if 2 ^ k ≤ n then k + leadingBit rest (n / 2 ^ k) else leadingBit rest n

theorem leadingBit_eq (steps : List Nat) (n : Nat) : leadingBit steps n = n.log2 := by
  induction steps generalizing n with
  | nil => rfl
  | cons k rest ih =>
    rw [leadingBit, ih, ih]
    split
    case isTrue large =>
      have nonzero : n ≠ 0 := (lt_of_lt_of_le (Nat.two_pow_pos k) large).ne'
      have quotient : n / 2 ^ k ≠ 0 := (Nat.div_pos large (Nat.two_pow_pos k)).ne'
      rw [eq_comm, Nat.log2_eq_iff nonzero, Nat.pow_add, Nat.add_assoc, Nat.pow_add, Nat.mul_comm, ← Nat.le_div_iff_mul_le (Nat.two_pow_pos k),
        Nat.mul_comm (2 ^ k), ← Nat.div_lt_iff_lt_mul (Nat.two_pow_pos k), ← Nat.log2_eq_iff quotient]
    case isFalse => rfl

/-- `fRound` with the leading bit found by halving. -/
def fastRound (negative : Bool) (p q : Nat) : F64 :=
  let shift := leadingBit [1024, 512, 256, 128, 64, 32, 16, 8, 4, 2, 1] (p / q) - 52
  let step := q * 2 ^ shift
  let magnitude := shift * 2 ^ 52 + roundedCount p step
  fOfBits negative (if fInfBits ≤ magnitude then fInfBits else magnitude)

theorem fRound_eq_fastRound (negative : Bool) (p q : Nat) : fRound negative p q = fastRound negative p q := by
  rw [fastRound, leadingBit_eq]
  rfl

/-! ### The operations in that form -/

/-- `fAddOr`, evaluated by `fastRound` on finite values. -/
def fastSum (nan x y : F64) : F64 :=
  if fIsFinite x = true ∧ fIsFinite y = true then
    let z := fInt x + fInt y
    if z = 0 then fZero (fSign x && fSign y) else fastRound (decide (z < 0)) z.natAbs 1
  else fAddOr nan x y

theorem fAddOr_eq_fastSum (nan x y : F64) : fAddOr nan x y = fastSum nan x y := by
  unfold fastSum
  split
  case isTrue finite => rw [fAddOr_of_finite finite.1 finite.2, fRound_eq_fastRound]
  case isFalse => rfl

/-- `fmul`, evaluated by `fastRound` on finite values. -/
def fastProduct (x y : F64) : F64 :=
  if fIsFinite x = true ∧ fIsFinite y = true then fastRound (fSign x != fSign y) (fUnits x * fUnits y) unitsOfOne else fmul x y

theorem fmul_eq_fastProduct (x y : F64) : fmul x y = fastProduct x y := by
  unfold fastProduct
  split
  case isTrue finite => rw [fmul_of_finite finite.1 finite.2, fRound_eq_fastRound]
  case isFalse => rfl

/-- The division by 64, evaluated by `fastRound` on finite values. -/
def fastQuotient (x : F64) : F64 := if fIsFinite x = true then fastRound (fSign x) (fUnits x) 64 else fdiv x sixtyFour

theorem fdiv_eq_fastQuotient (x : F64) : fdiv x sixtyFour = fastQuotient x := by
  unfold fastQuotient
  split
  case isTrue finite => rw [fdiv_sixtyFour_of_finite finite, fRound_eq_fastRound]
  case isFalse => rfl

/-- `cmul` in that form. -/
def fastCmul (p q : Sample) : Sample :=
  ⟨fastSum (freeNaN .sub (fastProduct p.re q.re) (fastProduct p.im q.im)) (fastProduct p.re q.re) (fneg (fastProduct p.im q.im)),
    fastSum (freeNaN .add (fastProduct p.re q.im) (fastProduct p.im q.re)) (fastProduct p.re q.im) (fastProduct p.im q.re)⟩

theorem cmul_eq_fastCmul (p q : Sample) : cmul p q = fastCmul p q := by
  simp only [cmul, fastCmul, fadd, fsub, fAddOr_eq_fastSum, fmul_eq_fastProduct]

/-- `cadd` in that form. -/
def fastCadd (p q : Sample) : Sample := ⟨fastSum (freeNaN .add p.re q.re) p.re q.re, fastSum (freeNaN .add p.im q.im) p.im q.im⟩

theorem cadd_eq_fastCadd (p q : Sample) : cadd p q = fastCadd p q := by simp only [cadd, fastCadd, fadd, fAddOr_eq_fastSum]

/-- `csub` in that form. -/
def fastCsub (p q : Sample) : Sample :=
  ⟨fastSum (freeNaN .sub p.re q.re) p.re (fneg q.re), fastSum (freeNaN .sub p.im q.im) p.im (fneg q.im)⟩

theorem csub_eq_fastCsub (p q : Sample) : csub p q = fastCsub p q := by simp only [csub, fastCsub, fsub, fAddOr_eq_fastSum]

/-- `butterfly` in that form. -/
def fastButterfly (e o w : Sample) : Sample × Sample := (fastCadd e (fastCmul w o), fastCsub e (fastCmul w o))

theorem butterfly_eq_fastButterfly (e o w : Sample) : butterfly e o w = fastButterfly e o w := by
  rw [butterfly, fastButterfly, cmul_eq_fastCmul, cadd_eq_fastCadd, csub_eq_fastCsub]

/-! ### The transforms in that form -/

/-- The transform in that form. -/
def fastFft (level : Nat) (x : List Sample) : List Sample := fftWith (fun n k e o => fastButterfly e o (tw n k)) level x

theorem fftN_eq_fastFft (level : Nat) (x : List Sample) : fftN level x = fastFft level x := by
  rw [fftN, fastFft]
  congr
  funext n k e o
  exact butterfly_eq_fastButterfly e o (tw n k)

theorem fft64_eq_fastFft (x : List Sample) : fft64 x = fastFft 6 x := fftN_eq_fastFft 6 x

/-- The inverse transform in that form. -/
def fastInverse (x : List Sample) : List Sample :=
  (fastFft 6 (x.map conj)).map fun b => ⟨fastQuotient b.re, fastQuotient (fneg b.im)⟩

theorem ifft64_eq_fastInverse (x : List Sample) : ifft64 x = fastInverse x := by
  rw [ifft64, List.map_map, fft64_eq_fastFft, fastInverse]
  exact List.map_congr_left fun b _ => by
    rw [Function.comp_apply, conj, cdiv64, fdiv_eq_fastQuotient, fdiv_eq_fastQuotient]

/-! ### The vectors -/

/-- Settles O32: the impulse at index 1, forward and inverse. -/
theorem impulseAtOneGivesTheTwiddles : Obligations.ImpulseAtOneGivesTheTwiddles := by
  unfold Obligations.ImpulseAtOneGivesTheTwiddles Claims.Lists
  rw [fft64_eq_fastFft, ifft64_eq_fastInverse]
  refine ⟨?_, ?_, ?_⟩
  · decide +kernel
  · decide +kernel
  · decide +kernel

/-- Settles O33: the single product and butterfly and the two-point transform, then the transforms of 64 Samples. -/
theorem complexVectorsTransformAsListed : Obligations.ComplexVectorsTransformAsListed := by
  unfold Obligations.ComplexVectorsTransformAsListed Claims.Lists
  rw [cmul_eq_fastCmul, butterfly_eq_fastButterfly, fftN_eq_fastFft, fft64_eq_fastFft, fft64_eq_fastFft,
    ifft64_eq_fastInverse]
  refine ⟨by decide +kernel, by decide +kernel, by decide +kernel, ?_, ?_, ?_⟩
  · decide +kernel
  · decide +kernel
  · decide +kernel

/-- Settles O34: the impulse at index 0, the constant Samples both ways, and the powers of `i`. -/
theorem impulseAtZeroAndOnesTransform : Obligations.ImpulseAtZeroAndOnesTransform := by
  unfold Obligations.ImpulseAtZeroAndOnesTransform
  rw [fft64_eq_fastFft, fft64_eq_fastFft, fft64_eq_fastFft, ifft64_eq_fastInverse]
  refine ⟨?_, ?_, ?_, ?_⟩
  · decide +kernel
  · decide +kernel
  · decide +kernel
  · decide +kernel

end Sys2Proof.Machine
end

