-- ==== Sys2Proof/Proofs/RealValues.lean ====
section
/-! PROOFS. The operations as operations on real numbers: each gives a value within a relative and an absolute bound of the exact
result, and the exact result where that is a value. -/

namespace Sys2Proof.Machine

open Claims

/-! ### Rounding as an approximation -/

/-- The relative error of one rounding, 2^-53. -/
noncomputable def roundoff : ℝ := 1 / 2 ^ 53

/-- The absolute error of one rounding, half a unit, which counts below the normal values. -/
noncomputable def halfUnit : ℝ := 1 / 2 ^ 1075

/-- Results up to 2^1023 stay below the threshold of overflow. -/
noncomputable def safeRange : ℝ := 2 ^ 1023

/-- `r` stands for the real number `x` rounded once: exact where `x` is a value, and otherwise close to it. -/
structure RoundsTo (r : F64) (x : ℝ) : Prop where
  exact : ∀ v : F64, fIsFinite v = true → valueOf v = x → fIsFinite r = true ∧ valueOf r = x
  close : |x| ≤ safeRange → fIsFinite r = true ∧ |valueOf r - x| ≤ roundoff * |x| + halfUnit

section
variable {r : F64} {num : Int} {den : Nat} (positive : 0 < den)
include positive

theorem natAbs_lt_of_abs_le (bounded : |(num : ℝ) / den / 2 ^ 1074| ≤ safeRange) : num.natAbs < overflowUnits * den := by
  have denPos : (0 : ℝ) < den := Nat.cast_pos.mpr positive
  have unitPos : (0 : ℝ) < 2 ^ 1074 := by positivity
  rw [safeRange, abs_div, abs_div, abs_of_pos denPos, abs_of_pos unitPos, div_le_iff₀ unitPos, div_le_iff₀ denPos, ← Int.cast_abs,
    ← Nat.cast_natAbs] at bounded
  have bounded' : num.natAbs ≤ 2 ^ 1023 * 2 ^ 1074 * den := by exact_mod_cast bounded
  calc num.natAbs ≤ 2 ^ 1023 * 2 ^ 1074 * den := bounded'
    _ < overflowUnits * den := Nat.mul_lt_mul_of_pos_right (by decide +kernel) positive

variable (rounded : IsRounded r num den)
include rounded

/-- A value equal to the exact result is the result. -/
theorem isRounded_exact {v : F64} (finite : fIsFinite v = true) (exact : fInt v * den = num) :
    fIsFinite r = true ∧ fInt r * den = num := by
  have magnitude : num.natAbs = fUnits v * den := by rw [← exact, Int.natAbs_mul, natAbs_fInt, Int.natAbs_natCast]
  have small : num.natAbs < overflowUnits * den := by
    rw [magnitude]
    exact Nat.mul_lt_mul_of_pos_right (fUnits_lt_of_finite finite) positive
  have nearest := rounded.nearest small v finite
  exact ⟨rounded.finite small, by omega⟩

/-- The result is as near as the rounding of the magnitude, whose error is known. -/
theorem isRounded_error (small : num.natAbs < overflowUnits * den) :
    2 ^ 53 * (fInt r * den - num).natAbs ≤ num.natAbs + 2 ^ 52 * den := by
  obtain ⟨s, low, n, rounds, result⟩ := fRound_of_not_overflow positive small
  obtain ⟨finite, sign, units, -⟩ := result (decide (num < 0))
  have nearest := rounded.nearest small _ finite
  have error := rounds.error_le
  rw [fInt_mul (fRound _ _ _), sign, units] at nearest
  generalize den * (n * 2 ^ s) = result at *
  by_cases negative : num < 0
  · rw [decide_eq_true negative, if_pos rfl] at nearest
    omega
  · rw [decide_eq_false negative, if_neg Bool.false_ne_true] at nearest
    omega

theorem roundsTo_of_isRounded : RoundsTo r (num / den / 2 ^ 1074) := by
  have denPos : (0 : ℝ) < den := Nat.cast_pos.mpr positive
  have unitPos : (0 : ℝ) < 2 ^ 1074 := by positivity
  refine ⟨fun v finite value => ?_, fun bounded => ?_⟩
  · have exact : fInt v * den = num := by
      rw [valueOf, div_left_inj' unitPos.ne', eq_div_iff denPos.ne'] at value
      exact_mod_cast value
    obtain ⟨finite', same⟩ := isRounded_exact positive rounded finite exact
    refine ⟨finite', ?_⟩
    rw [valueOf, div_left_inj' unitPos.ne', eq_div_iff denPos.ne']
    exact_mod_cast same
  · have small := natAbs_lt_of_abs_le positive bounded
    refine ⟨rounded.finite small, ?_⟩
    have error : (2 : ℝ) ^ 53 * |(fInt r : ℝ) * den - num| ≤ |(num : ℝ)| + 2 ^ 52 * den := by
      have nat := isRounded_error positive rounded small
      have cast : ((2 ^ 53 * (fInt r * den - num).natAbs : ℕ) : ℝ) ≤ ((num.natAbs + 2 ^ 52 * den : ℕ) : ℝ) := Nat.cast_le.mpr nat
      norm_num [Nat.cast_natAbs] at cast ⊢
      exact cast
    have difference : valueOf r - num / den / 2 ^ 1074 = ((fInt r : ℝ) * den - num) / (den * 2 ^ 1074) := by
      rw [valueOf]
      field_simp
    rw [difference, abs_div, abs_div, abs_div, abs_mul, abs_of_pos denPos, abs_of_pos unitPos, roundoff, halfUnit,
      div_le_iff₀ (mul_pos denPos unitPos), show (2 : ℝ) ^ 1075 = 2 * 2 ^ 1074 from pow_succ' 2 1074]
    generalize (2 : ℝ) ^ 1074 = unit at *
    have scaled : (1 / 2 ^ 53 * (|(num : ℝ)| / den / unit) + 1 / (2 * unit)) * (den * unit) = (|(num : ℝ)| + 2 ^ 52 * den) / 2 ^ 53 := by
      field_simp
    rw [scaled, le_div_iff₀ (by positivity), mul_comm]
    exact error

end

/-! ### The four operations -/

section
variable {x y : F64} (finiteX : fIsFinite x = true)
include finiteX

theorem fdiv_roundsTo : RoundsTo (fdiv x sixtyFour) (valueOf x / 64) := by
  have rounded := roundsTo_of_isRounded (by decide) (fdiv_sixtyFour_isRounded finiteX)
  rwa [Nat.cast_ofNat, div_right_comm] at rounded

variable (finiteY : fIsFinite y = true)
include finiteY

theorem fadd_roundsTo : RoundsTo (fadd x y) (valueOf x + valueOf y) := by
  have rounded := roundsTo_of_isRounded Nat.one_pos (fadd_isRounded finiteX finiteY)
  rwa [Nat.cast_one, div_one, Int.cast_add, add_div] at rounded

theorem fsub_roundsTo : RoundsTo (fsub x y) (valueOf x - valueOf y) := by
  have rounded := roundsTo_of_isRounded Nat.one_pos (fsub_isRounded finiteX finiteY)
  rwa [Nat.cast_one, div_one, Int.cast_sub, sub_div] at rounded

theorem fmul_roundsTo : RoundsTo (fmul x y) (valueOf x * valueOf y) := by
  have rounded := roundsTo_of_isRounded (unitsOfOne_eq ▸ unitsOfOne_pos) (fmul_isRounded finiteX finiteY)
  rwa [Nat.cast_pow, Nat.cast_ofNat, Int.cast_mul, div_div, ← div_mul_div_comm] at rounded

end

/-! ### Signs -/

theorem valueOf_fneg (x : F64) : valueOf (fneg x) = -valueOf x := by rw [valueOf, valueOf, fInt_fneg, Int.cast_neg, neg_div]

/-! ### Values that are there -/

/-- Shifting a number of at most 53 bits up to its leading bit. -/
theorem exists_shift {m : Nat} (positive : 0 < m) (bits : m ≤ 2 ^ 53) : ∃ t ≤ 52, 2 ^ 52 ≤ m * 2 ^ t ∧ m * 2 ^ t ≤ 2 ^ 53 := by
  have upper : m < 2 ^ (m.log2 + 1) := Nat.lt_log2_self
  have lower : 2 ^ m.log2 ≤ m := Nat.log2_self_le positive.ne'
  by_cases leading : 52 ≤ m.log2
  · exact ⟨0, by decide, by simpa using le_trans (Nat.pow_le_pow_right Nat.two_pos leading) lower, by simpa using bits⟩
  · obtain ⟨t, shift⟩ : ∃ t, m.log2 + t = 52 := ⟨52 - m.log2, by omega⟩
    refine ⟨t, by omega, ?_, ?_⟩
    · rw [← shift, Nat.pow_add]
      exact Nat.mul_le_mul_right _ lower
    · calc m * 2 ^ t ≤ 2 ^ (m.log2 + 1) * 2 ^ t := Nat.mul_le_mul_right _ upper.le
        _ = 2 ^ 53 := by rw [← Nat.pow_add, Nat.add_right_comm, shift]

/-- A whole number of at most 53 bits at any binade is a value. -/
theorem exists_fInt_eq (a : ℤ) {k : Nat} (bits : a.natAbs ≤ 2 ^ 53) (fromBit : 52 ≤ k) (toBit : k ≤ 2000) :
    ∃ v : F64, fIsFinite v = true ∧ fInt v = a * 2 ^ k := by
  by_cases zero : a = 0
  · exact ⟨0, rfl, by rw [zero, Int.zero_mul]; rfl⟩
  · obtain ⟨t, small, leading, carried⟩ := exists_shift (Int.natAbs_pos.mpr zero) bits
    obtain ⟨s, rfl⟩ := Nat.exists_eq_add_of_le (show t ≤ k by omega)
    have finite : s * 2 ^ 52 + a.natAbs * 2 ^ t < fInfBits := by unfold fInfBits; omega
    have fits : s * 2 ^ 52 + a.natAbs * 2 ^ t < 2 ^ 63 := by unfold fInfBits at finite; omega
    refine ⟨fOfBits (decide (a < 0)) (s * 2 ^ 52 + a.natAbs * 2 ^ t), ?_, ?_⟩
    · rw [fIsFinite_fOfBits _ fits, decide_eq_true finite]
    · rw [fInt, fSign_fOfBits _ fits, fUnits_fOfBits _ (.inr leading) carried fits, Nat.mul_assoc, ← Nat.pow_add]
      push_cast
      split
      case isTrue negative => rw [← neg_mul, ← abs_neg, abs_of_nonneg (by simp at negative; omega), neg_neg]
      case isFalse positive => rw [abs_of_nonneg (by simp at positive; exact positive)]

theorem valueOf_of_fInt {v : F64} {a : ℤ} (units : fInt v = a * 2 ^ 1074) : valueOf v = a := by
  have unit (e : Nat) : (2 : ℝ) ^ e ≠ 0 := pow_ne_zero e two_ne_zero
  rw [valueOf, units, Int.cast_mul, Int.cast_pow, Int.cast_ofNat, mul_div_cancel_right₀ _ (unit 1074)]

/-- Every whole number of at most 53 bits, and its 64th part, is the number of a value. -/
theorem exists_valueOf_eq (a : ℤ) (bits : |a| ≤ 2 ^ 53) :
    (∃ v : F64, fIsFinite v = true ∧ valueOf v = a) ∧ ∃ v : F64, fIsFinite v = true ∧ valueOf v = a / 64 := by
  rw [Int.abs_eq_natAbs] at bits
  have small : a.natAbs ≤ 2 ^ 53 := by omega
  have unit (e : Nat) : (2 : ℝ) ^ e ≠ 0 := pow_ne_zero e two_ne_zero
  constructor
  · obtain ⟨v, finite, units⟩ := exists_fInt_eq a (k := 1074) small (by decide) (by decide)
    exact ⟨v, finite, valueOf_of_fInt units⟩
  · obtain ⟨v, finite, units⟩ := exists_fInt_eq a (k := 1068) small (by decide) (by decide)
    refine ⟨v, finite, ?_⟩
    rw [valueOf, units, Int.cast_mul, Int.cast_pow, Int.cast_ofNat, show 1074 = 6 + 1068 from rfl, pow_add,
      mul_div_mul_right _ _ (unit 1068)]
    norm_num

end Sys2Proof.Machine
end

