-- ==== Sys2Proof/Proofs/SmallIntegers.lean ====
section
/-! PROOFS. On integers of at most 53 bits no operation rounds, so that on small integers the complex operations are the exact ones
(41_transform.md R67, R68). -/

namespace Sys2Proof.Machine

open Claims

/-! ### Words of integers -/

/-- `v` is finite and stands for the integer `a`. -/
def StandsFor (v : F64) (a : ℤ) : Prop := fIsFinite v = true ∧ valueOf v = a

theorem RoundsTo.standsFor {r : F64} {a : ℤ} (rounds : RoundsTo r a) (bits : |a| ≤ 2 ^ 53) : StandsFor r a := by
  obtain ⟨⟨v, finite, value⟩, -⟩ := exists_valueOf_eq a bits
  exact rounds.exact v finite value

section
variable {x y : F64} {a b : ℤ} (first : StandsFor x a)
include first

theorem fneg_standsFor : StandsFor (fneg x) (-a) := ⟨(fIsFinite_fneg x).trans first.1, by rw [valueOf_fneg, first.2, Int.cast_neg]⟩

/-- The division by 64 is exact as well. -/
theorem valueOf_fdiv (bits : |a| ≤ 2 ^ 53) : valueOf (fdiv x sixtyFour) = a / 64 := by
  obtain ⟨-, v, finite, value⟩ := exists_valueOf_eq a bits
  exact ((first.2 ▸ fdiv_roundsTo first.1).exact v finite value).2

variable (second : StandsFor y b)
include second

theorem fadd_standsFor (bits : |a + b| ≤ 2 ^ 53) : StandsFor (fadd x y) (a + b) := by
  have rounds := fadd_roundsTo first.1 second.1
  rw [first.2, second.2, ← Int.cast_add] at rounds
  exact rounds.standsFor bits

theorem fsub_standsFor (bits : |a - b| ≤ 2 ^ 53) : StandsFor (fsub x y) (a - b) := by
  have rounds := fsub_roundsTo first.1 second.1
  rw [first.2, second.2, ← Int.cast_sub] at rounds
  exact rounds.standsFor bits

theorem fmul_standsFor (bits : |a * b| ≤ 2 ^ 53) : StandsFor (fmul x y) (a * b) := by
  have rounds := fmul_roundsTo first.1 second.1
  rw [first.2, second.2, ← Int.cast_mul] at rounds
  exact rounds.standsFor bits

end

/-! ### Samples of integers -/

/-- The components of `x` stand for the integers `a` and `b`, of magnitude at most `bound`. -/
structure IntegerSample (bound : ℤ) (x : Sample) (a b : ℤ) : Prop where
  re : StandsFor x.re a
  im : StandsFor x.im b
  boundRe : |a| ≤ bound
  boundIm : |b| ≤ bound

/-- The Gaussian integer of a pair. -/
def gaussian (a b : ℤ) : ℂ := ⟨a, b⟩

section
variable {m n bound : ℤ} {x y : Sample} {a b c d : ℤ} (first : IntegerSample m x a b)
include first

theorem complexOf_integerSample : complexOf x = gaussian a b := by rw [complexOf, gaussian, first.re.2, first.im.2]

theorem conj_integerSample : IntegerSample m (conj x) a (-b) :=
  ⟨first.re, fneg_standsFor first.im, first.boundRe, by rw [abs_neg]; exact first.boundIm⟩

variable (second : IntegerSample n y c d)
include second

theorem cadd_integerSample (bits : m + n ≤ 2 ^ 53) : IntegerSample (m + n) (cadd x y) (a + c) (b + d) := by
  have re : |a + c| ≤ m + n := (abs_add_le a c).trans (add_le_add first.boundRe second.boundRe)
  have im : |b + d| ≤ m + n := (abs_add_le b d).trans (add_le_add first.boundIm second.boundIm)
  exact ⟨fadd_standsFor first.re second.re (re.trans bits), fadd_standsFor first.im second.im (im.trans bits), re, im⟩

theorem csub_integerSample (bits : m + n ≤ 2 ^ 53) : IntegerSample (m + n) (csub x y) (a - c) (b - d) := by
  have re : |a - c| ≤ m + n := (abs_sub a c).trans (add_le_add first.boundRe second.boundRe)
  have im : |b - d| ≤ m + n := (abs_sub b d).trans (add_le_add first.boundIm second.boundIm)
  exact ⟨fsub_standsFor first.re second.re (re.trans bits), fsub_standsFor first.im second.im (im.trans bits), re, im⟩

theorem cmul_integerSample (bits : 2 * (m * n) ≤ 2 ^ 53) :
    IntegerSample (2 * (m * n)) (cmul x y) (a * c - b * d) (a * d + b * c) := by
  have positive : 0 ≤ m := (abs_nonneg a).trans first.boundRe
  have product {p q : ℤ} (left : |p| ≤ m) (right : |q| ≤ n) : |p * q| ≤ m * n := by
    rw [abs_mul]
    exact mul_le_mul left right (abs_nonneg q) positive
  have half {p : ℤ} (small : |p| ≤ m * n) : |p| ≤ 2 ^ 53 := by linarith [abs_nonneg p]
  have ac := product first.boundRe second.boundRe
  have bd := product first.boundIm second.boundIm
  have ad := product first.boundRe second.boundIm
  have bc := product first.boundIm second.boundRe
  have re : |a * c - b * d| ≤ 2 * (m * n) := by linarith [abs_sub (a * c) (b * d)]
  have im : |a * d + b * c| ≤ 2 * (m * n) := by linarith [abs_add_le (a * d) (b * c)]
  exact ⟨fsub_standsFor (fmul_standsFor first.re second.re (half ac)) (fmul_standsFor first.im second.im (half bd)) (re.trans bits),
    fadd_standsFor (fmul_standsFor first.re second.im (half ad)) (fmul_standsFor first.im second.re (half bc)) (im.trans bits), re, im⟩

end

theorem gaussian_add (a b c d : ℤ) : gaussian (a + c) (b + d) = gaussian a b + gaussian c d :=
  Complex.ext (Int.cast_add a c) (Int.cast_add b d)

theorem gaussian_sub (a b c d : ℤ) : gaussian (a - c) (b - d) = gaussian a b - gaussian c d :=
  Complex.ext (Int.cast_sub a c) (Int.cast_sub b d)

theorem gaussian_mul (a b c d : ℤ) : gaussian (a * c - b * d) (a * d + b * c) = gaussian a b * gaussian c d := by
  apply Complex.ext <;> simp [gaussian]

theorem gaussian_conj (a b : ℤ) : gaussian a (-b) = starRingEnd ℂ (gaussian a b) := Complex.ext rfl (Int.cast_neg b)

theorem complexOf_cdiv64 {m a b : ℤ} {x : Sample} (integers : IntegerSample m x a b) (bits : m ≤ 2 ^ 53) :
    complexOf (cdiv64 x) = gaussian a b / 64 := by
  have re := valueOf_fdiv integers.re (integers.boundRe.trans bits)
  have im := valueOf_fdiv integers.im (integers.boundIm.trans bits)
  apply Complex.ext
  · simpa [complexOf, cdiv64, gaussian] using re
  · simpa [complexOf, cdiv64, gaussian] using im

theorem exists_integerSample {x : Sample} (small : SmallIntegers x) : ∃ a b, IntegerSample (2 ^ 24) x a b := by
  obtain ⟨finite, a, b, boundRe, boundIm, re, im⟩ := small
  obtain ⟨finiteRe, finiteIm⟩ := (Bool.and_eq_true _ _).mp finite
  exact ⟨a, b, ⟨finiteRe, re⟩, ⟨finiteIm, im⟩, boundRe, boundIm⟩

/-- Settles O26: sums, products and the butterfly of them stay below 2^53. -/
theorem butterflyIsTheExactOneWhereNothingRounds : Obligations.ButterflyIsTheExactOneWhereNothingRounds := by
  intro e o w smallE smallO smallW
  obtain ⟨a, b, even⟩ := exists_integerSample smallE
  obtain ⟨c, d, odd⟩ := exists_integerSample smallO
  obtain ⟨p, q, factor⟩ := exists_integerSample smallW
  have product := cmul_integerSample factor odd (by norm_num)
  have sum := cadd_integerSample even odd (by norm_num)
  have difference := csub_integerSample even odd (by norm_num)
  have first := cadd_integerSample even product (by norm_num)
  have second := csub_integerSample even product (by norm_num)
  rw [butterfly, complexOf_integerSample sum, complexOf_integerSample difference, complexOf_integerSample product,
    complexOf_integerSample (conj_integerSample even), complexOf_cdiv64 even (by norm_num), complexOf_integerSample first,
    complexOf_integerSample second, complexOf_integerSample even, complexOf_integerSample odd, complexOf_integerSample factor,
    gaussian_add, gaussian_sub, gaussian_add, gaussian_sub, gaussian_mul, gaussian_conj]
  exact ⟨rfl, rfl, rfl, rfl, rfl, rfl, rfl⟩

end Sys2Proof.Machine
end

