-- ==== Sys2Proof/Proofs/Twiddles.lean ====
section
/-! PROOFS. The twiddle table (41_transform.md R66). The exact factor of one step of the table is a number of square roots; whole-number
approximations of its powers, each from the one before with a bound on the error, are compared with every entry. -/

namespace Sys2Proof.Machine

open Claims

/-! ### Which value is nearest -/

theorem isNearest_of_eq {v : F64} {x : ℝ} (finite : fIsFinite v = true) (value : valueOf v = x) : IsNearest v x :=
  ⟨finite, fun u _ => by rw [value, sub_self, abs_zero]; exact abs_nonneg _⟩

/-- Between a normal value off the binade's edge and any other value lies a whole step of the binade. -/
theorem fInt_gap {v : F64} (normal : fExp v ≠ 0) (interior : fFrac v ≠ 0) (u : F64) :
    fInt u = fInt v ∨ 2 ^ (fExp v - 1) ≤ |fInt u - fInt v| := by
  have units : fUnits v = (2 ^ 52 + fFrac v) * 2 ^ (fExp v - 1) := if_neg normal
  obtain ⟨low, count⟩ : ∃ low, 2 ^ 52 + fFrac v = low + 1 := ⟨2 ^ 52 + fFrac v - 1, by omega⟩
  have below := fUnits_gap (s := fExp v - 1) (low := low) (.inr (by omega)) u
  have above := fUnits_gap (s := fExp v - 1) (low := low + 1) (.inr (by omega)) u
  rw [count] at units
  rw [Nat.add_mul (low + 1)] at above
  rw [Nat.add_mul] at below units above
  rw [Int.abs_eq_natAbs, fInt, fInt, units]
  norm_cast
  generalize low * 2 ^ (fExp v - 1) = lowUnits at *
  generalize 2 ^ (fExp v - 1) = step at *
  split <;> split <;> omega

/-- A normal value off the binade's edge is nearest to what lies within half a step of it. -/
theorem isNearest_of_close {v : F64} {x : ℝ} (finite : fIsFinite v = true) (normal : fExp v ≠ 0) (interior : fFrac v ≠ 0)
    (close : 2 * |fInt v - x * 2 ^ 1074| ≤ 2 ^ (fExp v - 1)) : IsNearest v x := by
  refine ⟨finite, fun u _ => ?_⟩
  have unitPos : (0 : ℝ) < 2 ^ 1074 := by positivity
  have scaled (w : F64) : |valueOf w - x| = |fInt w - x * 2 ^ 1074| / 2 ^ 1074 := by
    rw [valueOf, div_sub' unitPos.ne', abs_div, abs_of_pos unitPos, mul_comm x]
  rw [scaled, scaled, div_le_div_iff_of_pos_right unitPos]
  generalize x * 2 ^ 1074 = exact at *
  obtain same | apart := fInt_gap normal interior u
  · rw [same]
  · have apart' : (2 : ℝ) ^ (fExp v - 1) ≤ |(fInt u : ℝ) - fInt v| := by exact_mod_cast apart
    have triangle := abs_sub_le (fInt u : ℝ) exact (fInt v)
    rw [abs_sub_comm exact] at triangle
    linarith

/-! ### The exact factor of one step -/

theorem sqrt_mem {x lower upper : ℝ} (nonneg : 0 ≤ upper) (fromBelow : lower ^ 2 ≤ x) (fromAbove : x ≤ upper ^ 2) :
    lower ≤ √x ∧ √x ≤ upper :=
  ⟨Real.le_sqrt_of_sq_le fromBelow, Real.sqrt_le_iff.mpr ⟨nonneg, fromAbove⟩⟩

theorem sqrt_three_mem :
    (9263255070136244284482 : ℝ) / 2 ^ 72 ≤ √(2 + √(2 + √2)) ∧ √(2 + √(2 + √2)) ≤ 9263255070136244284483 / 2 ^ 72 := by
  obtain ⟨lower, upper⟩ : (6678434726570384492722 : ℝ) / 2 ^ 72 ≤ √2 ∧ √2 ≤ 6678434726570384492723 / 2 ^ 72 :=
    sqrt_mem (by norm_num) (by norm_num) (by norm_num)
  obtain ⟨lower, upper⟩ : (8725795477081154554620 : ℝ) / 2 ^ 72 ≤ √(2 + √2) ∧ √(2 + √2) ≤ 8725795477081154554621 / 2 ^ 72 :=
    sqrt_mem (by norm_num) (by norm_num at *; linarith) (by norm_num at *; linarith)
  exact sqrt_mem (by norm_num) (by norm_num at *; linarith) (by norm_num at *; linarith)

/-- The cosine of one step, in units of 2^-72. -/
def cosStep : ℤ := 4699626997500571611201

/-- The sine of one step, in units of 2^-72. -/
def sinStep : ℤ := 462872858239047557592

theorem cosStep_close : |(cosStep : ℝ) / 2 ^ 72 - Real.cos (Real.pi / 32)| ≤ 1 / 2 ^ 72 := by
  obtain ⟨lower, upper⟩ := sqrt_three_mem
  obtain ⟨lower', upper'⟩ : (9399253995001143222402 : ℝ) / 2 ^ 72 ≤ √(2 + √(2 + √(2 + √2))) ∧
      √(2 + √(2 + √(2 + √2))) ≤ 9399253995001143222403 / 2 ^ 72 :=
    sqrt_mem (by norm_num) (by norm_num at *; linarith) (by norm_num at *; linarith)
  rw [Real.cos_pi_div_thirty_two, abs_le, cosStep]
  norm_num at *
  constructor <;> linarith

theorem sinStep_close : |(sinStep : ℝ) / 2 ^ 72 - Real.sin (Real.pi / 32)| ≤ 3 / 2 ^ 72 := by
  obtain ⟨lower, upper⟩ := sqrt_three_mem
  obtain ⟨lower', upper'⟩ : (925745716478095115185 : ℝ) / 2 ^ 72 ≤ √(2 - √(2 + √(2 + √2))) ∧
      √(2 - √(2 + √(2 + √2))) ≤ 925745716478095115189 / 2 ^ 72 :=
    sqrt_mem (by norm_num) (by norm_num at *; linarith) (by norm_num at *; linarith)
  rw [Real.sin_pi_div_thirty_two, abs_le, sinStep]
  norm_num at *
  constructor <;> linarith

/-! ### Its powers -/

/-- The complex number of two whole numbers of units of 2^-72. -/
noncomputable def inUnits (p : ℤ × ℤ) : ℂ := ⟨p.1 / 2 ^ 72, p.2 / 2 ^ 72⟩

/-- The `m`-th power of the factor of one step, each product cut off to whole units of 2^-72. -/
def turned : Nat → ℤ × ℤ
  | 0 => (2 ^ 72, 0)
  | m + 1 =>
    (((turned m).1 * cosStep + (turned m).2 * sinStep) / 2 ^ 72, ((turned m).2 * cosStep - (turned m).1 * sinStep) / 2 ^ 72)

theorem exactTw_eq_cos_sin (level k : Nat) :
    exactTw level k = ⟨Real.cos (2 * Real.pi * k / 2 ^ level), -Real.sin (2 * Real.pi * k / 2 ^ level)⟩ := by
  have angle : -(2 * Real.pi * Complex.I * k / 2 ^ level : ℂ) = ((-(2 * Real.pi * k / 2 ^ level) : ℝ) : ℂ) * Complex.I := by
    push_cast
    ring
  rw [exactTw, angle]
  apply Complex.ext
  · rw [Complex.exp_ofReal_mul_I_re, Real.cos_neg]
  · rw [Complex.exp_ofReal_mul_I_im, Real.sin_neg]

theorem norm_le_of_abs_le {z : ℂ} {a b : ℝ} (re : |z.re| ≤ a) (im : |z.im| ≤ b) : ‖z‖ ≤ a + b :=
  (Complex.norm_le_abs_re_add_abs_im z).trans (add_le_add re im)

theorem step_close : ‖inUnits (cosStep, -sinStep) - exactTw 6 1‖ ≤ 4 / 2 ^ 72 := by
  have angle : 2 * Real.pi * (1 : Nat) / 2 ^ 6 = Real.pi / 32 := by norm_num; ring
  rw [exactTw_eq_cos_sin, angle, show (4 : ℝ) / 2 ^ 72 = 1 / 2 ^ 72 + 3 / 2 ^ 72 by norm_num]
  apply norm_le_of_abs_le
  · exact cosStep_close
  · have close := sinStep_close
    rw [← abs_neg] at close
    convert close using 2
    simp [inUnits]
    ring

theorem norm_step_le : ‖inUnits (cosStep, -sinStep)‖ ≤ 1 := by
  rw [Complex.norm_def, Real.sqrt_le_iff, Complex.normSq_apply]
  norm_num [inUnits, cosStep, sinStep]

/-- Cutting off loses less than a unit. -/
theorem cut_off_close (t : ℤ) : |((t / 2 ^ 72 : ℤ) : ℝ) / 2 ^ 72 - t / 2 ^ 72 / 2 ^ 72| ≤ 1 / 2 ^ 72 := by
  have division : (2 : ℝ) ^ 72 * (t / 2 ^ 72 : ℤ) + (t % 2 ^ 72 : ℤ) = t := by
    have division := congrArg (Int.cast (R := ℝ)) (Int.mul_ediv_add_emod t (2 ^ 72))
    rwa [Int.cast_add, Int.cast_mul, Int.cast_pow, Int.cast_ofNat] at division
  have nonneg : (0 : ℝ) ≤ (t % 2 ^ 72 : ℤ) := by exact_mod_cast Int.emod_nonneg t (by norm_num)
  have less : ((t % 2 ^ 72 : ℤ) : ℝ) ≤ 2 ^ 72 := by exact_mod_cast (Int.emod_lt_of_pos t (by norm_num)).le
  generalize (t / 2 ^ 72 : ℤ) = quotient at *
  generalize (t % 2 ^ 72 : ℤ) = rest at *
  rw [← division, abs_le]
  constructor <;> field_simp <;> linarith

theorem turned_succ_close (m : Nat) : ‖inUnits (turned (m + 1)) - inUnits (turned m) * inUnits (cosStep, -sinStep)‖ ≤ 2 / 2 ^ 72 := by
  rw [show (2 : ℝ) / 2 ^ 72 = 1 / 2 ^ 72 + 1 / 2 ^ 72 by norm_num]
  apply norm_le_of_abs_le
  · convert cut_off_close ((turned m).1 * cosStep + (turned m).2 * sinStep) using 2
    simp [inUnits, turned]
    ring
  · convert cut_off_close ((turned m).2 * cosStep - (turned m).1 * sinStep) using 2
    simp [inUnits, turned]
    ring

theorem turned_close (m : Nat) : ‖inUnits (turned m) - exactTw 6 m‖ ≤ 6 * m / 2 ^ 72 := by
  induction m with
  | zero => 
    have start : inUnits (turned 0) = exactTw 6 0 := by
      rw [exactTw_eq_cos_sin]
      norm_num [inUnits, turned]
    rw [start]
    simp
  | succ m ih =>
    have split : inUnits (turned (m + 1)) - exactTw 6 (m + 1) =
        (inUnits (turned (m + 1)) - inUnits (turned m) * inUnits (cosStep, -sinStep)) +
          (inUnits (turned m) - exactTw 6 m) * inUnits (cosStep, -sinStep) +
          exactTw 6 m * (inUnits (cosStep, -sinStep) - exactTw 6 1) := by
      rw [exactTw_add]
      ring
    have carried : ‖(inUnits (turned m) - exactTw 6 m) * inUnits (cosStep, -sinStep)‖ ≤ 6 * m / 2 ^ 72 := by
      rw [norm_mul]
      exact (mul_le_of_le_one_right (norm_nonneg _) norm_step_le).trans ih
    have new : ‖exactTw 6 m * (inUnits (cosStep, -sinStep) - exactTw 6 1)‖ ≤ 4 / 2 ^ 72 := by
      rw [norm_mul, norm_exactTw, one_mul]
      exact step_close
    rw [split]
    refine (norm_add₃_le).trans ?_
    have cut := turned_succ_close m
    push_cast
    linarith

/-! ### The table -/

/-- `v` is a normal value off the binade's edge, within half a step less 256 units of 2^-72 of `a` units of 2^-72. -/
def settles (v : F64) (a : ℤ) : Bool :=
  fIsFinite v && fExp v != 0 && fFrac v != 0 &&
    decide (2 * (fInt v * 2 ^ 72 - a * unitsOfOne).natAbs + 512 * unitsOfOne ≤ 2 ^ (fExp v - 1) * 2 ^ 72)

theorem isNearest_of_settles {v : F64} {a : ℤ} {x : ℝ} (settled : settles v a = true) (close : |a / 2 ^ 72 - x| ≤ 256 / 2 ^ 72) :
    IsNearest v x := by
  simp only [settles, Bool.and_eq_true, bne_iff_ne, decide_eq_true_eq, unitsOfOne_eq] at settled
  obtain ⟨⟨⟨finite, normal⟩, interior⟩, near⟩ := settled
  refine isNearest_of_close finite normal interior ?_
  have near' : 2 * |(fInt v : ℝ) * 2 ^ 72 - a * 2 ^ 1074| + 512 * 2 ^ 1074 ≤ 2 ^ (fExp v - 1) * 2 ^ 72 := by
    have cast := (Nat.cast_le (α := ℝ)).mpr near
    rwa [Nat.cast_add, Nat.cast_mul, Nat.cast_mul, Nat.cast_mul, Nat.cast_natAbs, Int.cast_abs, Int.cast_sub, Int.cast_mul,
      Int.cast_mul, Int.cast_pow, Int.cast_natCast, Nat.cast_pow, Nat.cast_pow, Nat.cast_pow, Nat.cast_ofNat, Nat.cast_ofNat,
      Int.cast_ofNat] at cast
  have unitPos : (0 : ℝ) < 2 ^ 1074 := by positivity
  generalize (2 : ℝ) ^ 1074 = unit at *
  have close' : |(a : ℝ) * unit - x * unit * 2 ^ 72| ≤ 256 * unit := by
    rw [show (a : ℝ) * unit - x * unit * 2 ^ 72 = (a / 2 ^ 72 - x) * (unit * 2 ^ 72) by ring, abs_mul,
      abs_of_pos (by positivity : 0 < unit * 2 ^ 72)]
    calc |a / 2 ^ 72 - x| * (unit * 2 ^ 72) ≤ 256 / 2 ^ 72 * (unit * 2 ^ 72) := mul_le_mul_of_nonneg_right close (by positivity)
      _ = 256 * unit := by ring
  have scaled : |(fInt v : ℝ) - x * unit| * 2 ^ 72 = |(fInt v : ℝ) * 2 ^ 72 - x * unit * 2 ^ 72| := by
    rw [← sub_mul, abs_mul, abs_of_pos (by positivity : (0 : ℝ) < 2 ^ 72)]
  have triangle := abs_sub_le ((fInt v : ℝ) * 2 ^ 72) (a * unit) (x * unit * 2 ^ 72)
  linarith

theorem twiddleRom_settled : ∀ m < 32, m ≠ 0 → m ≠ 16 →
    settles (twiddleRom.getD m zeroSample).re (turned m).1 = true ∧ settles (twiddleRom.getD m zeroSample).im (turned m).2 = true := by
  decide +kernel

theorem valueOf_zero : valueOf 0 = 0 := by rw [valueOf, show fInt 0 = 0 from rfl, Int.cast_zero, zero_div]

theorem valueOf_one : valueOf 0x3FF0000000000000 = (1 : ℤ) := valueOf_of_fInt (by decide +kernel)

theorem valueOf_minusOne : valueOf 0xBFF0000000000000 = (-1 : ℤ) := valueOf_of_fInt (by decide +kernel)

/-- Entry `m` of the table is nearest to the exact factor: the two exact entries by their values. -/
theorem twiddleRom_isNearest {m : Nat} (inTable : m < 32) :
    IsNearest (twiddleRom.getD m zeroSample).re (exactTw 6 m).re ∧ IsNearest (twiddleRom.getD m zeroSample).im (exactTw 6 m).im := by
  by_cases first : m = 0
  · subst first
    have exact : exactTw 6 0 = 1 := by simp [exactTw]
    rw [exact]
    exact ⟨isNearest_of_eq rfl (valueOf_one.trans (by norm_num)), isNearest_of_eq rfl valueOf_zero⟩
  by_cases middle : m = 16
  · subst middle
    have angle : 2 * Real.pi * (16 : Nat) / 2 ^ 6 = Real.pi / 2 := by norm_num; ring
    rw [exactTw_eq_cos_sin, angle, Real.cos_pi_div_two, Real.sin_pi_div_two]
    exact ⟨isNearest_of_eq rfl valueOf_zero, isNearest_of_eq rfl (valueOf_minusOne.trans (by norm_num))⟩
  · obtain ⟨re, im⟩ := twiddleRom_settled m inTable first middle
    have slack : (6 : ℝ) * m / 2 ^ 72 ≤ 256 / 2 ^ 72 := by
      have : (m : ℝ) ≤ 32 := by exact_mod_cast inTable.le
      rw [div_le_div_iff_of_pos_right (by positivity)]
      linarith
    have close := (turned_close m).trans slack
    exact ⟨isNearest_of_settles re ((Complex.abs_re_le_norm _).trans close),
      isNearest_of_settles im ((Complex.abs_im_le_norm _).trans close)⟩

/-! ### The factor of every butterfly -/

/-- A factor of a coarser circle is one of the finer. -/
theorem exactTw_add_mul (level rest k : Nat) : exactTw (level + rest) (k * 2 ^ rest) = exactTw level k := by
  rw [exactTw, exactTw, pow_add]
  push_cast
  congr 1
  field_simp

theorem tw_isNearest {level k : Nat} (levels : level ≤ 6) (inRange : 2 * k < 2 ^ level) :
    IsNearest (tw level k).re (exactTw level k).re ∧ IsNearest (tw level k).im (exactTw level k).im := by
  have place : Config.fftSize / 2 ^ level = 2 ^ (6 - level) := Nat.pow_div (m := 6) levels Nat.two_pos
  rw [← exactTw_add_mul level (6 - level), Nat.add_sub_cancel' levels, tw, place]
  refine twiddleRom_isNearest ?_
  have whole : 2 ^ level * 2 ^ (6 - level) = 64 := by rw [← Nat.pow_add, Nat.add_sub_cancel' levels]
  have := Nat.mul_lt_mul_of_pos_right inRange (Nat.two_pow_pos (6 - level))
  rw [whole, Nat.mul_assoc] at this
  omega

/-- Settles O31: entry by entry, against whole-number approximations of the exact factors. -/
theorem twiddlesAreNearestToTheExactFactors : Obligations.TwiddlesAreNearestToTheExactFactors := by
  refine ⟨rfl, rfl, rfl, fun m T entry => ?_, fun level k _ levels inRange => tw_isNearest levels inRange⟩
  have inTable : m < 32 := (List.getElem?_eq_some_iff.mp entry).1
  have nearest := twiddleRom_isNearest inTable
  rw [List.getD_eq_getElem?_getD, entry, exactTw_eq_cos_sin] at nearest
  norm_num at nearest
  exact nearest

end Sys2Proof.Machine
end

