-- ==== Sys2Proof/Proofs/RoundingErrors.lean ====
section
/-! PROOFS. Rounding errors of the complex operations and of one butterfly (41_transform.md R65, R67, R68). -/

namespace Sys2Proof.Machine

open Claims

/-! ### The constants -/

theorem roundoff_pos : 0 < roundoff := by unfold roundoff; positivity

theorem roundoff_le : roundoff ≤ 1 / 4096 := by norm_num [roundoff]

theorem halfUnit_pos : 0 < halfUnit := by unfold halfUnit; positivity

theorem halfUnit_le : halfUnit ≤ 1 / 1024 := by
  rw [halfUnit, show (1024 : ℝ) = 2 ^ 10 by norm_num]
  exact one_div_le_one_div_of_le (by positivity) (pow_le_pow_right₀ one_le_two (by norm_num))

/-! ### Components -/

section
variable {r : F64} {x bound : ℝ} (rounds : RoundsTo r x) (bounded : |x| ≤ bound) (inRange : bound ≤ safeRange)
include rounds bounded inRange

theorem RoundsTo.error : fIsFinite r = true ∧ |valueOf r - x| ≤ roundoff * bound + halfUnit := by
  obtain ⟨finite, close⟩ := rounds.close (bounded.trans inRange)
  have := mul_le_mul_of_nonneg_left bounded roundoff_pos.le
  exact ⟨finite, close.trans (by linarith)⟩

end

/-- The rounded sum of two rounded products. -/
theorem rounded_sum_error {r : F64} {p p' x x' bound : ℝ} (rounds : RoundsTo r (p + p'))
    (first : |p - x| ≤ roundoff * bound + halfUnit) (second : |p' - x'| ≤ roundoff * bound + halfUnit) (bounded : |x| ≤ bound)
    (bounded' : |x'| ≤ bound) (inRange : 4 * bound + 4 ≤ safeRange) :
    fIsFinite r = true ∧ |valueOf r - (x + x')| ≤ 5 * (roundoff * bound) + 4 * halfUnit := by
  have pos := roundoff_pos
  have small := roundoff_le
  have halfPos := halfUnit_pos
  have halfSmall := halfUnit_le
  have nonneg : 0 ≤ bound := (abs_nonneg x).trans bounded
  have product : roundoff * bound ≤ 1 / 4096 * bound := mul_le_mul_of_nonneg_right small nonneg
  have productHalf : roundoff * halfUnit ≤ 1 / 4096 * halfUnit := mul_le_mul_of_nonneg_right small halfPos.le
  have product' : roundoff * (roundoff * bound) ≤ 1 / 4096 * (roundoff * bound) :=
    mul_le_mul_of_nonneg_right small (mul_nonneg pos.le nonneg)
  have magnitude : |p + p'| ≤ 2 * bound + 2 * (roundoff * bound) + 2 * halfUnit := by
    rw [abs_le] at *
    constructor <;> linarith
  obtain ⟨finite, close⟩ := rounds.error magnitude (by linarith)
  refine ⟨finite, ?_⟩
  rw [abs_le] at *
  constructor <;> linarith

/-! ### Complex operations -/

theorem finiteSample_iff (x : Sample) : finiteSample x = true ↔ fIsFinite x.re = true ∧ fIsFinite x.im = true :=
  Bool.and_eq_true_iff

/-- Both components of a complex result rounded once. -/
theorem sample_error {r : Sample} {z : ℂ} {bound : ℝ} (re : RoundsTo r.re z.re) (im : RoundsTo r.im z.im) (bounded : ‖z‖ ≤ bound)
    (inRange : bound ≤ safeRange) : finiteSample r = true ∧ ‖complexOf r - z‖ ≤ 2 * (roundoff * bound + halfUnit) := by
  obtain ⟨finiteRe, errorRe⟩ := re.error ((Complex.abs_re_le_norm z).trans bounded) inRange
  obtain ⟨finiteIm, errorIm⟩ := im.error ((Complex.abs_im_le_norm z).trans bounded) inRange
  rw [two_mul]
  exact ⟨(finiteSample_iff r).mpr ⟨finiteRe, finiteIm⟩, norm_le_of_abs_le errorRe errorIm⟩

section
variable {x y : Sample} {bound : ℝ} (finiteX : finiteSample x = true) (finiteY : finiteSample y = true)
include finiteX finiteY

theorem cadd_error (bounded : ‖complexOf x + complexOf y‖ ≤ bound) (inRange : bound ≤ safeRange) :
    finiteSample (cadd x y) = true ∧
      ‖complexOf (cadd x y) - (complexOf x + complexOf y)‖ ≤ 2 * (roundoff * bound + halfUnit) := by
  rw [finiteSample_iff] at finiteX finiteY
  exact sample_error (fadd_roundsTo finiteX.1 finiteY.1) (fadd_roundsTo finiteX.2 finiteY.2) bounded inRange

theorem csub_error (bounded : ‖complexOf x - complexOf y‖ ≤ bound) (inRange : bound ≤ safeRange) :
    finiteSample (csub x y) = true ∧
      ‖complexOf (csub x y) - (complexOf x - complexOf y)‖ ≤ 2 * (roundoff * bound + halfUnit) := by
  rw [finiteSample_iff] at finiteX finiteY
  exact sample_error (fsub_roundsTo finiteX.1 finiteY.1) (fsub_roundsTo finiteX.2 finiteY.2) bounded inRange

theorem cmul_error (bounded : ‖complexOf x‖ * ‖complexOf y‖ ≤ bound) (inRange : 4 * bound + 4 ≤ safeRange) :
    finiteSample (cmul x y) = true ∧
      ‖complexOf (cmul x y) - complexOf x * complexOf y‖ ≤ 10 * (roundoff * bound) + 8 * halfUnit := by
  rw [finiteSample_iff] at *
  have nonneg : 0 ≤ bound := (mul_nonneg (norm_nonneg _) (norm_nonneg _)).trans bounded
  have product {a b : ℝ} (left : |a| ≤ ‖complexOf x‖) (right : |b| ≤ ‖complexOf y‖) : |a * b| ≤ bound := by
    rw [abs_mul]
    exact (mul_le_mul left right (abs_nonneg b) (norm_nonneg _)).trans bounded
  have xRe := Complex.abs_re_le_norm (complexOf x)
  have xIm := Complex.abs_im_le_norm (complexOf x)
  have yRe := Complex.abs_re_le_norm (complexOf y)
  have yIm := Complex.abs_im_le_norm (complexOf y)
  have one {v w : F64} (finite : fIsFinite v = true) (finite' : fIsFinite w = true) (small : |valueOf v * valueOf w| ≤ bound) :=
    (fmul_roundsTo finite finite').error small (by linarith)
  obtain ⟨finite, error⟩ := one finiteX.1 finiteY.1 (product xRe yRe)
  obtain ⟨finite', error'⟩ := one finiteX.2 finiteY.2 (product xIm yIm)
  have rounds := fsub_roundsTo finite finite'
  rw [sub_eq_add_neg] at rounds
  rw [← abs_neg, neg_sub, ← neg_sub_neg] at error'
  obtain ⟨finiteRe, errorRe⟩ := rounded_sum_error rounds error error' (product xRe yRe) (by rw [abs_neg]; exact product xIm yIm) inRange
  obtain ⟨finite, error⟩ := one finiteX.1 finiteY.2 (product xRe yIm)
  obtain ⟨finite', error'⟩ := one finiteX.2 finiteY.1 (product xIm yRe)
  obtain ⟨finiteIm, errorIm⟩ :=
    rounded_sum_error (fadd_roundsTo finite finite') error error' (product xRe yIm) (product xIm yRe) inRange
  refine ⟨⟨finiteRe, finiteIm⟩, (norm_le_of_abs_le (a := 5 * (roundoff * bound) + 4 * halfUnit)
    (b := 5 * (roundoff * bound) + 4 * halfUnit) ?_ ?_).trans (by linarith)⟩
  · rwa [← sub_eq_add_neg] at errorRe
  · exact errorIm

end

/-! ### The factors -/

/-- Some value lies within 2^-54 of every number up to 1. -/
theorem exists_value_close {x : ℝ} (bounded : |x| ≤ 1) : ∃ v : F64, fIsFinite v = true ∧ |valueOf v - x| ≤ roundoff / 2 := by
  have rounded := abs_sub_round (x * 2 ^ 53)
  have bits : |round (x * 2 ^ 53)| ≤ 2 ^ 53 := by
    have magnitude : |x * 2 ^ 53| ≤ 2 ^ 53 := by
      rw [abs_mul, abs_of_pos (by positivity : (0 : ℝ) < 2 ^ 53)]
      exact mul_le_of_le_one_left (by positivity) bounded
    have nearly : |(round (x * 2 ^ 53) : ℝ)| < 2 ^ 53 + 1 := by
      rw [abs_le] at rounded magnitude
      rw [abs_lt]
      generalize (2 : ℝ) ^ 53 = top at *
      constructor <;> linarith
    exact Int.lt_add_one_iff.mp (by exact_mod_cast nearly)
  generalize round (x * 2 ^ 53) = a at *
  rw [Int.abs_eq_natAbs] at bits
  obtain ⟨v, finite, units⟩ := exists_fInt_eq a (k := 1021) (by omega) (by decide) (by decide)
  refine ⟨v, finite, ?_⟩
  have value : valueOf v = a / 2 ^ 53 := by
    rw [valueOf, units, Int.cast_mul, Int.cast_pow, Int.cast_ofNat, show 1074 = 53 + 1021 from rfl, pow_add,
      mul_div_mul_right _ _ (pow_ne_zero 1021 two_ne_zero)]
  rw [value, roundoff, div_sub' (by positivity), abs_div, abs_of_pos (by positivity : (0 : ℝ) < 2 ^ 53), ← abs_neg, neg_sub,
    mul_comm (2 ^ 53) x, div_right_comm]
  exact div_le_div_of_nonneg_right rounded (by positivity)

theorem tw_error {level k : Nat} (levels : level ≤ 6) (inRange : 2 * k < 2 ^ level) :
    ‖complexOf (tw level k) - exactTw level k‖ ≤ roundoff := by
  obtain ⟨⟨-, re⟩, -, im⟩ := tw_isNearest levels inRange
  have unit := (norm_exactTw level k).le
  obtain ⟨v, finite, close⟩ := exists_value_close ((Complex.abs_re_le_norm _).trans unit)
  obtain ⟨v', finite', close'⟩ := exists_value_close ((Complex.abs_im_le_norm _).trans unit)
  rw [← add_halves roundoff]
  exact norm_le_of_abs_le ((re v finite).trans close) ((im v' finite').trans close')

/-! ### The butterfly -/

theorem norm_le_of_close {z z' : ℂ} {size error : ℝ} (bounded : ‖z'‖ ≤ size) (close : ‖z - z'‖ ≤ error) : ‖z‖ ≤ size + error := by
  have triangle := norm_le_norm_add_norm_sub' z z'
  linarith

section
variable {e o w : Sample} {e' o' w' : ℂ} {size error : ℝ} (finiteE : finiteSample e = true) (finiteO : finiteSample o = true)
  (finiteW : finiteSample w = true) (sizeE : ‖e'‖ ≤ size) (sizeO : ‖o'‖ ≤ size) (unit : ‖w'‖ = 1)
  (errorE : ‖complexOf e - e'‖ ≤ error) (errorO : ‖complexOf o - o'‖ ≤ error) (errorW : ‖complexOf w - w'‖ ≤ roundoff)
  (inRange : 8 * (size + error) + 8 ≤ safeRange)
include finiteO finiteW sizeO unit errorO errorW inRange

/-- The product of a butterfly: of its own rounding, of the factor's and of the operand's error. -/
theorem turned_operand_error : finiteSample (cmul w o) = true ∧
    ‖complexOf (cmul w o) - w' * o'‖ ≤ error + 12 * (roundoff * (size + error)) + 8 * halfUnit := by
  have small := roundoff_le
  have sizeO' := norm_le_of_close sizeO errorO
  have sizeW := norm_le_of_close unit.le errorW
  have nonneg : 0 ≤ size + error := (norm_nonneg _).trans sizeO'
  generalize size + error = total at *
  have scaled : roundoff * total ≤ 1 / 4096 * total := mul_le_mul_of_nonneg_right small nonneg
  have nonneg' : 0 ≤ roundoff * total := mul_nonneg roundoff_pos.le nonneg
  have scaled' : roundoff * (roundoff * total) ≤ 1 / 4096 * (roundoff * total) := mul_le_mul_of_nonneg_right small nonneg'
  have bounded : ‖complexOf w‖ * ‖complexOf o‖ ≤ total + roundoff * total :=
    (mul_le_mul sizeW sizeO' (norm_nonneg _) (by linarith [roundoff_pos])).trans (by linarith)
  obtain ⟨finite, product⟩ := cmul_error finiteW finiteO bounded (by linarith)
  refine ⟨finite, ?_⟩
  have split : complexOf (cmul w o) - w' * o' =
      (complexOf (cmul w o) - complexOf w * complexOf o) + (complexOf w - w') * complexOf o + w' * (complexOf o - o') := by ring
  have factor : ‖(complexOf w - w') * complexOf o‖ ≤ roundoff * total := by
    rw [norm_mul]
    exact mul_le_mul errorW sizeO' (norm_nonneg _) roundoff_pos.le
  have operand : ‖w' * (complexOf o - o')‖ ≤ error := by rwa [norm_mul, unit, one_mul]
  rw [split]
  refine norm_add₃_le.trans ?_
  linarith

include finiteE sizeE errorE

/-- Both results of a butterfly. -/
theorem butterfly_error :
    (finiteSample (butterfly e o w).1 = true ∧ ‖complexOf (butterfly e o w).1 - (e' + w' * o')‖ ≤
      2 * error + 20 * (roundoff * (size + error)) + 11 * halfUnit) ∧
    (finiteSample (butterfly e o w).2 = true ∧ ‖complexOf (butterfly e o w).2 - (e' - w' * o')‖ ≤
      2 * error + 20 * (roundoff * (size + error)) + 11 * halfUnit) := by
  have small := roundoff_le
  have halfPos := halfUnit_pos
  have halfSmall := halfUnit_le
  obtain ⟨finite, product⟩ := turned_operand_error finiteO finiteW sizeO unit errorO errorW inRange
  have sizeE' := norm_le_of_close sizeE errorE
  have sizeT : ‖complexOf (cmul w o)‖ ≤ size + (error + 12 * (roundoff * (size + error)) + 8 * halfUnit) :=
    norm_le_of_close (by rwa [norm_mul, unit, one_mul]) product
  have nonneg : 0 ≤ size + error := (norm_nonneg _).trans sizeE'
  have scaled : roundoff * (size + error) ≤ 1 / 4096 * (size + error) := mul_le_mul_of_nonneg_right small nonneg
  have nonneg' : 0 ≤ roundoff * (size + error) := mul_nonneg roundoff_pos.le nonneg
  have scaledHalf : roundoff * halfUnit ≤ 1 / 4096 * halfUnit := mul_le_mul_of_nonneg_right small halfPos.le
  have range : 3 * (size + error) + 8 * halfUnit ≤ safeRange := by linarith
  have distribute : roundoff * (3 * (size + error) + 8 * halfUnit) = 3 * (roundoff * (size + error)) + 8 * (roundoff * halfUnit) := by
    ring
  obtain ⟨finiteSum, sum⟩ := cadd_error finiteE finite ((norm_add_le _ _).trans (by linarith)) range
  obtain ⟨finiteDifference, difference⟩ := csub_error finiteE finite ((norm_sub_le _ _).trans (by linarith)) range
  rw [distribute] at sum difference
  refine ⟨⟨finiteSum, ?_⟩, finiteDifference, ?_⟩
  · have split : complexOf (butterfly e o w).1 - (e' + w' * o') = (complexOf (cadd e (cmul w o)) - (complexOf e + complexOf (cmul w o))) +
        (complexOf e - e') + (complexOf (cmul w o) - w' * o') := by
      rw [butterfly]
      ring
    rw [split]
    refine norm_add₃_le.trans ?_
    linarith
  · have split : complexOf (butterfly e o w).2 - (e' - w' * o') = (complexOf (csub e (cmul w o)) - (complexOf e - complexOf (cmul w o))) +
        (complexOf e - e') + -(complexOf (cmul w o) - w' * o') := by
      rw [butterfly]
      ring
    rw [split]
    refine norm_add₃_le.trans ?_
    rw [norm_neg]
    linarith

end

end Sys2Proof.Machine
end

