-- ==== Sys2Proof/Proofs/TransformErrors.lean ====
section
/-! PROOFS. Both transforms up to rounding (41_transform.md R75): the errors of the levels add up, the inverse averages them, and the
exact transforms are inverse to each other. -/

namespace Sys2Proof.Machine

open Claims

/-! ### The levels -/

/-- What one level may add to the error of Samples of magnitude `bound`, per Sample of the input. -/
noncomputable def levelError (bound : ℝ) : ℝ := 16 * (roundoff * bound) + 64 * halfUnit

/-- A finite Sample of the transform of `2 ^ level` Samples of magnitude `bound` stands for a complex number, up to the errors of
`level` levels. -/
structure Tracks (bound : ℝ) (level : Nat) (a : Sample) (z : ℂ) : Prop where
  finite : finiteSample a = true
  size : ‖z‖ ≤ 2 ^ level * bound
  error : ‖complexOf a - z‖ ≤ 2 ^ level * (level * levelError bound)

theorem levelError_two_mul (m : ℝ) : levelError (2 * m) = 32 * (roundoff * m) + 64 * halfUnit := by
  unfold levelError
  ring

section
variable {bound : ℝ} (nonneg : 0 ≤ bound) (inRange : 4096 * (bound + 1) ≤ safeRange)
include nonneg

theorem levelError_nonneg : 0 ≤ levelError bound := by
  have := mul_nonneg roundoff_pos.le nonneg
  have := halfUnit_pos
  unfold levelError
  linarith

theorem levelError_le : levelError bound ≤ bound + 1 / 16 := by
  have := mul_le_mul_of_nonneg_right roundoff_le nonneg
  have := halfUnit_le
  unfold levelError
  linarith

/-- The errors of one level stay within what the level may add. -/
theorem level_budget {scale levels : ℝ} (atLeastOne : 1 ≤ scale) (fewLevels : levels ≤ 5) :
    20 * (roundoff * (scale * bound + scale * (levels * levelError bound))) + 11 * halfUnit ≤ 2 * scale * levelError bound := by
  have error := levelError_nonneg nonneg
  have scaled : scale * (levels * levelError bound) ≤ scale * (5 * levelError bound) :=
    mul_le_mul_of_nonneg_left (mul_le_mul_of_nonneg_right fewLevels error) (by linarith)
  have halfPos := halfUnit_pos
  have halfUnits : halfUnit ≤ scale * halfUnit := le_mul_of_one_le_left halfPos.le atLeastOne
  have nonnegError : 0 ≤ scale * levelError bound := mul_nonneg (by linarith) error
  have relative := mul_le_mul_of_nonneg_right roundoff_le nonnegError
  have relative' := mul_le_mul_of_nonneg_left scaled roundoff_pos.le
  have relativeBound : 0 ≤ roundoff * (scale * bound) := mul_nonneg roundoff_pos.le (mul_nonneg (by linarith) nonneg)
  have expand : scale * levelError bound = 16 * (roundoff * (scale * bound)) + 64 * (scale * halfUnit) := by
    unfold levelError
    ring
  have regroup : roundoff * (scale * (5 * levelError bound)) = 5 * (roundoff * (scale * levelError bound)) := by ring
  rw [mul_add, mul_assoc 2]
  linarith

include inRange

theorem butterfly_tracks {level k : Nat} {e o : Sample} {e' o' : ℂ} (levels : level < 6) (half : k < 2 ^ level)
    (even : Tracks bound level e e') (odd : Tracks bound level o o') :
    Tracks bound (level + 1) (stepButterfly (level + 1) k e o).1 (exactButterfly (level + 1) k e' o').1 ∧
      Tracks bound (level + 1) (stepButterfly (level + 1) k e o).2 (exactButterfly (level + 1) k e' o').2 := by
  have unit := norm_exactTw (level + 1) k
  have fewLevels : (level : ℝ) ≤ 5 := by exact_mod_cast Nat.le_of_lt_succ levels
  have power : (2 : ℝ) ^ level ≤ 32 := by
    calc (2 : ℝ) ^ level ≤ 2 ^ 5 := pow_le_pow_right₀ (by norm_num) (Nat.le_of_lt_succ levels)
      _ = 32 := by norm_num
  have atLeastOne : (1 : ℝ) ≤ 2 ^ level := one_le_pow₀ one_le_two
  have range : 8 * (2 ^ level * bound + 2 ^ level * (level * levelError bound)) + 8 ≤ safeRange := by
    have error := levelError_nonneg nonneg
    have errorSmall := levelError_le nonneg
    have errors : level * levelError bound ≤ 5 * levelError bound := mul_le_mul_of_nonneg_right fewLevels error
    have total := mul_le_mul power (add_le_add_right errors bound) (by positivity) (by norm_num)
    rw [← mul_add]
    linarith
  have budget := level_budget nonneg atLeastOne fewLevels
  have next : (2 : ℝ) ^ (level + 1) * ((level + 1 : Nat) * levelError bound) =
      2 * (2 ^ level * (level * levelError bound)) + 2 * 2 ^ level * levelError bound := by
    push_cast
    ring
  obtain ⟨⟨finite, error⟩, finite', error'⟩ := butterfly_error even.finite odd.finite
    ((finiteSample_iff _).mpr (tw_finite (level + 1) k)) even.size odd.size unit even.error odd.error
    (tw_error levels (by rw [Nat.pow_succ]; omega)) range
  have double : (2 : ℝ) ^ (level + 1) * bound = 2 ^ level * bound + 2 ^ level * bound := by ring
  have size : ‖exactTw (level + 1) k * o'‖ ≤ 2 ^ level * bound := by rw [norm_mul, unit, one_mul]; exact odd.size
  refine ⟨⟨finite, ?_, ?_⟩, finite', ?_, ?_⟩
  · rw [double]
    exact (norm_add_le _ _).trans (add_le_add even.size size)
  · rw [next]
    exact error.trans (by linarith)
  · rw [double]
    exact (norm_sub_le _ _).trans (add_le_add even.size size)
  · rw [next]
    exact error'.trans (by linarith)

end

/-! ### The forward transform -/

theorem complexOf_zeroSample : complexOf zeroSample = 0 := Complex.ext valueOf_zero valueOf_zero

theorem getD_map_complexOf (x : List Sample) (j : Nat) : (x.map complexOf).getD j 0 = complexOf (x.getD j zeroSample) := by
  rw [← complexOf_zeroSample, List.getD_map]

theorem exactForward_eq_dft (x : List Sample) (k : Nat) : exactForward x k = dft 6 (x.map complexOf) k := by
  rw [dft_six, exactForward]
  simp only [getD_map_complexOf]

theorem norm_complexOf_le {m : ℝ} {a : Sample} (within : Within m a) : ‖complexOf a‖ ≤ 2 * m := by
  rw [two_mul]
  exact norm_le_of_abs_le within.2.1 within.2.2

section
variable {x : List Sample} {m : ℝ} (full : x.length = 64) (within : ∀ a ∈ x, Within m a)
  (inRange : 4096 * (2 * m + 1) ≤ safeRange)
include full within

theorem bound_nonneg : 0 ≤ 2 * m := by
  obtain ⟨a, inInput⟩ := List.exists_mem_of_length_pos (show 0 < x.length by omega)
  exact (norm_nonneg _).trans (norm_complexOf_le (within a inInput))

include inRange

theorem fft64_tracks {k : Nat} {b : Sample} (output : (fft64 x)[k]? = some b) : Tracks (2 * m) 6 b (exactForward x k) := by
  have inOutput : k < 64 := by
    rw [← fft64_length full]
    exact (List.getElem?_eq_some_iff.mp output).1
  have full' : (x.map complexOf).length = 2 ^ 6 := (List.length_map _).trans full
  rw [exactForward_eq_dft]
  refine fftWith_related (R := Tracks (2 * m)) (bf := stepButterfly) (bf' := exactButterfly)
    (fun level k a b a' b' levels half even odd => butterfly_tracks (bound_nonneg full within) inRange levels half even odd)
    (le_refl 6) full full' (fun j a z input exact => ?_) k b _ output (fftWith_exactButterfly full' inOutput)
  rw [List.getElem?_map, input, Option.map_some, Option.some.injEq] at exact
  subst exact
  have inInput := within a (List.mem_of_getElem? input)
  exact ⟨inInput.1, by simpa using norm_complexOf_le inInput, by simp⟩

theorem fft64_error {k : Nat} {b : Sample} (output : (fft64 x)[k]? = some b) :
    finiteSample b = true ∧ ‖exactForward x k‖ ≤ 128 * m ∧
      ‖complexOf b - exactForward x k‖ ≤ 12288 * (roundoff * m) + 24576 * halfUnit := by
  obtain ⟨finite, size, error⟩ := fft64_tracks full within inRange output
  push_cast at error
  rw [levelError_two_mul] at error
  exact ⟨finite, by linarith, by linarith⟩

theorem fft64_within : ∀ a ∈ fft64 x, Within (128 * m + (12288 * (roundoff * m) + 24576 * halfUnit)) a := by
  intro a inOutput
  obtain ⟨i, output⟩ := List.mem_iff_getElem?.mp inOutput
  obtain ⟨finite, size, error⟩ := fft64_error full within inRange output
  have magnitude := norm_le_of_close size error
  exact ⟨finite, (Complex.abs_re_le_norm (complexOf a)).trans magnitude, (Complex.abs_im_le_norm (complexOf a)).trans magnitude⟩

end

/-! ### The inverse transform -/

theorem complexOf_conj (a : Sample) : complexOf (conj a) = starRingEnd ℂ (complexOf a) := Complex.ext rfl (valueOf_fneg a.im)

theorem finiteSample_conj (a : Sample) : finiteSample (conj a) = finiteSample a := by
  rw [finiteSample, finiteSample, conj, fIsFinite_fneg]

theorem within_conj {m : ℝ} {a : Sample} (within : Within m a) : Within m (conj a) := by
  obtain ⟨finite, re, im⟩ := within
  refine ⟨(finiteSample_conj a).trans finite, re, ?_⟩
  rwa [conj, valueOf_fneg, abs_neg]

/-- The inverse transform is the forward one between two conjugations, divided by 64. -/
theorem exactInverse_eq_conj (x : List Sample) (k : Nat) :
    exactInverse x k = starRingEnd ℂ (exactForward (x.map conj) k) / 64 := by
  have conjugated : (x.map conj).map complexOf = (x.map complexOf).map (starRingEnd ℂ) := by
    rw [List.map_map, List.map_map]
    exact List.map_congr_left fun a _ => complexOf_conj a
  rw [exactForward_eq_dft, conjugated, conj_dft_conj, exactInverse, one_div_mul_eq_div]
  simp only [getD_map_complexOf]

theorem cdiv64_error {a : Sample} {bound : ℝ} (finite : finiteSample a = true) (bounded : ‖complexOf a‖ ≤ bound)
    (inRange : bound ≤ safeRange) :
    finiteSample (cdiv64 a) = true ∧ ‖complexOf (cdiv64 a) - complexOf a / 64‖ ≤ 2 * (roundoff * (bound / 64) + halfUnit) := by
  obtain ⟨finiteRe, finiteIm⟩ := (finiteSample_iff a).mp finite
  have quotient : complexOf a / 64 = ⟨valueOf a.re / 64, valueOf a.im / 64⟩ := by
    apply Complex.ext <;> simp [complexOf]
  have bounded' : ‖complexOf a / 64‖ ≤ bound / 64 := by
    rw [norm_div]
    simpa using div_le_div_of_nonneg_right bounded (by norm_num : (0 : ℝ) ≤ 64)
  have nonneg := (norm_nonneg _).trans bounded
  rw [quotient] at bounded' ⊢
  exact sample_error (fdiv_roundsTo finiteRe) (fdiv_roundsTo finiteIm) bounded' (by linarith)

section
variable {x : List Sample} {m : ℝ} (full : x.length = 64) (within : ∀ a ∈ x, Within m a)
  (inRange : 4096 * (2 * m + 1) ≤ safeRange)
include full within inRange

theorem ifft64_error {k : Nat} {b : Sample} (output : (ifft64 x)[k]? = some b) :
    finiteSample b = true ∧ ‖complexOf b - exactInverse x k‖ ≤ 256 * (roundoff * m) + 512 * halfUnit := by
  have full' : (x.map conj).length = 64 := (List.length_map _).trans full
  have within' : ∀ a ∈ x.map conj, Within m a := by
    intro a inConjugated
    obtain ⟨a', inInput, rfl⟩ := List.mem_map.mp inConjugated
    exact within_conj (within a' inInput)
  have nonneg := bound_nonneg full within
  have error := levelError_nonneg nonneg
  have errorSmall := levelError_le nonneg
  have halfPos := halfUnit_pos
  have relative := mul_le_mul_of_nonneg_right roundoff_le error
  have expand := levelError_two_mul m
  rw [ifft64_getElem?] at output
  obtain ⟨c, transformed, rfl⟩ := Option.map_eq_some_iff.mp output
  obtain ⟨finite, size, close⟩ := fft64_tracks full' within' inRange transformed
  push_cast at close
  have magnitude : ‖complexOf (conj c)‖ ≤ 128 * m + 384 * levelError (2 * m) := by
    rw [complexOf_conj, RCLike.norm_conj]
    exact (norm_le_of_close size close).trans (by linarith)
  obtain ⟨finite', quotient⟩ := cdiv64_error ((finiteSample_conj c).trans finite) magnitude (by linarith)
  refine ⟨finite', ?_⟩
  have divided : ‖complexOf (conj c) / 64 - exactInverse x k‖ ≤ 6 * levelError (2 * m) := by
    rw [exactInverse_eq_conj, complexOf_conj, ← sub_div, ← map_sub, norm_div, RCLike.norm_conj]
    norm_num
    linarith
  have distribute : roundoff * ((128 * m + 384 * levelError (2 * m)) / 64) = 2 * (roundoff * m) + 6 * (roundoff * levelError (2 * m)) := by
    ring
  have triangle := norm_sub_le_norm_sub_add_norm_sub (complexOf (cdiv64 (conj c))) (complexOf (conj c) / 64) (exactInverse x k)
  linarith

end

/-! ### The exact transforms are inverse to each other -/

theorem exactTw_mul (n a k : Nat) : exactTw n (a * k) = exactTw n a ^ k := by
  rw [exactTw, exactTw, ← Complex.exp_nat_mul]
  push_cast
  ring_nf

/-- The factors of one turn are different. -/
theorem exactTw_six_injective {a b : Nat} (small : a < 64) (small' : b < 64) (same : exactTw 6 a = exactTw 6 b) : a = b := by
  obtain ⟨turns, angle⟩ := Complex.exp_eq_exp_iff_exists_int.mp same
  have pi : (Real.pi : ℂ) ≠ 0 := Complex.ofReal_ne_zero.mpr Real.pi_ne_zero
  have angle' : (b : ℂ) = a + 64 * turns := by
    have imaginary := Complex.I_ne_zero
    field_simp at angle
    linear_combination angle
  have angle'' : (b : ℤ) = a + 64 * turns := by exact_mod_cast angle'
  omega

/-- Two different rows of factors are orthogonal. -/
theorem sum_exactTw_mul_conj {a b : Nat} (small : a < 64) (small' : b < 64) :
    ∑ k ∈ Finset.range 64, exactTw 6 (a * k) * starRingEnd ℂ (exactTw 6 (b * k)) = if a = b then 64 else 0 := by
  have wholeTurn (c : Nat) : exactTw 6 c ^ 64 = 1 := by rw [← exactTw_mul]; exact exactTw_turn 6 c
  have unit (c : Nat) : starRingEnd ℂ (exactTw 6 c) * exactTw 6 c = 1 := by
    rw [Complex.conj_mul', norm_exactTw]
    norm_num
  have powers (k : Nat) : exactTw 6 (a * k) * starRingEnd ℂ (exactTw 6 (b * k)) =
      (exactTw 6 a * starRingEnd ℂ (exactTw 6 b)) ^ k := by
    rw [exactTw_mul, exactTw_mul, map_pow, mul_pow]
  simp only [powers]
  split
  case isTrue same =>
    subst same
    rw [mul_comm, unit]
    simp
  case isFalse different =>
    have notOne : exactTw 6 a * starRingEnd ℂ (exactTw 6 b) ≠ 1 := fun one =>
      different (exactTw_six_injective small small' (by rw [← mul_one (exactTw 6 a), ← unit b, ← mul_assoc, one, one_mul]))
    rw [geom_sum_eq notOne, mul_pow, ← map_pow, wholeTurn, wholeTurn, map_one, mul_one, sub_self, zero_div]

theorem dft_inversion (z : List ℂ) {j : Nat} (small : j < 64) :
    ∑ k ∈ Finset.range 64, dft 6 z k * starRingEnd ℂ (exactTw 6 (j * k)) = 64 * z.getD j 0 := by
  calc ∑ k ∈ Finset.range 64, dft 6 z k * starRingEnd ℂ (exactTw 6 (j * k))
      = ∑ l ∈ Finset.range 64, z.getD l 0 * ∑ k ∈ Finset.range 64, exactTw 6 (l * k) * starRingEnd ℂ (exactTw 6 (j * k)) := by
        simp only [dft, Finset.sum_mul, Finset.mul_sum]
        rw [Finset.sum_comm]
        simp only [mul_assoc]
        rfl
    _ = 64 * z.getD j 0 := by
        rw [Finset.sum_eq_single j]
        · rw [sum_exactTw_mul_conj small small, if_pos rfl, mul_comm]
        · intro l inRange different
          rw [sum_exactTw_mul_conj (Finset.mem_range.mp inRange) small, if_neg different, mul_zero]
        · exact fun outside => absurd (Finset.mem_range.mpr small) outside

/-- The inverse transform averages the errors of its input. -/
theorem exactInverse_error {x y : List Sample} {bound : ℝ}
    (close : ∀ k < 64, ‖complexOf (y.getD k zeroSample) - exactForward x k‖ ≤ bound) {j : Nat} (small : j < 64) :
    ‖exactInverse y j - complexOf (x.getD j zeroSample)‖ ≤ bound := by
  have inverse : exactInverse y j =
      (1 / 64) * ∑ k ∈ Finset.range 64, complexOf (y.getD k zeroSample) * starRingEnd ℂ (exactTw 6 (j * k)) := by
    rw [exactInverse]
    congr 1
    refine Finset.sum_congr rfl fun k _ => ?_
    rw [conj_exactTw]
    push_cast
    ring_nf
  have original : complexOf (x.getD j zeroSample) =
      (1 / 64) * ∑ k ∈ Finset.range 64, exactForward x k * starRingEnd ℂ (exactTw 6 (j * k)) := by
    simp only [exactForward_eq_dft]
    rw [dft_inversion _ small, getD_map_complexOf]
    ring
  rw [inverse, original, ← mul_sub, ← Finset.sum_sub_distrib]
  simp only [← sub_mul]
  have total : ‖∑ k ∈ Finset.range 64,
      (complexOf (y.getD k zeroSample) - exactForward x k) * starRingEnd ℂ (exactTw 6 (j * k))‖ ≤ 64 * bound := by
    refine (norm_sum_le_of_le (Finset.range 64) (f := fun k => (complexOf (y.getD k zeroSample) - exactForward x k) *
      starRingEnd ℂ (exactTw 6 (j * k))) (n := fun _ => bound) fun k inRange => ?_).trans (by simp)
    rw [norm_mul, RCLike.norm_conj, norm_exactTw, mul_one]
    exact close k (Finset.mem_range.mp inRange)
  rw [norm_mul, show ‖(1 / 64 : ℂ)‖ = 1 / 64 by norm_num]
  linarith

/-! ### The three bounds -/

theorem div_pow_eq_roundoff (m : ℝ) : m / 2 ^ 39 = 16384 * (roundoff * m) ∧ m / 2 ^ 45 = 256 * (roundoff * m) ∧
    m / 2 ^ 36 = 131072 * (roundoff * m) := by
  unfold roundoff
  refine ⟨?_, ?_, ?_⟩ <;> ring

theorem one_div_pow_eq_halfUnit : (1 : ℝ) / 2 ^ 1060 = 32768 * halfUnit ∧ (1 : ℝ) / 2 ^ 1050 = 33554432 * halfUnit := by
  constructor
  · rw [halfUnit, show 1075 = 15 + 1060 from rfl, pow_add]
    generalize (2 : ℝ) ^ 1060 = unit
    ring
  · rw [halfUnit, show 1075 = 25 + 1050 from rfl, pow_add]
    generalize (2 : ℝ) ^ 1050 = unit
    ring

/-- From 2^990 there are 33 binades to the safe range. -/
theorem safeRange_of_le {m : ℝ} (bounded : m ≤ 2 ^ 990) : 2 ^ 30 * (m + 1) ≤ safeRange := by
  have range : safeRange = 2 ^ 33 * 2 ^ 990 := by rw [safeRange, ← pow_add]
  have one : (1 : ℝ) ≤ 2 ^ 990 := one_le_pow₀ one_le_two
  rw [range]
  generalize (2 : ℝ) ^ 990 = top at *
  linarith

/-- One transform after the other: the errors of the second, and those of the first averaged. -/
theorem roundTrip_error {x : List Sample} {m : ℝ} (full : x.length = 64) (within : ∀ a ∈ x, Within m a)
    (inRange : 2 ^ 30 * (m + 1) ≤ safeRange) {k : Nat} {b : Sample} (output : (ifft64 (fft64 x))[k]? = some b) :
    finiteSample b = true ∧ ‖complexOf b - complexOf (x.getD k zeroSample)‖ ≤ 131072 * (roundoff * m) + 33554432 * halfUnit := by
  have full' := fft64_length full
  have nonneg := bound_nonneg full within
  have nonneg' : 0 ≤ roundoff * m := mul_nonneg roundoff_pos.le (by linarith)
  have relative : roundoff * m ≤ 1 / 4096 * m := mul_le_mul_of_nonneg_right roundoff_le (by linarith)
  have relative' : roundoff * (roundoff * m) ≤ 1 / 4096 * (roundoff * m) := mul_le_mul_of_nonneg_right roundoff_le nonneg'
  have halfPos := halfUnit_pos
  have halfSmall := halfUnit_le
  have relativeHalf : roundoff * halfUnit ≤ 1 / 4096 * halfUnit := mul_le_mul_of_nonneg_right roundoff_le halfPos.le
  have inRange' : 4096 * (2 * m + 1) ≤ safeRange := by linarith
  have close : ∀ i < 64, ‖complexOf ((fft64 x).getD i zeroSample) - exactForward x i‖ ≤
      12288 * (roundoff * m) + 24576 * halfUnit := by
    intro i small
    have transformed := List.getElem?_eq_getElem (full'.symm ▸ small : i < (fft64 x).length)
    obtain ⟨-, -, error⟩ := fft64_error full within inRange' transformed
    rwa [List.getD_eq_getElem?_getD, transformed]
  have inOutput : k < 64 := by
    rw [← ifft64_length full']
    exact (List.getElem?_eq_some_iff.mp output).1
  obtain ⟨finite, error⟩ := ifft64_error full' (fft64_within full within inRange') (by linarith) output
  have averaged := exactInverse_error close inOutput
  have triangle := norm_sub_le_norm_sub_add_norm_sub (complexOf b) (exactInverse (fft64 x) k) (complexOf (x.getD k zeroSample))
  exact ⟨finite, by linarith⟩

/-- Settles O27: the bounds of the forward transform, of the inverse and of the round trip, in units of 2^-53 and 2^-1075. -/
theorem transformsAreTheFourierTransformUpToRounding : Obligations.TransformsAreTheFourierTransformUpToRounding := by
  intro x m full bounded within
  obtain ⟨forward, inverse, roundTrip⟩ := div_pow_eq_roundoff m
  rw [forward, inverse, roundTrip, one_div_pow_eq_halfUnit.1, one_div_pow_eq_halfUnit.2]
  have nonneg := bound_nonneg full within
  have nonneg' : 0 ≤ roundoff * m := mul_nonneg roundoff_pos.le (by linarith)
  have halfPos := halfUnit_pos
  have inRange := safeRange_of_le bounded
  have inRange' : 4096 * (2 * m + 1) ≤ safeRange := by linarith
  refine ⟨⟨fft64_length full, fun k b output => ?_⟩, ⟨ifft64_length full, fun k b output => ?_⟩,
    ifft64_length (fft64_length full), fun k b output => roundTrip_error full within inRange output⟩
  · obtain ⟨finite, -, error⟩ := fft64_error full within inRange' output
    exact ⟨finite, by linarith⟩
  · obtain ⟨finite, error⟩ := ifft64_error full within inRange' output
    exact ⟨finite, by linarith⟩

end Sys2Proof.Machine
end
